-- ==== Sys2Proof/Word.lean ====
section
/-! DEFINITION. The word and byte types of the block and nothing else (00_scope.md R8, R10). -/

namespace Sys2Proof

/-- A register or bus word: 32 bits, bit 0 the least significant (00_scope.md R10, 20_memory.md R82). -/
abbrev Word := BitVec 32

/-- One byte of the host address window. -/
abbrev Byte := BitVec 8

end Sys2Proof
end

