-- ==== Sys2Proof/Syntax.lean ====
section
/-! DEFINITION. The twelve commands (30_encoding.md R112), one constructor per row of spec/opcode_table.json,
with the fields each format uses (R111), and the ten error codes (60_exceptions.md R292). -/

namespace Sys2Proof

/-- A command. Fields are the raw fields of the command word (30_encoding.md R111): `c` is `C`, two bits, of which
the value 3 is legal to decode and an error to execute (R113); `mode` is `MODE`; `tt` is `TT`; `dsth`, `dstv`,
`aovr` are the one-bit fields. -/
inductive Instr where
  | nop
  | frameInit
  | refbuild (c : BitVec 2) (aovr : Bool)
  | pred (c : BitVec 2) (mode : BitVec 6)
  | resid (c : BitVec 2)
  | fdct (c : BitVec 2) (mode : BitVec 6) (tt : BitVec 2) (dsth dstv : Bool)
  | quant (c : BitVec 2)
  | dequant (c : BitVec 2)
  | idct (c : BitVec 2) (mode : BitVec 6) (tt : BitVec 2) (dsth dstv : Bool)
  | recon (c : BitVec 2)
  | mpm
  | histUpdate (mode : BitVec 6)
  deriving DecidableEq, Repr

/-- The errors a command can complete with, in the order of 60_exceptions.md R292. The first two are also the
decoder's reasons to reject a word (30_encoding.md R120). -/
inductive ErrCode where
  | illegalOpcode
  | reservedField
  | illegalComponent
  | badSize
  | badPicture
  | badPosition
  | illegalMode
  | illegalTt
  | badQp
  | badSlice
  deriving DecidableEq, Repr

end Sys2Proof
end

