-- ==== Sys2Proof/WellFormed.lean ====
section
/-! DEFINITION. Which terms of `Instr` stand for a command word that decodes (30_encoding.md R119): the two
constraints inside format CT. Every other constructor's fields are free. -/

namespace Sys2Proof

/-- The two format-CT constraints of 30_encoding.md R119: `MODE` is 0 unless `TT` = 0, and `DSTH` and `DSTV` are 0
unless `TT` = 2. -/
def ctFieldsOk (mode : BitVec 6) (tt : BitVec 2) (dsth dstv : Bool) : Bool :=
  (tt == 0#2 || mode == 0#6) && (tt == 2#2 || (!dsth && !dstv))

/-- A command is well formed when its word passes the field checks of 30_encoding.md R119. -/
def Instr.wellFormed : Instr → Bool
  | .nop => true
  | .frameInit => true
  | .refbuild _ _ => true
  | .pred _ _ => true
  | .resid _ => true
  | .fdct _ mode tt dsth dstv => ctFieldsOk mode tt dsth dstv
  | .quant _ => true
  | .dequant _ => true
  | .idct _ mode tt dsth dstv => ctFieldsOk mode tt dsth dstv
  | .recon _ => true
  | .mpm => true
  | .histUpdate _ => true

end Sys2Proof
end

