-- ==== Sys2Proof/Decode.lean ====
section
/-! DEFINITION. From a command word to the command or the name of what is wrong with it (30_encoding.md R110-R121),
and back. A command is one 32-bit word that the host writes to `CMD`; it never lies in memory as bytes (20_memory.md
R96), so the decoder reads words (assumption 1). -/

namespace Sys2Proof

/-- The fields of a command word (30_encoding.md R111). -/
structure CmdFields where
  op : BitVec 6
  c : BitVec 2
  mode : BitVec 6
  tt : BitVec 2
  dsth : Bool
  dstv : Bool
  aovr : Bool
  low : BitVec 13
  deriving DecidableEq, Repr

/-- The one layout of the command word (30_encoding.md R111). -/
def splitWord (w : Word) : CmdFields where
  op := w.extractLsb' 26 6
  c := w.extractLsb' 24 2
  mode := w.extractLsb' 18 6
  tt := w.extractLsb' 16 2
  dsth := w.getLsbD 15
  dstv := w.getLsbD 14
  aovr := w.getLsbD 13
  low := w.extractLsb' 0 13

/-- The same layout written the other way, `{OP, C, MODE, TT, DSTH, DSTV, AOVR, 0}` from the high bits down. -/
def joinWord (f : CmdFields) : Word :=
  f.op ++ f.c ++ f.mode ++ f.tt ++ BitVec.ofBool f.dsth ++ BitVec.ofBool f.dstv ++ BitVec.ofBool f.aovr ++ f.low

/-- The formats of 30_encoding.md R111: which fields a command uses. -/
inductive Format where
  | n | c | ca | cm | ct | m
  deriving DecidableEq, Repr

/-- `FIELDS[fmt]` has `C` (30_encoding.md R111). -/
def Format.usesC : Format → Bool
  | .n => false | .c => true | .ca => true | .cm => true | .ct => true | .m => false

/-- `FIELDS[fmt]` has `MODE`. -/
def Format.usesMode : Format → Bool
  | .n => false | .c => false | .ca => false | .cm => true | .ct => true | .m => true

/-- `FIELDS[fmt]` has `TT`, `DSTH` and `DSTV`. -/
def Format.usesTt : Format → Bool
  | .n => false | .c => false | .ca => false | .cm => false | .ct => true | .m => false

/-- `FIELDS[fmt]` has `AOVR`. -/
def Format.usesAovr : Format → Bool
  | .n => false | .c => false | .ca => true | .cm => false | .ct => false | .m => false

/-- The field checks of 30_encoding.md R118 and R119, the two CT constraints included: true when the word must not
be executed (`RESERVED_FIELD`). -/
def reservedFieldSet (fmt : Format) (f : CmdFields) : Bool :=
  f.low != 0#13
  || (!fmt.usesC && f.c != 0#2)
  || (!fmt.usesMode && f.mode != 0#6)
  || (!fmt.usesTt && (f.tt != 0#2 || f.dsth || f.dstv))
  || (!fmt.usesAovr && f.aovr)
  || (fmt.usesTt && !ctFieldsOk f.mode f.tt f.dsth f.dstv)

/-- The opcode map of 30_encoding.md R112: the command and its format; opcodes 0x0C..0x3F are illegal. -/
def opcodeMap (f : CmdFields) : Option (Format × Instr) :=
  match f.op.toNat with
  | 0x00 => some (.n, .nop)
  | 0x01 => some (.n, .frameInit)
  | 0x02 => some (.ca, .refbuild f.c f.aovr)
  | 0x03 => some (.cm, .pred f.c f.mode)
  | 0x04 => some (.c, .resid f.c)
  | 0x05 => some (.ct, .fdct f.c f.mode f.tt f.dsth f.dstv)
  | 0x06 => some (.c, .quant f.c)
  | 0x07 => some (.c, .dequant f.c)
  | 0x08 => some (.ct, .idct f.c f.mode f.tt f.dsth f.dstv)
  | 0x09 => some (.c, .recon f.c)
  | 0x0A => some (.n, .mpm)
  | 0x0B => some (.m, .histUpdate f.mode)
  | _ => none

/-- The decode of a command word (30_encoding.md R119): the opcode first, then the field checks. Total: a word is one
command, or is rejected by the name of the error it completes with (R120). -/
def decodeWord (w : Word) : Except ErrCode Instr :=
  match opcodeMap (splitWord w) with
  | none => .error .illegalOpcode
  | some (fmt, i) => if reservedFieldSet fmt (splitWord w) then .error .reservedField else .ok i

/-- A command word with every field zero but the opcode. -/
def opOnly (op : BitVec 6) : CmdFields where
  op := op
  c := 0#2
  mode := 0#6
  tt := 0#2
  dsth := false
  dstv := false
  aovr := false
  low := 0#13

/-- The fields of a command's word, from the tables of 30_encoding.md R111 and R112. -/
def Instr.fields : Instr → CmdFields
  | .nop => opOnly 0x00#6
  | .frameInit => opOnly 0x01#6
  | .refbuild c aovr => { opOnly 0x02#6 with c := c, aovr := aovr }
  | .pred c mode => { opOnly 0x03#6 with c := c, mode := mode }
  | .resid c => { opOnly 0x04#6 with c := c }
  | .fdct c mode tt dsth dstv => { opOnly 0x05#6 with c := c, mode := mode, tt := tt, dsth := dsth, dstv := dstv }
  | .quant c => { opOnly 0x06#6 with c := c }
  | .dequant c => { opOnly 0x07#6 with c := c }
  | .idct c mode tt dsth dstv => { opOnly 0x08#6 with c := c, mode := mode, tt := tt, dsth := dsth, dstv := dstv }
  | .recon c => { opOnly 0x09#6 with c := c }
  | .mpm => opOnly 0x0A#6
  | .histUpdate mode => { opOnly 0x0B#6 with mode := mode }

/-- The word of a command. -/
def encode (i : Instr) : Word := joinWord i.fields

/-- What the decoder reads from the instruction whose bits are `w`: a command is exactly one 32-bit word (R110), the
bits from `nbits` up are zero, and no longer command exists. -/
def decodeTableWord (nbits w : Nat) : Option Instr :=
  if 32 < nbits then none
  else match decodeWord (BitVec.ofNat 32 (w % 2 ^ nbits)) with
    | .ok i => some i
    | .error _ => none

end Sys2Proof
end

