-- ==== Sys2Proof/Machine/Arith.lean ====
section
/-! DEFINITION. The spec's integer arithmetic (00_scope.md R8, R9, R11, R12): floor shifts, clipping, 16-bit storage,
finite sums, and blocks. -/

namespace Sys2Proof.Machine

/-- `a >> k` = `floor(a / 2^k)` (00_scope.md R8). -/
def asr (a : Int) (k : Nat) : Int := a / 2 ^ k

/-- `a << k` = `a * 2^k` (00_scope.md R8). -/
def shl (a : Int) (k : Nat) : Int := a * 2 ^ k

/-- `Clip3(lo, hi, v)` (00_scope.md R9). -/
def clip3 (lo hi v : Int) : Int := min hi (max lo v)

/-- `sat16(v)` (00_scope.md R9). -/
def sat16 (v : Int) : Int := clip3 (-32768) 32767 v

/-- `clip8(v)` (00_scope.md R9), the sample range at `BitDepth` 8. -/
def clip8 (v : Int) : Int := clip3 0 255 v

/-- `wrap16(v)`: the value in -32768..32767 congruent to `v` modulo 65536 (00_scope.md R9). -/
def wrap16 (v : Int) : Int := v.bmod 65536

/-- `bitlen(v)`: the number of bits of `v`, 0 for 0 (00_scope.md R12). -/
def bitlen (v : Nat) : Nat := if v = 0 then 0 else v.log2 + 1

/-- `Σ_{i<n} f(i)` (00_scope.md R11). -/
def sumTo : Nat → (Nat → Int) → Int
  | 0, _ => 0
  | n + 1, f => sumTo n f + f n

/-- A block, row by row (00_scope.md R11). -/
abbrev Block := List (List Int)

/-- `B[row][col]`. A command only ever indexes inside the block it was given. -/
def Block.get (b : Block) (row col : Nat) : Int := (b.getD row []).getD col 0

/-- The block of `rows` rows and `cols` columns whose element `[r][c]` is `f r c`. -/
def Block.tabulate (rows cols : Nat) (f : Nat → Nat → Int) : Block :=
  (List.range rows).map fun r => (List.range cols).map fun c => f r c

end Sys2Proof.Machine
end

