-- ==== Sys2Proof/Config.lean ====
section
/-! DEFINITION. What a build of the block fixes (00_scope.md R7, 93_implementation_defined.md section 4) and what
the spec leaves open: the platform's base address, and two values for each use, as opaque constants. The spec's defaults of the parameters are
Machine/Build.lean. -/

namespace Sys2Proof

/-- The build parameters a model takes as an argument (00_scope.md R7; 10_state.md R59; 93 section 4): fixed for a block,
never changed by a command. `edgeFiltMaxLog2` is 4 or 5. `lmParams n M R` is `LM_PARAMS`: from the block size, the LM
border `M[0..2n-1]` and the chroma border `R[0..4n]` it gives `(a, b, shift)`, of any size (assumption 23). `xicBase` is `XIC_BASE`, where the platform
places the block's 128 KiB window (20_memory.md R98). -/
structure BuildParams where
  edgeFiltMaxLog2 : Nat
  intraFilter : Nat → Nat → Bool
  lmParams : Nat → List Int → List Int → Int × Int × Nat
  dstHReset : BitVec 35
  dstVReset : BitVec 35
  xicBase : Nat

/-- FREE VALUE (20_memory.md R98; 93 section 4: `XIC_BASE`, no default; assumption 16). Where the platform has placed the
window of the default build: any address. -/
opaque Config.xicBase : Nat

/-- FREE VALUE (20_memory.md R92; 93 U2; assumption 4). The bits the `n`-th draw finds where a storage element or a
result register has no value: any value, under no law. It has no body, so nothing can be proved of it. -/
opaque Config.freeBits : Nat → Word

/-- FREE VALUE (70_reset_and_hazards.md R340; 93 U5; assumption 3). How many never-held host accesses the block may
perform before it executes the command whose acceptance drew number `n`: finite, otherwise any. -/
opaque Config.commandLatency : Nat → Nat

end Sys2Proof
end

