-- ==== Sys2Proof/Machine/Build.lean ====
section
/-! DEFINITION. The spec's defaults of the build parameters (00_scope.md R7): `LM_PARAMS` over the two borders,
`INTRA_FILTER`, the reset masks, and the default build. -/

namespace Sys2Proof.Machine

/-! ### The border accessor `p(x, y)` (42_refbuild.md R190) -/

/-- `p(x, -1) = R[2n+1+x]`. -/
def topSample (r : List Int) (n x : Nat) : Int := r.getD (2 * n + 1 + x) 0

/-- `p(-1, y) = R[2n-1-y]`. -/
def leftSample (r : List Int) (n y : Nat) : Int := r.getD (2 * n - 1 - y) 0

/-- `p(-1, -1) = R[2n]`. -/
def cornerSample (r : List Int) (n : Nat) : Int := r.getD (2 * n) 0

/-! ### The default of `LM_PARAMS` -/

/-- `LMDIV[i-1] = ((1 << 15) + i / 2) / i` for `i = 1..63` (43_intrapred.md R248). -/
def lmDiv (i : Nat) : Int := (((2 ^ 15 + i / 2) / i : Nat) : Int)

/-- `CLZ1(a)` (43_intrapred.md R249): the redundant sign bits of `a` in 16 bits. -/
def clz1 (a : Int) : Nat :=
  if a = 0 then 0 else if a = -1 then 15 else 15 - bitlen (if a < 0 then -a - 1 else a).toNat

/-- The correlation sums and the count's log2 (43_intrapred.md R241). -/
structure LmSums where
  x : Int
  y : Int
  xx : Int
  xy : Int
  cs : Nat
  deriving DecidableEq, Repr

/-- A sum over the `n` top and the `n` left neighbours (43_intrapred.md R241): `f` of the LM border sample and of the
chroma border sample it pairs with. -/
def neighbourSum (n : Nat) (m r : List Int) (f : Int → Int → Int) : Int :=
  sumTo n (fun j => f (m.getD (n + j) 0) (topSample r n j))
    + sumTo n (fun i => f (m.getD (n - 1 - i) 0) (leftSample r n i))

/-- The sums of 43_intrapred.md R241; the reduction by `ts = lg - 6` is made for `ts > 0` only, never for `n ≤ 16`. -/
def lmSums (n : Nat) (m r : List Int) : LmSums :=
  let ts := n.log2 - 6
  let reduce := fun v : Int => if 0 < ts then asr (v + shl 1 (ts - 1)) ts else v
  { x := reduce (neighbourSum n m r fun a _ => a)
    y := reduce (neighbourSum n m r fun _ b => b)
    xx := reduce (neighbourSum n m r fun a _ => a ^ 2)
    xy := reduce (neighbourSum n m r fun a b => a * b)
    cs := n.log2 + 1 - ts }

/-- The fixed-point slope before normalisation (43_intrapred.md R242, R243). -/
def lmSlope (t : LmSums) : Int :=
  let a1 := shl t.xy t.cs - t.y * t.x
  let a2 := shl t.xx t.cs - t.x * t.x
  let sa1 := bitlen a1.natAbs - 15
  let sa2 := bitlen a2.natAbs - 6
  let sa := (sa2 : Int) + 2 - sa1
  let a1s := asr a1 sa1
  let a2s := asr a2 sa2
  let a := if 1 ≤ a2s then a1s * lmDiv a2s.toNat else 0
  clip3 (-32768) 32767 (if sa < 0 then shl a (-sa).toNat else asr a sa.toNat)

/-- The default of `LM_PARAMS`: `(a, b, shift)` (43_intrapred.md R241-R245). -/
def lmParamsDefault (n : Nat) (m r : List Int) : Int × Int × Nat :=
  let t := lmSums n m r
  let a0 := lmSlope t
  let k := if a0 < -64 || 63 < a0 then 9 - clz1 a0 else 0
  let a := asr a0 k
  let shift := 13 - k
  (a, asr (t.y - asr (a * t.x) shift + shl 1 (t.cs - 1)) t.cs, shift)

/-! ### The other defaults -/

/-- `THR[lg]` (42_refbuild.md R199). -/
def filterThreshold (lg : Nat) : Nat := if lg = 3 then 7 else if lg = 4 then 1 else 0

/-- The default of `INTRA_FILTER[lg][m]` (42_refbuild.md R199). -/
def intraFilterDefault (lg m : Nat) : Bool :=
  if lg = 2 || m = 1 then false
  else decide (filterThreshold lg < min ((m : Int) - 26).natAbs ((m : Int) - 10).natAbs)

/-- The default of `DST_H_RESET` (10_state.md R36): modes 0, 2..25. -/
def dstHResetDefault : BitVec 35 := 0x003FFFFFD#35

/-- The default of `DST_V_RESET` (10_state.md R36): modes 0, 11..34. -/
def dstVResetDefault : BitVec 35 := 0x7FFFFF801#35

/-- The build with every parameter at the spec's default (00_scope.md R7; 93_implementation_defined.md section 4), and
with `XIC_BASE`, which has none, free: the one behind `exec`, `step` and `State.reset` (assumption 8). -/
def defaultBuild : BuildParams where
  edgeFiltMaxLog2 := 5
  intraFilter := intraFilterDefault
  lmParams := lmParamsDefault
  dstHReset := dstHResetDefault
  dstVReset := dstVResetDefault
  xicBase := Config.xicBase

end Sys2Proof.Machine
end

