-- ==== Sys2Proof/Machine/State.lean ====
section
/-! DEFINITION. The state of the block as plain data (10_state.md), the names of its storage arrays (20_memory.md
R81), the reasons a step can stop, and the state after power-on reset (70_reset_and_hazards.md R320). -/

namespace Sys2Proof.Machine

/-- The three components (00_scope.md R16): luma Y, chroma Cb (U), chroma Cr (V). -/
inductive Comp where
  | y | u | v
  deriving DecidableEq, Repr

/-- The eight working buffers of a component (10_state.md R40). -/
inductive Buf where
  | org | pred | resi | coef | qcoef | dq | rres | reco
  deriving DecidableEq, Repr

/-- The storage arrays (20_memory.md R81; 10_state.md R40, R49-R54). -/
inductive Arr where
  | buf (b : Buf) (c : Comp)
  | ref (c : Comp)
  | reff0
  | lmref
  | topPix (c : Comp)
  | lmTop
  | corner (c : Comp)
  | topMode
  | leftPix (c : Comp)
  | lmLeft
  | leftMode
  deriving DecidableEq, Repr

/-- The element types (10_state.md R48). -/
inductive ElemKind where
  | sample
  | coefficient
  | mode
  deriving DecidableEq, Repr

/-- Consecutive elements of one array: `start`, `start + 1`, …, `len` of them. What a command reads or writes is a
list of these. -/
structure Span where
  arr : Arr
  start : Nat
  len : Nat
  deriving DecidableEq, Repr

/-- The storage of the block: (host byte address, byte) pairs, addresses strictly rising. A byte that is not listed
belongs to an element without a value (10_state.md R57), or to no element (assumptions 5, 21). -/
abbrev Memory := List Host.Cell

/-- `STATUS` (10_state.md R34) less `BUSY`, which is the pending slot's being full (R60; assumption 11). -/
structure Status where
  done : Bool
  err : Bool
  errMulti : Bool
  frameEnd : Bool
  errcode : BitVec 4
  deriving DecidableEq, Repr

/-- The registers only the host writes (10_state.md R35, R36, R38, R39, R41, R42, R44). -/
structure ConfigRegs where
  irqEn : Bool
  picSize : Word
  cuLog2 : BitVec 3
  qpY : BitVec 6
  qpC : BitVec 6
  slice : BitVec 2
  dstH : BitVec 35
  dstV : BitVec 35
  availOvr : BitVec 5
  deriving DecidableEq, Repr

/-- The three fields of the `MPM` register (10_state.md R46). -/
structure MpmReg where
  mpm0 : BitVec 6
  mpm1 : BitVec 6
  mpm2 : BitVec 6
  deriving DecidableEq, Repr

/-- The result registers (60_exceptions.md R291). `none` is the spec's own state "without a value", which a soft reset
leaves in the result registers of a command it abandons (70_reset_and_hazards.md R322; assumption 9); at power-on
every one holds a value. `CBF` is one bit per component (10_state.md R45). -/
structure Results where
  avail : Option (BitVec 5)
  nzsum : Option Word
  cbfY : Option Bool
  cbfU : Option Bool
  cbfV : Option Bool
  mpm : Option MpmReg
  lmA : Option Word
  lmB : Option Word
  lmShift : Option (BitVec 4)
  deriving DecidableEq, Repr

/-- One host access (20_memory.md R82, R89): `bits` is its size, of which only 32 is served. -/
inductive HostAccess where
  | read (addr : BitVec 17) (bits : Nat)
  | write (addr : BitVec 17) (bits : Nat) (value : Word)
  deriving DecidableEq, Repr

/-- The response to a host access (20_memory.md R83, R88): the bus error flag and the data of a read. -/
structure BusResponse where
  error : Bool
  data : Word
  deriving DecidableEq, Repr

/-- The state of the block and of the outside world's pending input. The last four fields are the model's own:
`latency` and `draws` carry the two free values (assumptions 3, 4), `bus` the host accesses not yet performed, oldest
first (assumption 2), `response` the response to the last one performed (assumption 14). -/
structure State where
  status : Status
  cmd : Word
  errinfo : Word
  cuPos : Word
  cfg : ConfigRegs
  res : Results
  mem : Memory
  pending : Option Word
  latency : Nat
  draws : Nat
  bus : List HostAccess
  response : Option BusResponse
  deriving DecidableEq, Repr

/-- Why the machine stops. -/
inductive Fault where
  /-- Raised by a command that reads element `e` of `a` for a computation while it has no value. The spec gives the
  result no definition and says that a model faults (00_scope.md R14; 93 U1, U4). Safe: the block itself goes on, with
  a result no rule gives. -/
  | noValue (a : Arr) (e : Nat)
  deriving DecidableEq, Repr

/-- Why an instruction has no meaning. -/
inductive Refusal where
  /-- Raised by `exec` for an instruction the model gives no meaning; no arm raises it. Safe. -/
  | notModelled (mnemonic : String)
  deriving DecidableEq, Repr

/-- What a command or a step answers. -/
abbrev Answer := Host.Outcome State Fault Refusal

/-- `STATUS` at reset (10_state.md R34). -/
def Status.reset : Status where
  done := false
  err := false
  errMulti := false
  frameEnd := false
  errcode := 0#4

/-- The host's registers at reset on a build (10_state.md R32, R36, R58): `SLICE` = 2, the DST masks at their
parameters, the others 0. -/
def ConfigRegs.reset (p : BuildParams) : ConfigRegs where
  irqEn := false
  picSize := 0#32
  cuLog2 := 0#3
  qpY := 0#6
  qpC := 0#6
  slice := 2#2
  dstH := p.dstHReset
  dstV := p.dstVReset
  availOvr := 0#5

/-- The result registers at reset (10_state.md R32): all 0. -/
def Results.reset : Results where
  avail := some 0#5
  nzsum := some 0#32
  cbfY := some false
  cbfU := some false
  cbfV := some false
  mpm := some ⟨0#6, 0#6, 0#6⟩
  lmA := some 0#32
  lmB := some 0#32
  lmShift := some 0#4

/-- Power-on reset on a build (70_reset_and_hazards.md R320; 10_state.md R57, R58): the registers at their reset values, no
command pending, no storage element with a value. The model's own fields start empty or 0 (assumptions 2, 3, 4, 14). -/
def State.resetIn (p : BuildParams) : State where
  status := Status.reset
  cmd := 0#32
  errinfo := 0#32
  cuPos := 0#32
  cfg := ConfigRegs.reset p
  res := Results.reset
  mem := []
  pending := none
  latency := 0
  draws := 0
  bus := []
  response := none

/-- Power-on reset on the default build (assumption 8). -/
def State.reset : State := State.resetIn defaultBuild

end Sys2Proof.Machine
end

