-- ==== Sys2Proof/Machine/Arrays.lean ====
section
/-! DEFINITION. The host address map of the storage arrays (20_memory.md R81): where each array starts, how many
elements it has and of which type (10_state.md R40, R48-R54). Commands name storage by array and element; the same
map places each element in the one memory. -/

namespace Sys2Proof.Machine

/-- The component's number `c` (00_scope.md R16). -/
def Comp.index : Comp → Nat
  | .y => 0 | .u => 1 | .v => 2

/-- The working buffer's number `b` (10_state.md R40). -/
def Buf.index : Buf → Nat
  | .org => 0 | .pred => 1 | .resi => 2 | .coef => 3 | .qcoef => 4 | .dq => 5 | .rres => 6 | .reco => 7

/-- The byte address of element 0 (20_memory.md R81). -/
def Arr.base : Arr → Nat
  | .buf b c => 0x01000 + (8 * c.index + b.index) * 0x800
  | .ref .y => 0x0D000
  | .ref .u => 0x0D200
  | .ref .v => 0x0D400
  | .reff0 => 0x0D600
  | .lmref => 0x0D800
  | .topPix .y => 0x10000
  | .topPix .u => 0x12000
  | .topPix .v => 0x13000
  | .lmTop => 0x14000
  | .corner .y => 0x15000
  | .corner .u => 0x15800
  | .corner .v => 0x16000
  | .topMode => 0x16800
  | .leftPix .y => 0x17800
  | .leftPix .u => 0x17880
  | .leftPix .v => 0x178C0
  | .lmLeft => 0x17900
  | .leftMode => 0x17940

/-- The number of elements (20_memory.md R81). -/
def Arr.size : Arr → Nat
  | .buf _ _ => 1024
  | .ref _ => 129
  | .reff0 => 129
  | .lmref => 32
  | .topPix .y => 4096
  | .topPix .u => 2048
  | .topPix .v => 2048
  | .lmTop => 2048
  | .corner _ => 1024
  | .topMode => 1025
  | .leftPix .y => 64
  | .leftPix .u => 32
  | .leftPix .v => 32
  | .lmLeft => 32
  | .leftMode => 2

/-- The element type of a working buffer (10_state.md R40). -/
def Buf.kind : Buf → ElemKind
  | .org => .sample | .pred => .sample | .resi => .coefficient | .coef => .coefficient
  | .qcoef => .coefficient | .dq => .coefficient | .rres => .coefficient | .reco => .sample

/-- The element type (20_memory.md R81, 10_state.md R48). -/
def Arr.kind : Arr → ElemKind
  | .buf b _ => b.kind
  | .topMode => .mode
  | .leftMode => .mode
  | .ref _ => .sample
  | .reff0 => .sample
  | .lmref => .sample
  | .topPix _ => .sample
  | .lmTop => .sample
  | .corner _ => .sample
  | .leftPix _ => .sample
  | .lmLeft => .sample

/-- The byte address of lane `e` of the array: window base plus `2e` (20_memory.md R81). -/
def Arr.laneAddr (a : Arr) (e : Nat) : Nat := a.base + 2 * e

/-- The three components. -/
def Comp.all : List Comp := [.y, .u, .v]

/-- The eight working buffers. -/
def Buf.all : List Buf := [.org, .pred, .resi, .coef, .qcoef, .dq, .rres, .reco]

/-- Every storage array, in address order. -/
def Arr.all : List Arr :=
  (Comp.all.flatMap fun c => Buf.all.map fun b => Arr.buf b c)
    ++ Comp.all.map .ref ++ [.reff0, .lmref] ++ Comp.all.map .topPix ++ [.lmTop]
    ++ Comp.all.map .corner ++ [.topMode] ++ Comp.all.map .leftPix ++ [.lmLeft, .leftMode]

/-- The element is in bytes `laneAddr e` (and, for a coefficient, the next one): how many bytes it occupies. -/
def ElemKind.bytes : ElemKind → Nat
  | .sample => 1
  | .coefficient => 2
  | .mode => 1

/-- Byte address `addr` belongs to element storage of the span. -/
def Span.covers (s : Span) (addr : Nat) : Bool :=
  s.arr.laneAddr s.start ≤ addr && addr < s.arr.laneAddr (s.start + s.len)

/-- Byte address `addr` is a byte of some storage element: in a lane below the array's size, and the lane's upper byte
only for a coefficient (20_memory.md R85). -/
def isElementByte (addr : Nat) : Bool :=
  Arr.all.any fun a =>
    a.base ≤ addr && addr < a.laneAddr a.size && (a.kind == .coefficient || (addr - a.base) % 2 == 0)

end Sys2Proof.Machine
end

