-- ==== Sys2Proof/Machine/Ops.lean ====
section
/-! DEFINITION. The named operations over the storage and the status: reading and writing bytes, elements, rows and
blocks; completing a command without and with an error (60_exceptions.md R291); clearing a recorded error (R300). -/

namespace Sys2Proof

/-- The number of an error code (60_exceptions.md R292). -/
def ErrCode.number : ErrCode → BitVec 4
  | .illegalOpcode => 1#4
  | .reservedField => 2#4
  | .illegalComponent => 3#4
  | .badSize => 4#4
  | .badPicture => 5#4
  | .badPosition => 6#4
  | .illegalMode => 7#4
  | .illegalTt => 8#4
  | .badQp => 9#4
  | .badSlice => 10#4

end Sys2Proof

namespace Sys2Proof.Machine

/-! ### Bytes -/

/-- The byte at address `a`; `none` when none is listed. -/
def Memory.byte? : Memory → Nat → Option Byte
  | [], _ => none
  | (k, v) :: t, a => if a = k then some v else Memory.byte? t a

/-- The cells for consecutive bytes from address `a`; a byte that is `none` gets no cell. -/
def Memory.cellsFrom : Nat → List (Option Byte) → Memory
  | _, [] => []
  | a, none :: t => Memory.cellsFrom (a + 1) t
  | a, some b :: t => (a, b) :: Memory.cellsFrom (a + 1) t

/-- The memory in which the bytes from `lo` on are `bs` (`none`: unlisted) and every other byte is as it was. -/
def Memory.putBytes (m : Memory) (lo : Nat) (bs : List (Option Byte)) : Memory :=
  m.filter (fun cell => decide (cell.1 < lo)) ++ Memory.cellsFrom lo bs
    ++ m.filter (fun cell => decide (lo + bs.length ≤ cell.1))

/-- The part of the memory in `len` bytes from `lo` on: what a row is looked up in. -/
def Memory.window (m : Memory) (lo len : Nat) : Memory :=
  m.filter fun cell => decide (lo ≤ cell.1) && decide (cell.1 < lo + len)

/-- The addresses are strictly rising and every one of them exceeds `bound` where there is one. -/
def Memory.risingFrom : Option Nat → Memory → Bool
  | _, [] => true
  | none, (k, _) :: t => Memory.risingFrom (some k) t
  | some b, (k, _) :: t => decide (b < k) && Memory.risingFrom (some k) t

/-- The canonical form: addresses strictly rising. (An unlisted byte reads as no value, which no entry can hold, so
the form asks nothing more.) -/
def Memory.wf (m : Memory) : Bool := Memory.risingFrom none m

/-! ### Elements -/

/-- The element of type `k` in the lane at byte address `a` (20_memory.md R85): a sample or mode is the lane's low
byte, a coefficient both bytes, the lower address the less significant, as two's complement. -/
def Memory.lane? (m : Memory) (k : ElemKind) (a : Nat) : Option Int :=
  match k with
  | .sample => (m.byte? a).map fun b => (b.toNat : Int)
  | .mode => (m.byte? a).map fun b => (b.toNat : Int)
  | .coefficient =>
    match m.byte? a, m.byte? (a + 1) with
    | some lo, some hi => some (hi ++ lo).toInt
    | some _, none => none
    | none, _ => none

/-- The two bytes of a lane holding the element value `v` of type `k` (10_state.md R48): the low 8 bits of a sample or
mode, the low 16 of a coefficient; no bytes for no value. -/
def laneBytes (k : ElemKind) (v : Option Int) : List (Option Byte) :=
  match k with
  | .sample => [v.map (BitVec.ofInt 8), none]
  | .mode => [v.map (BitVec.ofInt 8), none]
  | .coefficient =>
    [v.map fun x => (BitVec.ofInt 16 x).extractLsb' 0 8, v.map fun x => (BitVec.ofInt 16 x).extractLsb' 8 8]

/-- Element `e` of the array, `none` when it has no value (10_state.md R57). -/
def State.elem? (s : State) (a : Arr) (e : Nat) : Option Int := s.mem.lane? a.kind (a.laneAddr e)

/-- Element `e` of the array where it is known to have a value: every command checks the elements it computes from
before it computes (`runCommand`), so the 0 is never what a command computes with. -/
def State.val (s : State) (a : Arr) (e : Nat) : Int := (s.elem? a e).getD 0

/-- `len` elements from `start` on, values and lacks of value alike. -/
def State.row? (s : State) (a : Arr) (start len : Nat) : List (Option Int) :=
  let w := s.mem.window (a.laneAddr start) (2 * len)
  (List.range len).map fun i => w.lane? a.kind (a.laneAddr (start + i))

/-- `len` elements from `start` on, known to have values. -/
def State.row (s : State) (a : Arr) (start len : Nat) : List Int :=
  (s.row? a start len).map fun v => v.getD 0

/-- The `n`×`n` block in the upper left of a working buffer, element `[row][col]` in lane `32·row + col`
(20_memory.md R81; 00_scope.md R11). -/
def State.block (s : State) (a : Arr) (n : Nat) : Block :=
  (List.range n).map fun y => s.row a (32 * y) n

/-- Writes the elements from `start` on, values and lacks of value alike. -/
def State.putRow? (s : State) (a : Arr) (start : Nat) (vs : List (Option Int)) : State :=
  { s with mem := s.mem.putBytes (a.laneAddr start) (vs.flatMap (laneBytes a.kind)) }

/-- Writes values to the elements from `start` on. -/
def State.putRow (s : State) (a : Arr) (start : Nat) (vs : List Int) : State :=
  s.putRow? a start (vs.map some)

/-- Writes the rows of a block from row `y` on. -/
def State.putRows (a : Arr) : Nat → Block → State → State
  | _, [], s => s
  | y, r :: rs, s => State.putRows a (y + 1) rs (s.putRow a (32 * y) r)

/-- Writes a block to the upper left of a working buffer; elements outside the block keep their values
(10_state.md R40). -/
def State.putBlock (s : State) (a : Arr) (b : Block) : State := State.putRows a 0 b s

/-- Leaves the elements of the span without a value. -/
def State.clearSpan (s : State) (sp : Span) : State :=
  s.putRow? sp.arr sp.start (List.replicate sp.len none)

/-! ### Spans -/

/-- One element. -/
def oneElem (a : Arr) (e : Nat) : Span := ⟨a, e, 1⟩

/-- The elements `[row][col]` of a working buffer with `row, col < n` (10_state.md R40). -/
def blockSpans (a : Arr) (n : Nat) : List Span := (List.range n).map fun y => ⟨a, 32 * y, n⟩

/-- The first element of the span without a value. -/
def State.missingIn (s : State) (sp : Span) : Option (Arr × Nat) :=
  ((List.range sp.len).zip (s.row? sp.arr sp.start sp.len)).findSome? fun p =>
    match p.2 with
    | none => some (sp.arr, sp.start + p.1)
    | some _ => none

/-- The first element of the spans, in order, without a value. -/
def State.firstMissing (s : State) (spans : List Span) : Option (Arr × Nat) := spans.findSome? s.missingIn

/-! ### Completion of a command (60_exceptions.md R291) -/

/-- A command that passed its checks is done: `DONE` is set, the pending slot is emptied and with it `BUSY` cleared
(60_exceptions.md R291; 10_state.md R60). -/
def State.completeOk (s : State) : State :=
  { s with status := { s.status with done := true }, pending := none }

/-- What an error leaves in `STATUS`: the first error since `ERR` was cleared is recorded, a later one only sets
`ERR_MULTI` (60_exceptions.md R291, R293, R300). -/
def Status.recordError (st : Status) (code : ErrCode) : Status :=
  if st.err then { st with errMulti := true, done := true }
  else { st with err := true, errcode := code.number, done := true }

/-- A command that failed a check is done: the error is recorded with the command word `w`, and nothing else of the
state changes but `DONE` and the pending slot (60_exceptions.md R291, R295). This is all the block has in place of a
trap: nothing is vectored, saved or returned from (R299). -/
def State.completeError (s : State) (code : ErrCode) (w : Word) : State :=
  { s with
    status := s.status.recordError code
    errinfo := if s.status.err then s.errinfo else w
    pending := none }

/-- The write-1-to-clear bits of `STATUS` (10_state.md R34): bit 1 clears `DONE`; bit 2 clears `ERR`, `ERR_MULTI` and
`ERRCODE`, which re-arms the recording (60_exceptions.md R300); bit 3 clears `ERR_MULTI`. -/
def Status.writeOneToClear (st : Status) (v : Word) : Status where
  done := st.done && !v.getLsbD 1
  err := st.err && !v.getLsbD 2
  errMulti := st.errMulti && !v.getLsbD 2 && !v.getLsbD 3
  frameEnd := st.frameEnd
  errcode := if v.getLsbD 2 then 0#4 else st.errcode

end Sys2Proof.Machine
end

