-- ==== Sys2Proof/Machine/Operands.lean ====
section
/-! DEFINITION. The operands of the commands: component and size (00_scope.md R16), picture geometry and position
(10_state.md R41-R43, R55), QP and slice (41_quant.md R172), the working buffers, the pass types of the transforms
(40_transform.md R145). -/

namespace Sys2Proof.Machine

/-- The component a legal `C` field selects (30_encoding.md R113). `C` = 3 fails the component check of every command
that has the field, so it selects nothing that a command uses. -/
def compOf (c : BitVec 2) : Comp :=
  match c.toNat with
  | 0 => .y
  | 1 => .u
  | _ => .v

/-- `CU_CFG.CU_LOG2` (10_state.md R42). -/
def State.cuLog2 (s : State) : Nat := s.cfg.cuLog2.toNat

/-- `lg(c) = log2(n(c))` (00_scope.md R16): chroma is half the luma size. -/
def State.lgOf (s : State) : Comp → Nat
  | .y => s.cuLog2
  | .u => s.cuLog2 - 1
  | .v => s.cuLog2 - 1

/-- `n(c)`, the block size of the component (00_scope.md R16). -/
def State.sizeOf (s : State) (c : Comp) : Nat := 2 ^ s.lgOf c

/-- `PIC_SIZE.W` (10_state.md R41). -/
def State.picW (s : State) : Nat := (s.cfg.picSize.extractLsb' 0 16).toNat

/-- `PIC_SIZE.H` (10_state.md R41). -/
def State.picH (s : State) : Nat := (s.cfg.picSize.extractLsb' 16 16).toNat

/-- `CU_POS.COL`, the CU column `k` (10_state.md R43, R55). -/
def State.col (s : State) : Nat := (s.cuPos.extractLsb' 0 16).toNat

/-- `CU_POS.ROW`, the CU row `r` (10_state.md R43, R55). -/
def State.rowIx (s : State) : Nat := (s.cuPos.extractLsb' 16 16).toNat

/-- The value of `CU_POS` for a row and a column (10_state.md R43). -/
def posWord (row col : Nat) : Word := BitVec.ofNat 16 row ++ BitVec.ofNat 16 col

/-- `numCols = PIC_SIZE.W >> CU_LOG2` (10_state.md R55). -/
def State.numCols (s : State) : Nat := s.picW / 2 ^ s.cuLog2

/-- `numRows = PIC_SIZE.H >> CU_LOG2` (10_state.md R55). -/
def State.numRows (s : State) : Nat := s.picH / 2 ^ s.cuLog2

/-- `x0(c) = k · n(c)` (10_state.md R55). -/
def State.x0 (s : State) (c : Comp) : Nat := s.col * s.sizeOf c

/-- `CU_CFG.CU_LOG2 ∈ {2, 3, 4, 5}` (10_state.md R42). -/
def State.sizeLegal (s : State) : Bool := decide (2 ≤ s.cuLog2) && decide (s.cuLog2 ≤ 5)

/-- One dimension of a valid picture (10_state.md R41). -/
def dimLegal (lg d : Nat) : Bool := decide (2 ^ lg ≤ d) && decide (d ≤ 4096) && decide (d % 2 ^ lg = 0)

/-- The picture configuration is valid (10_state.md R41). -/
def State.pictureValid (s : State) : Bool :=
  s.sizeLegal && dimLegal s.cuLog2 s.picW && dimLegal s.cuLog2 s.picH

/-- `CU_POS` is inside the picture's grid of CUs (10_state.md R43). -/
def State.positionInside (s : State) : Bool := decide (s.col < s.numCols) && decide (s.rowIx < s.numRows)

/-- The QP of a command on the component (41_quant.md R172). -/
def State.qpOf (s : State) : Comp → Nat
  | .y => s.cfg.qpY.toNat
  | .u => s.cfg.qpC.toNat
  | .v => s.cfg.qpC.toNat

/-- A 1-D pass's matrix choice for the two passes of a transform (40_transform.md R145). -/
structure PassTypes where
  dstH : Bool
  dstV : Bool
  deriving DecidableEq, Repr

/-- The pass types (40_transform.md R145; 30_encoding.md R115): `TT` = 0 takes them from the DST masks for luma at
`n` = 4 and is DCT otherwise, 1 is DCT, 2 takes the explicit selectors. `TT` = 3 fails the `ILLEGAL_TT` check. -/
def State.passTypes (s : State) (c : Comp) (mode : BitVec 6) (tt : BitVec 2) (dsth dstv : Bool) : PassTypes :=
  match tt.toNat with
  | 0 =>
    if c = .y && s.sizeOf c = 4 then ⟨s.cfg.dstH.getLsbD mode.toNat, s.cfg.dstV.getLsbD mode.toNat⟩ else ⟨false, false⟩
  | 2 => ⟨dsth, dstv⟩
  | _ => ⟨false, false⟩

end Sys2Proof.Machine
end

