-- ==== Sys2Proof/Machine/Flags.lean ====
section
/-! DEFINITION. The computed flags: `CHECK` (60_exceptions.md R292), the `STATUS` word (10_state.md R34), the
interrupt output (60_exceptions.md R297), and the one way every command runs (R291). -/

namespace Sys2Proof

/-! ### Which commands make which check (60_exceptions.md R292) -/

/-- The `C` field of the commands that check the component (order 3). -/
def Instr.checkedComp : Instr → Option (BitVec 2)
  | .nop => none
  | .frameInit => none
  | .refbuild c _ => some c
  | .pred c _ => some c
  | .resid c => some c
  | .fdct c _ _ _ _ => some c
  | .quant c => some c
  | .dequant c => some c
  | .idct c _ _ _ _ => some c
  | .recon c => some c
  | .mpm => none
  | .histUpdate _ => none

/-- Order 4 is checked by every command except `NOP`. -/
def Instr.checksSize : Instr → Bool
  | .nop => false
  | .frameInit => true
  | .refbuild _ _ => true
  | .pred _ _ => true
  | .resid _ => true
  | .fdct _ _ _ _ _ => true
  | .quant _ => true
  | .dequant _ => true
  | .idct _ _ _ _ _ => true
  | .recon _ => true
  | .mpm => true
  | .histUpdate _ => true

/-- Order 5 is checked by `FRAME_INIT`, `REFBUILD`, `MPM` and `HIST_UPDATE`. -/
def Instr.checksPicture : Instr → Bool
  | .nop => false
  | .frameInit => true
  | .refbuild _ _ => true
  | .pred _ _ => false
  | .resid _ => false
  | .fdct _ _ _ _ _ => false
  | .quant _ => false
  | .dequant _ => false
  | .idct _ _ _ _ _ => false
  | .recon _ => false
  | .mpm => true
  | .histUpdate _ => true

/-- Order 6 is checked by `REFBUILD`, `MPM` and `HIST_UPDATE`. -/
def Instr.checksPosition : Instr → Bool
  | .nop => false
  | .frameInit => false
  | .refbuild _ _ => true
  | .pred _ _ => false
  | .resid _ => false
  | .fdct _ _ _ _ _ => false
  | .quant _ => false
  | .dequant _ => false
  | .idct _ _ _ _ _ => false
  | .recon _ => false
  | .mpm => true
  | .histUpdate _ => true

/-- Order 7's condition for `PRED` and the automatic transforms (30_encoding.md R114). -/
def badIntraMode (c : BitVec 2) (mode : BitVec 6) : Bool :=
  decide (35 < mode.toNat) || (mode == 35#6 && c == 0#2)

/-- Order 7: the mode is illegal for the command (`PRED`; `FDCT` and `IDCT` with `TT` = 0; `HIST_UPDATE`). -/
def Instr.modeIllegal : Instr → Bool
  | .nop => false
  | .frameInit => false
  | .refbuild _ _ => false
  | .pred c mode => badIntraMode c mode
  | .resid _ => false
  | .fdct c mode tt _ _ => tt == 0#2 && badIntraMode c mode
  | .quant _ => false
  | .dequant _ => false
  | .idct c mode tt _ _ => tt == 0#2 && badIntraMode c mode
  | .recon _ => false
  | .mpm => false
  | .histUpdate mode => decide (34 < mode.toNat)

end Sys2Proof

namespace Sys2Proof.Machine

/-! ### CHECK (60_exceptions.md R292), orders 2 to 10 (order 1 is the decoder's) -/

/-- Order 3's condition: `C` = 3, or a chroma component while `CU_LOG2` = 2 (30_encoding.md R113). -/
def State.badComponent (s : State) (c : BitVec 2) : Bool :=
  c == 3#2 || (c != 0#2 && s.cfg.cuLog2 == 2#3)

/-- Order 8's condition (30_encoding.md R115). -/
def State.badTransformType (s : State) (c : BitVec 2) (tt : BitVec 2) (dsth dstv : Bool) : Bool :=
  tt == 3#2 || (tt == 2#2 && (dsth || dstv) && decide (s.sizeOf (compOf c) ≠ 4))

/-- Order 9's condition (41_quant.md R177). -/
def State.badQp (s : State) (c : BitVec 2) : Bool := decide (51 < s.qpOf (compOf c))

/-- Order 8, for `FDCT` and `IDCT`. -/
def State.ttIllegal (s : State) : Instr → Bool
  | .nop => false
  | .frameInit => false
  | .refbuild _ _ => false
  | .pred _ _ => false
  | .resid _ => false
  | .fdct c _ tt dsth dstv => s.badTransformType c tt dsth dstv
  | .quant _ => false
  | .dequant _ => false
  | .idct c _ tt dsth dstv => s.badTransformType c tt dsth dstv
  | .recon _ => false
  | .mpm => false
  | .histUpdate _ => false

/-- Order 9, for `QUANT` and `DEQUANT`. -/
def State.qpIllegal (s : State) : Instr → Bool
  | .nop => false
  | .frameInit => false
  | .refbuild _ _ => false
  | .pred _ _ => false
  | .resid _ => false
  | .fdct _ _ _ _ _ => false
  | .quant c => s.badQp c
  | .dequant c => s.badQp c
  | .idct _ _ _ _ _ => false
  | .recon _ => false
  | .mpm => false
  | .histUpdate _ => false

/-- Order 10, for `QUANT` (10_state.md R39). -/
def State.sliceIllegal (s : State) : Instr → Bool
  | .nop => false
  | .frameInit => false
  | .refbuild _ _ => false
  | .pred _ _ => false
  | .resid _ => false
  | .fdct _ _ _ _ _ => false
  | .quant _ => s.cfg.slice == 3#2
  | .dequant _ => false
  | .idct _ _ _ _ _ => false
  | .recon _ => false
  | .mpm => false
  | .histUpdate _ => false

/-- `CHECK` (60_exceptions.md R292): the first check that fails, in the table's order. Order 1 and order 2 have been
made by the decoder for every word it accepts; order 2 is made again here, so that a term of `Instr` that no word
decodes to completes with the error its word completes with (assumption 12). -/
def State.check (s : State) (i : Instr) : Option ErrCode :=
  if !i.wellFormed then some .reservedField
  else if i.checkedComp.any s.badComponent then some .illegalComponent
  else if i.checksSize && !s.sizeLegal then some .badSize
  else if i.checksPicture && !s.pictureValid then some .badPicture
  else if i.checksPosition && !s.positionInside then some .badPosition
  else if i.modeIllegal then some .illegalMode
  else if s.ttIllegal i then some .illegalTt
  else if s.qpIllegal i then some .badQp
  else if s.sliceIllegal i then some .badSlice
  else none

/-! ### How every command runs -/

/-- The execution of a command (60_exceptions.md R291): a failed check completes it with that error and nothing else
is written; otherwise, if an element it computes from has no value the model faults (00_scope.md R14); otherwise all
of its writes are performed and it completes. `reads` are the elements the command computes from. -/
def runCommand (i : Instr) (reads : List Span) (effect : State → State) (s : State) : Answer :=
  match s.check i with
  | some code => .next (s.completeError code (encode i))
  | none =>
    match s.firstMissing reads with
    | some (a, e) => .fault (.noValue a e)
    | none => .next (effect s).completeOk

/-! ### Status and interrupt -/

/-- `STATUS.BUSY` (10_state.md R34, R60): a command is pending. -/
def State.busy (s : State) : Bool := s.pending.isSome

/-- The `STATUS` word (10_state.md R34): `ERRCODE` in bits 11:8, `FRAME_END`, `ERR_MULTI`, `ERR`, `DONE`, `BUSY` in
bits 4 to 0, the others 0. -/
def State.statusWord (s : State) : Word :=
  0#20 ++ s.status.errcode ++ 0#3 ++ BitVec.ofBool s.status.frameEnd ++ BitVec.ofBool s.status.errMulti
    ++ BitVec.ofBool s.status.err ++ BitVec.ofBool s.status.done ++ BitVec.ofBool s.busy

/-- The interrupt output (60_exceptions.md R297), a level. -/
def State.irq (s : State) : Bool := s.cfg.irqEn && (s.status.done || s.status.err)

end Sys2Proof.Machine
end

