-- ==== Sys2Proof/Machine/History.lean ====
section
/-! DEFINITION. The mode deriver `MPM` (44_mpm_control.md R260-R263), `FRAME_INIT` (R270) and `HIST_UPDATE`
(R266-R273). -/

namespace Sys2Proof.Machine

/-! ### MPM -/

/-- A mode-history entry as the deriver takes it (44_mpm_control.md R260, R262): above 34 it is DC. -/
def modeOrDc (m : Nat) : Nat := if m ≤ 34 then m else 1

/-- `MPMSET(A, B)` (44_mpm_control.md R260). -/
def mpmSet (left top : Nat) : Nat × Nat × Nat :=
  let a := modeOrDc left
  let b := modeOrDc top
  if a = b then
    if 1 < a then (a, (a + 29) % 32 + 2, (a - 1) % 32 + 2) else (0, 1, 26)
  else (a, b, if a ≠ 0 && b ≠ 0 then 0 else if a + b < 2 then 26 else 1)

/-- What `MPM` reads in storage (44_mpm_control.md R261). -/
def mpmReads (s : State) : List Span := [oneElem .leftMode 0, oneElem .topMode s.col]

/-- The `MPM` register after `MPM` (44_mpm_control.md R261; 10_state.md R46). -/
def State.mpmResult (s : State) : MpmReg :=
  let m := mpmSet (s.val .leftMode 0).toNat (s.val .topMode s.col).toNat
  ⟨BitVec.ofNat 6 m.1, BitVec.ofNat 6 m.2.1, BitVec.ofNat 6 m.2.2⟩

/-- The writes of `MPM` (44_mpm_control.md R261): the `MPM` register only. -/
def mpmEffect (s : State) : State := { s with res := { s.res with mpm := some s.mpmResult } }

/-- `MPM` (44_mpm_control.md R261). -/
def execMpm (s : State) : Answer := runCommand .mpm (mpmReads s) mpmEffect s

/-! ### FRAME_INIT -/

/-- The sentinel INVALID (10_state.md R49). -/
def invalidMode : Int := 0xFF

/-- What `FRAME_INIT` writes in storage (44_mpm_control.md R270): both mode histories, whole. -/
def frameInitWrites : List Span := [⟨.topMode, 0, Arr.topMode.size⟩, ⟨.leftMode, 0, Arr.leftMode.size⟩]

/-- The writes of `FRAME_INIT` (44_mpm_control.md R270). -/
def frameInitEffect (s : State) : State :=
  let t := s.putRow .topMode 0 (List.replicate Arr.topMode.size invalidMode)
  let t := t.putRow .leftMode 0 (List.replicate Arr.leftMode.size invalidMode)
  { t with cuPos := 0#32, status := { s.status with frameEnd := false } }

/-- `FRAME_INIT` (44_mpm_control.md R270). -/
def execFrameInit (s : State) : Answer := runCommand .frameInit [] frameInitEffect s

/-! ### HIST_UPDATE -/

/-- The components whose histories are updated (44_mpm_control.md R266): luma only at `CU_LOG2` = 2. -/
def State.updatedComps (s : State) : List Comp := if s.cuLog2 = 2 then [.y] else [.y, .u, .v]

/-- The corner save of one component, then its pixel histories (44_mpm_control.md R268, R267), all from the state `s`
before the command. Elements are copied, and with them the lack of a value (R268). -/
def copyHistories (s : State) (t : State) (c : Comp) : State :=
  let n := s.sizeOf c
  let t := t.putRow? (.corner c) s.col [s.elem? (.topPix c) (s.x0 c + n - 1)]
  let t := t.putRow? (.topPix c) (s.x0 c) (s.row? (.buf .reco c) (32 * (n - 1)) n)
  t.putRow? (.leftPix c) 0 ((List.range n).map fun i => s.elem? (.buf .reco c) (32 * i + (n - 1)))

/-- `RECO_0[row][col]`. -/
def State.recoLuma (s : State) (row col : Nat) : Int := s.val (.buf .reco .y) (32 * row + col)

/-- The LM top history's new elements (44_mpm_control.md R272): the two bottom luma rows averaged at even columns. -/
def State.lmTopRow (s : State) : List Int :=
  let n := s.sizeOf .y
  (List.range (s.sizeOf .u)).map fun j => asr (s.recoLuma (n - 2) (2 * j) + s.recoLuma (n - 1) (2 * j)) 1

/-- The LM left history's new elements (44_mpm_control.md R272): luma column `N-2`, averaged over row pairs. -/
def State.lmLeftCol (s : State) : List Int :=
  let n := s.sizeOf .y
  (List.range (s.sizeOf .u)).map fun i => asr (s.recoLuma (2 * i) (n - 2) + s.recoLuma (2 * i + 1) (n - 2)) 1

/-- The LM histories (44_mpm_control.md R272), when `CU_LOG2` ≥ 3. -/
def updateLm (s : State) (t : State) : State :=
  if s.cuLog2 = 2 then t
  else (t.putRow .lmTop (s.col * s.sizeOf .u) s.lmTopRow).putRow .lmLeft 0 s.lmLeftCol

/-- The update is that of the last CU of its row (44_mpm_control.md R273). -/
def State.rowEnds (s : State) : Bool := decide (s.col + 1 = s.numCols)

/-- The mode histories (44_mpm_control.md R269, R273): the CU's mode in both, but the sentinel on the left when the
next CU starts a row. -/
def updateModes (mode : BitVec 6) (s : State) (t : State) : State :=
  (t.putRow .topMode s.col [(mode.toNat : Int)]).putRow .leftMode 0
    [if s.rowEnds then invalidMode else (mode.toNat : Int)]

/-- The advance (44_mpm_control.md R273): the next CU in raster order, and `FRAME_END` after the last. -/
def advance (s : State) (t : State) : State :=
  if s.rowEnds then
    { t with
      cuPos := posWord (s.rowIx + 1) 0
      status := { t.status with frameEnd := t.status.frameEnd || decide (s.rowIx + 1 = s.numRows) } }
  else { t with cuPos := posWord s.rowIx (s.col + 1) }

/-- What `HIST_UPDATE` computes from (44_mpm_control.md R266, R272): the luma of the LM histories. What it only copies
may be without a value. -/
def histUpdateReads (s : State) : List Span :=
  if s.cuLog2 = 2 then []
  else
    let n := s.sizeOf .y
    ((List.range (s.sizeOf .u)).map fun j => oneElem (.buf .reco .y) (32 * (n - 2) + 2 * j))
      ++ ((List.range (s.sizeOf .u)).map fun j => oneElem (.buf .reco .y) (32 * (n - 1) + 2 * j))
      ++ ((List.range n).map fun i => oneElem (.buf .reco .y) (32 * i + (n - 2)))

/-- What `HIST_UPDATE` writes in storage for one component (44_mpm_control.md R267, R268). -/
def State.historyWrites (s : State) (c : Comp) : List Span :=
  [⟨.corner c, s.col, 1⟩, ⟨.topPix c, s.x0 c, s.sizeOf c⟩, ⟨.leftPix c, 0, s.sizeOf c⟩]

/-- What `HIST_UPDATE` writes in storage (44_mpm_control.md R266). -/
def histUpdateWrites (s : State) : List Span :=
  s.updatedComps.flatMap s.historyWrites
    ++ (if s.cuLog2 = 2 then [] else [⟨.lmTop, s.col * s.sizeOf .u, s.sizeOf .u⟩, ⟨.lmLeft, 0, s.sizeOf .u⟩])
    ++ [⟨.topMode, s.col, 1⟩, ⟨.leftMode, 0, 1⟩]

/-- The writes of `HIST_UPDATE` (44_mpm_control.md R266). -/
def histUpdateEffect (mode : BitVec 6) (s : State) : State :=
  advance s (updateModes mode s (updateLm s (s.updatedComps.foldl (copyHistories s) s)))

/-- `HIST_UPDATE` (44_mpm_control.md R266). -/
def execHistUpdate (mode : BitVec 6) (s : State) : Answer :=
  runCommand (.histUpdate mode) (histUpdateReads s) (histUpdateEffect mode) s

end Sys2Proof.Machine
end

