-- ==== Sys2Proof/Machine/Pipeline.lean ====
section
/-! DEFINITION. The two steps that join the components, `RESID` and `RECON` (44_mpm_control.md R264, R265), and
`NOP` (R274). -/

namespace Sys2Proof.Machine

/-- `NOP` (44_mpm_control.md R274): nothing but its completion. -/
def execNop (s : State) : Answer := runCommand .nop [] (fun t => t) s

/-- What `RESID` reads (44_mpm_control.md R264). -/
def residReads (c : BitVec 2) (s : State) : List Span :=
  blockSpans (.buf .org (compOf c)) (s.sizeOf (compOf c)) ++ blockSpans (.buf .pred (compOf c)) (s.sizeOf (compOf c))

/-- What `RESID` writes: `RESI_c[y][x]` for `y, x < n`. -/
def residWrites (c : BitVec 2) (s : State) : List Span := blockSpans (.buf .resi (compOf c)) (s.sizeOf (compOf c))

/-- The writes of `RESID` (44_mpm_control.md R264): original minus prediction, exact. -/
def residEffect (c : BitVec 2) (s : State) : State :=
  let k := compOf c
  let n := s.sizeOf k
  let org := s.block (.buf .org k) n
  let pred := s.block (.buf .pred k) n
  s.putBlock (.buf .resi k) (Block.tabulate n n fun y x => org.get y x - pred.get y x)

/-- `RESID` (44_mpm_control.md R264). -/
def execResid (c : BitVec 2) (s : State) : Answer := runCommand (.resid c) (residReads c s) (residEffect c) s

/-- What `RECON` reads (44_mpm_control.md R265). -/
def reconReads (c : BitVec 2) (s : State) : List Span :=
  blockSpans (.buf .pred (compOf c)) (s.sizeOf (compOf c)) ++ blockSpans (.buf .rres (compOf c)) (s.sizeOf (compOf c))

/-- What `RECON` writes: `RECO_c[y][x]` for `y, x < n`. -/
def reconWrites (c : BitVec 2) (s : State) : List Span := blockSpans (.buf .reco (compOf c)) (s.sizeOf (compOf c))

/-- The writes of `RECON` (44_mpm_control.md R265): prediction plus residual, clipped to the sample range. -/
def reconEffect (c : BitVec 2) (s : State) : State :=
  let k := compOf c
  let n := s.sizeOf k
  let pred := s.block (.buf .pred k) n
  let rres := s.block (.buf .rres k) n
  s.putBlock (.buf .reco k) (Block.tabulate n n fun y x => clip8 (pred.get y x + rres.get y x))

/-- `RECON` (44_mpm_control.md R265). -/
def execRecon (c : BitVec 2) (s : State) : Answer := runCommand (.recon c) (reconReads c s) (reconEffect c) s

end Sys2Proof.Machine
end

