-- ==== Sys2Proof/Machine/Predict.lean ====
section
/-! DEFINITION. The intra predictor: `PRED` in its planar, DC, angular and linear-model modes (43_intrapred.md), with
the build parameters of 00_scope.md R7 as an argument. -/

namespace Sys2Proof.Machine

/-! ### Planar and DC -/

/-- `PLANAR(R, n)` (43_intrapred.md R223). -/
def planar (r : List Int) (n lg : Nat) : Block :=
  Block.tabulate n n fun y x =>
    asr (((n : Int) - 1 - x) * leftSample r n y + (x + 1) * topSample r n n
      + ((n : Int) - 1 - y) * topSample r n x + (y + 1) * leftSample r n n + n) (lg + 1)

/-- `dc` (43_intrapred.md R226). -/
def dcValue (r : List Int) (n lg : Nat) : Int :=
  asr (sumTo n (topSample r n) + sumTo n (leftSample r n) + n) (lg + 1)

/-- The luma edge filters apply (43_intrapred.md R226, R232). -/
def edgeFiltered (p : BuildParams) (c : Comp) (lg : Nat) : Bool := c = .y && decide (lg ≤ p.edgeFiltMaxLog2)

/-- `DC(R, n, c)` with its edge filter (43_intrapred.md R226, R227). -/
def dcPredict (p : BuildParams) (r : List Int) (n lg : Nat) (c : Comp) : Block :=
  let dc := dcValue r n lg
  Block.tabulate n n fun y x =>
    if !edgeFiltered p c lg then dc
    else if y = 0 && x = 0 then asr (leftSample r n 0 + 2 * dc + topSample r n 0 + 2) 2
    else if y = 0 then asr (topSample r n x + 3 * dc + 2) 2
    else if x = 0 then asr (leftSample r n y + 3 * dc + 2) 2
    else dc

/-! ### Angular -/

/-- `ANG[m]` for `m = 2..34` (43_intrapred.md R224), in that order. -/
def angleTable : List Int :=
  [32, 26, 21, 17, 13, 9, 5, 2, 0, -2, -5, -9, -13, -17, -21, -26, -32, -26, -21, -17, -13, -9, -5, -2, 0, 2, 5, 9, 13,
    17, 21, 26, 32]

/-- `ANG[m]` (43_intrapred.md R224). -/
def angle (m : Nat) : Int := angleTable.getD (m - 2) 0

/-- `INVANG[a]` of a negative angle (43_intrapred.md R225). -/
def invAngle (a : Int) : Int :=
  if a = -2 then -4096
  else if a = -5 then -1638
  else if a = -9 then -910
  else if a = -13 then -630
  else if a = -17 then -482
  else if a = -21 then -390
  else if a = -26 then -315
  else -256

/-- The mode is vertical-dominant (43_intrapred.md R228). -/
def isVertical (m : Nat) : Bool := decide (18 ≤ m)

/-- `main[i]` (43_intrapred.md R228): `p(-1 + i, -1)` for a vertical mode, `p(-1, -1 + i)` for a horizontal one; in
border indices `2n + i` and `2n - i`. -/
def mainSample (r : List Int) (n m i : Nat) : Int :=
  if isVertical m then r.getD (2 * n + i) 0 else r.getD (2 * n - i) 0

/-- `side[i]` (43_intrapred.md R228). -/
def sideSample (r : List Int) (n m i : Nat) : Int :=
  if isVertical m then r.getD (2 * n - i) 0 else r.getD (2 * n + i) 0

/-- `ref[i]` (43_intrapred.md R228, R229): `main` from 0 on, and for a negative angle the backward extension below 0,
through the inverse angle. No index below 0 is read where R229 extends nothing (R230). -/
def refSample (r : List Int) (n m : Nat) (i : Int) : Int :=
  if 0 ≤ i then mainSample r n m i.toNat
  else sideSample r n m (asr (i * invAngle (angle m) + 128) 8).toNat

/-- `Q[r][s]` (43_intrapred.md R230): projection and 1/32 interpolation along the direction. -/
def angularSample (r : List Int) (n m along across : Nat) : Int :=
  let pos := ((along : Int) + 1) * angle m
  let idx := asr pos 5
  let f := pos % 32
  if f ≠ 0 then
    asr ((32 - f) * refSample r n m (across + idx + 1) + f * refSample r n m (across + idx + 2) + 16) 5
  else refSample r n m (across + idx + 1)

/-- `ANGULAR(R, n, m, c)` (43_intrapred.md R230, R231), with the boundary filter of modes 26 and 10 (R232). -/
def angularPredict (p : BuildParams) (r : List Int) (n lg m : Nat) (c : Comp) : Block :=
  Block.tabulate n n fun y x =>
    if edgeFiltered p c lg && m = 26 && x = 0 then
      clip8 (topSample r n 0 + asr (leftSample r n y - cornerSample r n) 1)
    else if edgeFiltered p c lg && m = 10 && y = 0 then
      clip8 (leftSample r n 0 + asr (topSample r n x - cornerSample r n) 1)
    else if isVertical m then angularSample r n m y x
    else angularSample r n m x y

/-! ### Linear-model chroma -/

/-- The current CU's luma at a chroma position (43_intrapred.md R246): `d`. -/
def State.lmLuma (s : State) (y x : Nat) : Int :=
  asr (s.val (.buf .reco .y) (32 * (2 * y) + 2 * x) + s.val (.buf .reco .y) (32 * (2 * y + 1) + 2 * x)) 1

/-- The LM prediction (43_intrapred.md R246). -/
def State.lmPredict (s : State) (n : Nat) (abs : Int × Int × Nat) : Block :=
  Block.tabulate n n fun y x => clip8 (asr (abs.1 * s.lmLuma y x) abs.2.2 + abs.2.1)

/-! ### The command -/

/-- `FILTERED(c, lg, m)` (42_refbuild.md R198): luma only, and not for `m` = 35. -/
def usesFiltered (p : BuildParams) (c : Comp) (lg m : Nat) : Bool := c = .y && decide (m ≤ 34) && p.intraFilter lg m

/-- The border array a `PRED` reads (43_intrapred.md R221). -/
def borderArr (p : BuildParams) (c : Comp) (lg m : Nat) : Arr := if usesFiltered p c lg m then .reff0 else .ref c

/-- The reconstructed luma an LM `PRED` reads (43_intrapred.md R220): `RECO_0[0..2n-1][0..2n-1]`, the odd columns, which
R246 computes nothing from, included (assumption 6). -/
def lmRecoReads (n : Nat) : List Span := blockSpans (.buf .reco .y) (2 * n)

/-- What `PRED` reads (43_intrapred.md R220; assumption 6): the whole border, and for LM `LMREF` and the luma. -/
def predReads (p : BuildParams) (c : BitVec 2) (mode : BitVec 6) (s : State) : List Span :=
  let k := compOf c
  let n := s.sizeOf k
  ⟨borderArr p k (s.lgOf k) mode.toNat, 0, 4 * n + 1⟩
    :: (if mode.toNat ≤ 34 then [] else ⟨.lmref, 0, 2 * n⟩ :: lmRecoReads n)

/-- What `PRED` writes in storage: `PRED_c[y][x]` for `y, x < n`. -/
def predWrites (c : BitVec 2) (s : State) : List Span := blockSpans (.buf .pred (compOf c)) (s.sizeOf (compOf c))

/-- The prediction of a mode other than LM (43_intrapred.md R220, R222). -/
def predictBlock (p : BuildParams) (r : List Int) (n lg m : Nat) (c : Comp) : Block :=
  match m with
  | 0 => planar r n lg
  | 1 => dcPredict p r n lg c
  | m => angularPredict p r n lg m c

/-- The writes of an LM `PRED` (43_intrapred.md R220, R246, R247). DESIGN CHOICE (assumption 23): of a fit of another build
that is outside the registers, `LM_A` and `LM_B` keep the low 32 bits and `LM_SHIFT` the low 4, and the prediction uses the
whole of it. -/
def lmPredEffect (p : BuildParams) (c : BitVec 2) (r : List Int) (s : State) : State :=
  let k := compOf c
  let n := s.sizeOf k
  let abs := p.lmParams n (s.row .lmref 0 (2 * n)) r
  let t := s.putBlock (.buf .pred k) (s.lmPredict n abs)
  { t with
    res :=
      { s.res with
        lmA := some (BitVec.ofInt 32 abs.1)
        lmB := some (BitVec.ofInt 32 abs.2.1)
        lmShift := some (BitVec.ofNat 4 abs.2.2) } }

/-- The writes of `PRED` (43_intrapred.md R220) on a block with the given build parameters. -/
def predEffect (p : BuildParams) (c : BitVec 2) (mode : BitVec 6) (s : State) : State :=
  let k := compOf c
  let n := s.sizeOf k
  let r := s.row (borderArr p k (s.lgOf k) mode.toNat) 0 (4 * n + 1)
  if mode.toNat ≤ 34 then s.putBlock (.buf .pred k) (predictBlock p r n (s.lgOf k) mode.toNat k)
  else lmPredEffect p c r s

/-- `PRED` (43_intrapred.md R220) on a block with the given build parameters. -/
def execPredWith (p : BuildParams) (c : BitVec 2) (mode : BitVec 6) (s : State) : Answer :=
  runCommand (.pred c mode) (predReads p c mode s) (predEffect p c mode) s

/-- `PRED` (43_intrapred.md R220) on the default build (assumption 8). -/
def execPred (c : BitVec 2) (mode : BitVec 6) (s : State) : Answer := execPredWith defaultBuild c mode s

end Sys2Proof.Machine
end

