-- ==== Sys2Proof/Machine/Quant.lean ====
section
/-! DEFINITION. The quantizer: `QUANT` and `DEQUANT` (41_quant.md). -/

namespace Sys2Proof.Machine

/-- `QS[i]` (41_quant.md R170). -/
def quantScale : List Int := [26214, 23302, 20560, 18396, 16384, 14564]

/-- `IQS[i]` (41_quant.md R171). -/
def invQuantScale : List Int := [40, 45, 51, 57, 64, 72]

/-- `qbits = 14 + qp / 6 + (15 - 8 - lg)` (41_quant.md R173). -/
def quantBits (qp lg : Nat) : Nat := 14 + qp / 6 + (15 - 8 - lg)

/-- The rounding offset of the slice type, scaled into the shift (41_quant.md R173, R179). -/
def quantAdd (slice : BitVec 2) (qp lg : Nat) : Int :=
  shl (if slice = 2#2 then 171 else 85) (quantBits qp lg - 9)

/-- `lvl` of one coefficient (41_quant.md R173), never negative. -/
def quantLevel (v : Int) (slice : BitVec 2) (qp lg : Nat) : Int :=
  asr ((v.natAbs : Int) * quantScale.getD (qp % 6) 0 + quantAdd slice qp lg) (quantBits qp lg)

/-- `Q[v][u]` of `QUANTIZE` (41_quant.md R173): the level with the coefficient's sign. -/
def quantize (y : Block) (n : Nat) (slice : BitVec 2) (qp lg : Nat) : Block :=
  Block.tabulate n n fun v u =>
    sat16 (if y.get v u < 0 then -quantLevel (y.get v u) slice qp lg else quantLevel (y.get v u) slice qp lg)

/-- `sum` of `QUANTIZE` (41_quant.md R173, R175). -/
def quantSum (y : Block) (n : Nat) (slice : BitVec 2) (qp lg : Nat) : Int :=
  sumTo n fun v => sumTo n fun u => quantLevel (y.get v u) slice qp lg

/-- Sets bit `c` of `CBF` (10_state.md R45); the other bits are unchanged. -/
def Results.setCbf (r : Results) (c : Comp) (b : Option Bool) : Results :=
  match c with
  | .y => { r with cbfY := b }
  | .u => { r with cbfU := b }
  | .v => { r with cbfV := b }

/-- What `QUANT` reads: `COEF_c[v][u]` for `v, u < n` (41_quant.md R174). -/
def quantReads (c : BitVec 2) (s : State) : List Span := blockSpans (.buf .coef (compOf c)) (s.sizeOf (compOf c))

/-- What `QUANT` writes in storage: `QCOEF_c[v][u]` for `v, u < n`. -/
def quantWrites (c : BitVec 2) (s : State) : List Span := blockSpans (.buf .qcoef (compOf c)) (s.sizeOf (compOf c))

/-- The writes of `QUANT` (41_quant.md R174, R175): the levels, `NZSUM`, and bit `c` of `CBF`. -/
def quantEffect (c : BitVec 2) (s : State) : State :=
  let k := compOf c
  let n := s.sizeOf k
  let coef := s.block (.buf .coef k) n
  let sum := quantSum coef n s.cfg.slice (s.qpOf k) (s.lgOf k)
  let t := s.putBlock (.buf .qcoef k) (quantize coef n s.cfg.slice (s.qpOf k) (s.lgOf k))
  { t with res := { s.res with nzsum := some (BitVec.ofInt 32 sum) }.setCbf k (some (decide (sum ≠ 0))) }

/-- `QUANT` (41_quant.md R174). -/
def execQuant (c : BitVec 2) (s : State) : Answer := runCommand (.quant c) (quantReads c s) (quantEffect c) s

/-- `shift = lg - 1` (41_quant.md R176). -/
def dequantShift (lg : Nat) : Nat := 20 - 14 - (15 - 8 - lg)

/-- `D[v][u]` of `DEQUANTIZE` for one level (41_quant.md R176). -/
def dequantLevel (q : Int) (qp lg : Nat) : Int :=
  sat16 (asr (sat16 q * shl (invQuantScale.getD (qp % 6) 0) (qp / 6) + shl 1 (dequantShift lg - 1)) (dequantShift lg))

/-- `DEQUANTIZE(Q, n, qp)` (41_quant.md R176). -/
def dequantize (q : Block) (n qp lg : Nat) : Block := Block.tabulate n n fun v u => dequantLevel (q.get v u) qp lg

/-- What `DEQUANT` reads: `QCOEF_c[v][u]` for `v, u < n` (41_quant.md R178). -/
def dequantReads (c : BitVec 2) (s : State) : List Span := blockSpans (.buf .qcoef (compOf c)) (s.sizeOf (compOf c))

/-- What `DEQUANT` writes: `DQ_c[v][u]` for `v, u < n`. -/
def dequantWrites (c : BitVec 2) (s : State) : List Span := blockSpans (.buf .dq (compOf c)) (s.sizeOf (compOf c))

/-- The writes of `DEQUANT` (41_quant.md R178). -/
def dequantEffect (c : BitVec 2) (s : State) : State :=
  let k := compOf c
  let n := s.sizeOf k
  s.putBlock (.buf .dq k) (dequantize (s.block (.buf .qcoef k) n) n (s.qpOf k) (s.lgOf k))

/-- `DEQUANT` (41_quant.md R178). -/
def execDequant (c : BitVec 2) (s : State) : Answer := runCommand (.dequant c) (dequantReads c s) (dequantEffect c) s

end Sys2Proof.Machine
end

