-- ==== Sys2Proof/Machine/RefBuild.lean ====
section
/-! DEFINITION. The reference-sample builder: `REFBUILD` (42_refbuild.md). -/

namespace Sys2Proof.Machine

/-- The five availability flags (42_refbuild.md R190). -/
structure Avail where
  lb : Bool
  l : Bool
  tl : Bool
  t : Bool
  tr : Bool
  deriving DecidableEq, Repr

/-- The flags of a register in the layout of 10_state.md R44. -/
def Avail.ofBits (b : BitVec 5) : Avail where
  lb := b.getLsbD 0
  l := b.getLsbD 1
  tl := b.getLsbD 2
  t := b.getLsbD 3
  tr := b.getLsbD 4

/-- `{TR, T, TL, L, LB}`, bits 4..0 (42_refbuild.md R200, R202). -/
def Avail.bits (f : Avail) : BitVec 5 :=
  BitVec.ofBool f.tr ++ BitVec.ofBool f.t ++ BitVec.ofBool f.tl ++ BitVec.ofBool f.l ++ BitVec.ofBool f.lb

/-- `valid(m)` of a mode-history entry (00_scope.md R12; 10_state.md R49). -/
def modeValid (m : Int) : Bool := decide (m ≤ 34)

/-- The flags from the mode histories (42_refbuild.md R191). -/
def State.historyFlags (s : State) : Avail :=
  let l := modeValid (s.val .leftMode 0)
  let t := modeValid (s.val .topMode s.col)
  { lb := modeValid (s.val .leftMode 1)
    l := l
    tl := l && t
    t := t
    tr := modeValid (s.val .topMode (s.col + 1)) }

/-- Forced unavailability (42_refbuild.md R192): no top-left in column 0, no segment outside `TOP_PIX_c`. -/
def State.forceFlags (s : State) (c : Comp) (f : Avail) : Avail :=
  { f with
    tl := f.tl && decide (s.col ≠ 0)
    t := f.t && decide (s.x0 c + s.sizeOf c ≤ (Arr.topPix c).size)
    tr := f.tr && decide (s.x0 c + 2 * s.sizeOf c ≤ (Arr.topPix c).size) }

/-- The effective flags of a `REFBUILD` (42_refbuild.md R191-R193, R202). -/
def State.effectiveFlags (s : State) (c : Comp) (aovr : Bool) : Avail :=
  s.forceFlags c (if aovr then Avail.ofBits s.cfg.availOvr else s.historyFlags)

/-- The elements of a segment: those of the history when it is available, and otherwise only its length counts
(42_refbuild.md R194: "Elements of unavailable segments are not read"). -/
def segment (avail : Bool) (vals : List Int) (len : Nat) : Bool × List Int :=
  if avail then (true, vals) else (false, List.replicate len 0)

/-- The five segments of the border in array order (42_refbuild.md R190, R194). -/
def State.borderSegments (s : State) (c : Comp) (f : Avail) : List (Bool × List Int) :=
  let n := s.sizeOf c
  [ segment f.lb (s.row (.leftPix c) n n).reverse n,
    segment f.l (s.row (.leftPix c) 0 n).reverse n,
    segment f.tl (s.row (.corner c) (s.col - 1) 1) 1,
    segment f.t (s.row (.topPix c) (s.x0 c) n) n,
    segment f.tr (s.row (.topPix c) (s.x0 c + n) n) n ]

/-- Copies the available segments and fills every other one with the value before it, `last` at the start. -/
def fillSegments : Int → List (Bool × List Int) → List Int
  | _, [] => []
  | last, (true, vals) :: rest => vals ++ fillSegments (vals.getLastD last) rest
  | last, (false, vals) :: rest => List.replicate vals.length last ++ fillSegments last rest

/-- The first element of the first available segment, 128 (0x80) when there is none: what the segments before the
first available one are filled with (42_refbuild.md R195). -/
def fillSeed : List (Bool × List Int) → Int
  | [] => 128
  | (true, vals) :: rest => vals.headD (fillSeed rest)
  | (false, _) :: rest => fillSeed rest

/-- Substitution (42_refbuild.md R195): all 128 with no available segment; otherwise back-fill before the first
available segment with its first element, then fill each unavailable segment from the element before it. -/
def substitute (segs : List (Bool × List Int)) : List Int := fillSegments (fillSeed segs) segs

/-- The border `R[0..4n]` (42_refbuild.md R194, R195). -/
def State.border (s : State) (c : Comp) (f : Avail) : List Int := substitute (s.borderSegments c f)

/-- The filtered border `F[0..4n]` (42_refbuild.md R196). -/
def smooth (r : List Int) (n : Nat) : List Int :=
  (List.range (4 * n + 1)).map fun i =>
    if i = 0 || i = 4 * n then r.getD i 0
    else asr (r.getD (i - 1) 0 + 2 * r.getD i 0 + r.getD (i + 1) 0 + 2) 2

/-- The LM luma border `M[0..2n-1]` (42_refbuild.md R197). -/
def State.lmBorder (s : State) (c : Comp) (f : Avail) : List Int :=
  let n := s.sizeOf c
  substitute [ segment f.l (s.row .lmLeft 0 n).reverse n, segment f.t (s.row .lmTop (s.x0 c) n) n ]

/-- The mode-history entries a `REFBUILD` without override reads (42_refbuild.md R191, R200). -/
def State.flagReads (s : State) (aovr : Bool) : List Span :=
  if aovr then [] else [⟨.leftMode, 0, 2⟩, ⟨.topMode, s.col, 2⟩]

/-- The history elements of the available segments (42_refbuild.md R194, R197). -/
def State.segmentReads (s : State) (c : Comp) (f : Avail) : List Span :=
  let n := s.sizeOf c
  (if f.lb then [⟨.leftPix c, n, n⟩] else [])
    ++ (if f.l then [⟨.leftPix c, 0, n⟩] else [])
    ++ (if f.tl then [⟨.corner c, s.col - 1, 1⟩] else [])
    ++ (if f.t then [⟨.topPix c, s.x0 c, n⟩] else [])
    ++ (if f.tr then [⟨.topPix c, s.x0 c + n, n⟩] else [])
    ++ (if c ≠ .y && f.l then [⟨.lmLeft, 0, n⟩] else [])
    ++ (if c ≠ .y && f.t then [⟨.lmTop, s.x0 c, n⟩] else [])

/-- What `REFBUILD` reads (42_refbuild.md R200): the mode histories first, then what the flags make available. -/
def refbuildReads (c : BitVec 2) (aovr : Bool) (s : State) : List Span :=
  s.flagReads aovr ++ s.segmentReads (compOf c) (s.effectiveFlags (compOf c) aovr)

/-- What `REFBUILD` writes in storage (42_refbuild.md R200, R201): `REF_c`, and `REFF_0` for luma or `LMREF` for
chroma. -/
def refbuildWrites (c : BitVec 2) (s : State) : List Span :=
  let n := s.sizeOf (compOf c)
  match compOf c with
  | .y => [⟨.ref .y, 0, 4 * n + 1⟩, ⟨.reff0, 0, 4 * n + 1⟩]
  | .u => [⟨.ref .u, 0, 4 * n + 1⟩, ⟨.lmref, 0, 2 * n⟩]
  | .v => [⟨.ref .v, 0, 4 * n + 1⟩, ⟨.lmref, 0, 2 * n⟩]

/-- The writes of `REFBUILD` (42_refbuild.md R200). -/
def refbuildEffect (c : BitVec 2) (aovr : Bool) (s : State) : State :=
  let k := compOf c
  let f := s.effectiveFlags k aovr
  let r := s.border k f
  let t := s.putRow (.ref k) 0 r
  let t :=
    match k with
    | .y => t.putRow .reff0 0 (smooth r (s.sizeOf k))
    | .u => t.putRow .lmref 0 (s.lmBorder k f)
    | .v => t.putRow .lmref 0 (s.lmBorder k f)
  { t with res := { s.res with avail := some f.bits } }

/-- `REFBUILD` (42_refbuild.md R200). -/
def execRefbuild (c : BitVec 2) (aovr : Bool) (s : State) : Answer :=
  runCommand (.refbuild c aovr) (refbuildReads c aovr s) (refbuildEffect c aovr) s

end Sys2Proof.Machine
end

