-- ==== Sys2Proof/Machine/Transform.lean ====
section
/-! DEFINITION. The transform engine: `FDCT` and `IDCT` (40_transform.md). -/

namespace Sys2Proof.Machine

/-! ### Basis matrices -/

/-- `V[p]` for `p = 0..32` (40_transform.md R140). -/
def cosTable : List Int :=
  [64, 90, 90, 90, 89, 88, 87, 85, 83, 82, 80, 78, 75, 73, 70, 67, 64, 61, 57, 54, 50, 46, 43, 38, 36, 31, 25, 22, 18,
    13, 9, 4, 0]

/-- The signed cosine function (40_transform.md R140). -/
def cosv (q : Nat) : Int :=
  let p := q % 128
  if p ≤ 32 then cosTable.getD p 0
  else if p ≤ 64 then -cosTable.getD (64 - p) 0
  else if p ≤ 96 then -cosTable.getD (p - 64) 0
  else cosTable.getD (128 - p) 0

/-- `T32[k][n] = cosv((2n + 1)·k)` (40_transform.md R141). -/
def dct32 (k n : Nat) : Int := cosv ((2 * n + 1) * k)

/-- `TN[k][n] = T32[k·(32/N)][n]` (40_transform.md R141). -/
def dctMatrix (size k n : Nat) : Int := dct32 (k * (32 / size)) n

/-- `DST4[k][n]` (40_transform.md R143). -/
def dst4 (k n : Nat) : Int :=
  Block.get [[29, 55, 74, 84], [74, 74, 0, -74], [84, -29, -74, 55], [55, -84, 74, -29]] k n

/-- The matrix of a 1-D pass of size `n`: `DST4` or `Tn` (40_transform.md R145). -/
def passMatrix (dst : Bool) (n : Nat) : Nat → Nat → Int := if dst then dst4 else dctMatrix n

/-! ### The two transforms -/

/-- Pass 1 of the forward transform, horizontal: `E[y][u]` (40_transform.md R146), `s1 = lg - 1`. -/
def forwardPass1 (x : Block) (n lg : Nat) (ah : Nat → Nat → Int) : Block :=
  Block.tabulate n n fun y u =>
    wrap16 (asr (sumTo n (fun i => ah u i * x.get y i) + shl 1 (lg - 2)) (lg - 1))

/-- Pass 2 of the forward transform, vertical: `Y[v][u]` (40_transform.md R146), `s2 = lg + 6`. -/
def forwardPass2 (e : Block) (n lg : Nat) (av : Nat → Nat → Int) : Block :=
  Block.tabulate n n fun v u =>
    wrap16 (asr (sumTo n (fun i => av v i * e.get i u) + shl 1 (lg + 5)) (lg + 6))

/-- `FWD(X, n, AH, AV)` (40_transform.md R146). -/
def forward (x : Block) (n lg : Nat) (ah av : Nat → Nat → Int) : Block :=
  forwardPass2 (forwardPass1 x n lg ah) n lg av

/-- Pass 1 of the inverse transform, vertical: `G[y][u]` (40_transform.md R148). -/
def inversePass1 (y : Block) (n : Nat) (av : Nat → Nat → Int) : Block :=
  Block.tabulate n n fun r u => sat16 (asr (sumTo n (fun v => av v r * y.get v u) + 64) 7)

/-- Pass 2 of the inverse transform, horizontal: `X[y][x]` (40_transform.md R148). -/
def inversePass2 (g : Block) (n : Nat) (ah : Nat → Nat → Int) : Block :=
  Block.tabulate n n fun r x => sat16 (asr (sumTo n (fun u => ah u x * g.get r u) + 2048) 12)

/-- `INV(Y, n, AH, AV)` (40_transform.md R148). -/
def inverse (y : Block) (n : Nat) (ah av : Nat → Nat → Int) : Block :=
  inversePass2 (inversePass1 y n av) n ah

/-! ### The commands -/

/-- What `FDCT` reads: `RESI_c[y][x]` for `y, x < n` (40_transform.md R147). -/
def fdctReads (c : BitVec 2) (s : State) : List Span := blockSpans (.buf .resi (compOf c)) (s.sizeOf (compOf c))

/-- What `FDCT` writes: `COEF_c[v][u]` for `v, u < n`. -/
def fdctWrites (c : BitVec 2) (s : State) : List Span := blockSpans (.buf .coef (compOf c)) (s.sizeOf (compOf c))

/-- The writes of `FDCT` (40_transform.md R147). -/
def fdctEffect (c : BitVec 2) (mode : BitVec 6) (tt : BitVec 2) (dsth dstv : Bool) (s : State) : State :=
  let k := compOf c
  let n := s.sizeOf k
  let pass := s.passTypes k mode tt dsth dstv
  s.putBlock (.buf .coef k)
    (forward (s.block (.buf .resi k) n) n (s.lgOf k) (passMatrix pass.dstH n) (passMatrix pass.dstV n))

/-- `FDCT` (40_transform.md R147). -/
def execFdct (c : BitVec 2) (mode : BitVec 6) (tt : BitVec 2) (dsth dstv : Bool) (s : State) : Answer :=
  runCommand (.fdct c mode tt dsth dstv) (fdctReads c s) (fdctEffect c mode tt dsth dstv) s

/-- What `IDCT` reads: `DQ_c[v][u]` for `v, u < n` (40_transform.md R149). -/
def idctReads (c : BitVec 2) (s : State) : List Span := blockSpans (.buf .dq (compOf c)) (s.sizeOf (compOf c))

/-- What `IDCT` writes: `RRES_c[y][x]` for `y, x < n`. -/
def idctWrites (c : BitVec 2) (s : State) : List Span := blockSpans (.buf .rres (compOf c)) (s.sizeOf (compOf c))

/-- The writes of `IDCT` (40_transform.md R149). -/
def idctEffect (c : BitVec 2) (mode : BitVec 6) (tt : BitVec 2) (dsth dstv : Bool) (s : State) : State :=
  let k := compOf c
  let n := s.sizeOf k
  let pass := s.passTypes k mode tt dsth dstv
  s.putBlock (.buf .rres k)
    (inverse (s.block (.buf .dq k) n) n (passMatrix pass.dstH n) (passMatrix pass.dstV n))

/-- `IDCT` (40_transform.md R149). -/
def execIdct (c : BitVec 2) (mode : BitVec 6) (tt : BitVec 2) (dsth dstv : Bool) (s : State) : Answer :=
  runCommand (.idct c mode tt dsth dstv) (idctReads c s) (idctEffect c mode tt dsth dstv) s

end Sys2Proof.Machine
end

