-- ==== Sys2Proof/Machine/Dispatch.lean ====
section
/-! DEFINITION. One arm per command (30_encoding.md R112). -/

namespace Sys2Proof.Machine

-- The meaning of a decoded command, its completion included (60_exceptions.md R291).
def exec (i : Instr) (s : State) : Host.Outcome State Fault Refusal :=
  match i with
  | .nop => Sys2Proof.Machine.execNop s
  | .frameInit => Sys2Proof.Machine.execFrameInit s
  | .refbuild c aovr => Sys2Proof.Machine.execRefbuild c aovr s
  | .pred c mode => Sys2Proof.Machine.execPred c mode s
  | .resid c => Sys2Proof.Machine.execResid c s
  | .fdct c mode tt dsth dstv => Sys2Proof.Machine.execFdct c mode tt dsth dstv s
  | .quant c => Sys2Proof.Machine.execQuant c s
  | .dequant c => Sys2Proof.Machine.execDequant c s
  | .idct c mode tt dsth dstv => Sys2Proof.Machine.execIdct c mode tt dsth dstv s
  | .recon c => Sys2Proof.Machine.execRecon c s
  | .mpm => Sys2Proof.Machine.execMpm s
  | .histUpdate mode => Sys2Proof.Machine.execHistUpdate mode s

end Sys2Proof.Machine
end

