-- ==== Sys2Proof/Machine/Bus.lean ====
section
/-! DEFINITION. The host side: the registers by offset (10_state.md R32), host reads and writes (20_memory.md
R82-R90), acceptance of a command (60_exceptions.md R290), the soft reset (70_reset_and_hazards.md R322), and who moves
next. What depends on the build parameters takes them as the argument `p` (10_state.md R59). -/

namespace Sys2Proof.Machine

/-! ### The register map -/

/-- The registers (10_state.md R32). -/
inductive Reg where
  | id | version | status | ctrl | cmd | errinfo | picSize | cuCfg | cuPos | qp | slice
  | dstHLo | dstHHi | dstVLo | dstVHi | availOvr | avail | nzsum | cbf | mpm | lmA | lmB | lmShift
  deriving DecidableEq, Repr

/-- The byte offset of a register, which is its host address (10_state.md R32; 20_memory.md R81). -/
def Reg.offset : Reg → Nat
  | .id => 0x000
  | .version => 0x004
  | .status => 0x008
  | .ctrl => 0x00C
  | .cmd => 0x010
  | .errinfo => 0x014
  | .picSize => 0x018
  | .cuCfg => 0x01C
  | .cuPos => 0x020
  | .qp => 0x024
  | .slice => 0x028
  | .dstHLo => 0x02C
  | .dstHHi => 0x030
  | .dstVLo => 0x034
  | .dstVHi => 0x038
  | .availOvr => 0x03C
  | .avail => 0x040
  | .nzsum => 0x044
  | .cbf => 0x048
  | .mpm => 0x04C
  | .lmA => 0x050
  | .lmB => 0x054
  | .lmShift => 0x058

/-- Every register. -/
def Reg.all : List Reg :=
  [.id, .version, .status, .ctrl, .cmd, .errinfo, .picSize, .cuCfg, .cuPos, .qp, .slice, .dstHLo, .dstHHi, .dstVLo,
    .dstVHi, .availOvr, .avail, .nzsum, .cbf, .mpm, .lmA, .lmB, .lmShift]

/-- What a word address names (20_memory.md R81, R88): a register, the lanes `e` and `e + 1` of an array, or nothing. -/
inductive Target where
  | reg (r : Reg)
  | lanes (a : Arr) (e : Nat)
  | unmapped
  deriving DecidableEq, Repr

/-- The bytes of an array's window: two for each lane, and whole words (20_memory.md R81, R87). -/
def Arr.windowBytes (a : Arr) : Nat := 4 * ((a.size + 1) / 2)

/-- The address map (20_memory.md R81). -/
def targetOf (addr : Nat) : Target :=
  match Reg.all.find? fun r => r.offset == addr with
  | some r => .reg r
  | none =>
    match Arr.all.find? fun a => decide (a.base ≤ addr) && decide (addr < a.base + a.windowBytes) with
    | some a => .lanes a ((addr - a.base) / 2)
    | none => .unmapped

/-! ### Reads (20_memory.md R83, R85, R87, R92) -/

/-- The bits of a register field that may be without a value: the value, or the free bits of this read. -/
def fieldOr {n : Nat} (v : Option (BitVec n)) (free : BitVec n) : BitVec n := v.getD free

/-- A `CBF` bit as bits. -/
def cbfBit (b : Option Bool) (free : Bool) : BitVec 1 := BitVec.ofBool (b.getD free)

/-- The `MPM` word (10_state.md R46). -/
def mpmWord (m : MpmReg) : Word := 0#10 ++ m.mpm2 ++ 0#2 ++ m.mpm1 ++ 0#2 ++ m.mpm0

/-- The `MPM` register's fields where it has no value: those places of the free bits. -/
def freeMpm (free : Word) : MpmReg := ⟨free.extractLsb' 0 6, free.extractLsb' 8 6, free.extractLsb' 16 6⟩

/-- The word a register reads as (10_state.md R32-R47); `free` fills a field without a value (assumption 20), reserved
bits read 0 (R56). -/
def State.readReg (s : State) (free : Word) : Reg → Word
  | .id => 0x58323635#32
  | .version => 0x00010000#32
  | .status => s.statusWord
  | .ctrl => 0#31 ++ BitVec.ofBool s.cfg.irqEn
  | .cmd => s.cmd
  | .errinfo => s.errinfo
  | .picSize => s.cfg.picSize
  | .cuCfg => s.cfg.cuLog2.setWidth 32
  | .cuPos => s.cuPos
  | .qp => 0#18 ++ s.cfg.qpC ++ 0#2 ++ s.cfg.qpY
  | .slice => s.cfg.slice.setWidth 32
  | .dstHLo => s.cfg.dstH.extractLsb' 0 32
  | .dstHHi => (s.cfg.dstH.extractLsb' 32 3).setWidth 32
  | .dstVLo => s.cfg.dstV.extractLsb' 0 32
  | .dstVHi => (s.cfg.dstV.extractLsb' 32 3).setWidth 32
  | .availOvr => s.cfg.availOvr.setWidth 32
  | .avail => (fieldOr s.res.avail (free.extractLsb' 0 5)).setWidth 32
  | .nzsum => fieldOr s.res.nzsum free
  | .cbf =>
    0#29 ++ cbfBit s.res.cbfV (free.getLsbD 2) ++ cbfBit s.res.cbfU (free.getLsbD 1)
      ++ cbfBit s.res.cbfY (free.getLsbD 0)
  | .mpm => mpmWord (s.res.mpm.getD (freeMpm free))
  | .lmA => fieldOr s.res.lmA free
  | .lmB => fieldOr s.res.lmB free
  | .lmShift => (fieldOr s.res.lmShift (free.extractLsb' 0 4)).setWidth 32

/-- The 16 bits a lane reads as (20_memory.md R85, R87, R92): the element, zero-extended for a sample or mode, the
coefficient's own bits; free bits without a value; 0 for a reserved lane. -/
def State.readLane (s : State) (free : BitVec 16) (a : Arr) (e : Nat) : BitVec 16 :=
  if e < a.size then
    match s.elem? a e with
    | some v => BitVec.ofInt 16 v
    | none => free
  else 0#16

/-- `MemRead(addr, 4)` of a mapped, aligned address (20_memory.md R83): the register, or `{lane(e+1), lane(e)}`. -/
def State.readTarget (s : State) (free : Word) : Target → Option Word
  | .reg r => some (s.readReg free r)
  | .lanes a e =>
    some (s.readLane (free.extractLsb' 16 16) a (e + 1) ++ s.readLane (free.extractLsb' 0 16) a e)
  | .unmapped => none

/-! ### The soft reset (70_reset_and_hazards.md R322) -/

/-- The storage elements a command that passes its checks writes. -/
def storageWrites (s : State) : Instr → List Span
  | .nop => []
  | .frameInit => frameInitWrites
  | .refbuild c _ => refbuildWrites c s
  | .pred c _ => predWrites c s
  | .resid c => residWrites c s
  | .fdct c _ _ _ _ => fdctWrites c s
  | .quant c => quantWrites c s
  | .dequant c => dequantWrites c s
  | .idct c _ _ _ _ => idctWrites c s
  | .recon c => reconWrites c s
  | .mpm => []
  | .histUpdate _ => histUpdateWrites s

/-- The result registers with those a command writes left without a value. -/
def Results.abandon (r : Results) : Instr → Results
  | .nop => r
  | .frameInit => r
  | .refbuild _ _ => { r with avail := none }
  | .pred _ mode => if mode.toNat ≤ 34 then r else { r with lmA := none, lmB := none, lmShift := none }
  | .resid _ => r
  | .fdct _ _ _ _ _ => r
  | .quant c => { r with nzsum := none }.setCbf (compOf c) none
  | .dequant _ => r
  | .idct _ _ _ _ _ => r
  | .recon _ => r
  | .mpm => { r with mpm := none }
  | .histUpdate _ => r

/-- The pending command, when it would have passed its checks: what a soft reset abandons with outputs. A word that
fails a check would have written nothing but `STATUS` and `ERRINFO`. -/
def State.abandoned (s : State) : Option Instr :=
  match s.pending with
  | none => none
  | some w =>
    match decodeWord w with
    | .error _ => none
    | .ok i => if s.check i = none then some i else none

/-- The storage after a soft reset: kept, but for the outputs of an abandoned command, which have no value. -/
def State.softResetMem (s : State) : Memory :=
  match s.abandoned with
  | none => s.mem
  | some i => ((storageWrites s i).foldl State.clearSpan s).mem

/-- The result registers after a soft reset: at their reset values, but for those an abandoned command would have
written, which have no value (assumption 9). -/
def State.softResetRes (s : State) : Results :=
  match s.abandoned with
  | none => Results.reset
  | some i => Results.reset.abandon i

/-- The soft reset (70_reset_and_hazards.md R322, R323): every register at its reset value, the pending slot emptied,
the storage kept. -/
def State.softReset (s : State) (p : BuildParams) : State :=
  { s with
    status := Status.reset
    cmd := 0#32
    errinfo := 0#32
    cuPos := 0#32
    cfg := ConfigRegs.reset p
    res := s.softResetRes
    mem := s.softResetMem
    pending := none
    latency := 0 }

/-! ### Writes (20_memory.md R84, R86-R88) -/

/-- Acceptance of a command word (60_exceptions.md R290): every word is accepted. How many never-held accesses may
overtake it is free (assumption 3). -/
def State.accept (s : State) (w : Word) : State :=
  { s with
    cmd := w
    pending := some w
    latency := Config.commandLatency s.draws
    draws := s.draws + 1 }

/-- A write of a register (10_state.md R34-R47, R56): read-only registers and reserved bits ignore it. -/
def State.writeReg (s : State) (p : BuildParams) (v : Word) : Reg → State
  | .id => s
  | .version => s
  | .status => { s with status := s.status.writeOneToClear v }
  | .ctrl => if v.getLsbD 31 then s.softReset p else { s with cfg := { s.cfg with irqEn := v.getLsbD 0 } }
  | .cmd => s.accept v
  | .errinfo => s
  | .picSize => { s with cfg := { s.cfg with picSize := v } }
  | .cuCfg => { s with cfg := { s.cfg with cuLog2 := v.extractLsb' 0 3 } }
  | .cuPos => { s with cuPos := v }
  | .qp => { s with cfg := { s.cfg with qpY := v.extractLsb' 0 6, qpC := v.extractLsb' 8 6 } }
  | .slice => { s with cfg := { s.cfg with slice := v.extractLsb' 0 2 } }
  | .dstHLo => { s with cfg := { s.cfg with dstH := s.cfg.dstH.extractLsb' 32 3 ++ v } }
  | .dstHHi => { s with cfg := { s.cfg with dstH := v.extractLsb' 0 3 ++ s.cfg.dstH.extractLsb' 0 32 } }
  | .dstVLo => { s with cfg := { s.cfg with dstV := s.cfg.dstV.extractLsb' 32 3 ++ v } }
  | .dstVHi => { s with cfg := { s.cfg with dstV := v.extractLsb' 0 3 ++ s.cfg.dstV.extractLsb' 0 32 } }
  | .availOvr => { s with cfg := { s.cfg with availOvr := v.extractLsb' 0 5 } }
  | .avail => s
  | .nzsum => s
  | .cbf => s
  | .mpm => s
  | .lmA => s
  | .lmB => s
  | .lmShift => s

/-- The element value a lane write stores (20_memory.md R86): the low 8 bits of a sample or mode, all 16 of a
coefficient as two's complement. -/
def laneValue (k : ElemKind) (u : BitVec 16) : Int :=
  match k with
  | .sample => ((u.extractLsb' 0 8).toNat : Int)
  | .mode => ((u.extractLsb' 0 8).toNat : Int)
  | .coefficient => u.toInt

/-- A write of one lane (20_memory.md R86, R87): a reserved lane ignores it. -/
def State.writeLane (s : State) (a : Arr) (e : Nat) (u : BitVec 16) : State :=
  if e < a.size then s.putRow a e [laneValue a.kind u] else s

/-- `MemWrite(addr, 4, v)` of a mapped, aligned address (20_memory.md R84). -/
def State.writeTarget (s : State) (p : BuildParams) (v : Word) : Target → Option State
  | .reg r => some (s.writeReg p v r)
  | .lanes a e => some ((s.writeLane a e (v.extractLsb' 0 16)).writeLane a (e + 1) (v.extractLsb' 16 16))
  | .unmapped => none

/-! ### One host access -/

/-- The bus error response (20_memory.md R88, R89): no effect, and a read returns 0. -/
def busError : BusResponse := ⟨true, 0#32⟩

/-- The access has a form the bus serves: 32 bits, at a multiple of 4 (20_memory.md R82, R89). -/
def servedForm (addr : BitVec 17) (bits : Nat) : Bool := bits == 32 && addr.toNat % 4 == 0

/-- A host read: no state changes but the response and the number of free values drawn (20_memory.md R83, R90, R92). -/
def State.hostRead (s : State) (addr : BitVec 17) (bits : Nat) : State :=
  let data := if servedForm addr bits then s.readTarget (Config.freeBits s.draws) (targetOf addr.toNat) else none
  match data with
  | some d => { s with response := some ⟨false, d⟩, draws := s.draws + 1 }
  | none => { s with response := some busError }

/-- A host write (20_memory.md R84, R88, R89). -/
def State.hostWrite (s : State) (p : BuildParams) (addr : BitVec 17) (bits : Nat) (v : Word) : State :=
  match if servedForm addr bits then s.writeTarget p v (targetOf addr.toNat) else none with
  | some t => { t with response := some ⟨false, 0#32⟩ }
  | none => { s with response := some busError }

/-- One host access performed. -/
def State.perform (s : State) (p : BuildParams) : HostAccess → State
  | .read addr bits => s.hostRead addr bits
  | .write addr bits v => s.hostWrite p addr bits v

/-- The access's address. -/
def HostAccess.address : HostAccess → BitVec 17
  | .read addr _ => addr
  | .write addr _ _ => addr

/-- The access is never held: it is to the address of `ID`, `VERSION`, `STATUS` or `CTRL` (20_memory.md R94;
assumption 13). -/
def HostAccess.neverHeld (a : HostAccess) : Bool := decide (a.address.toNat ∈ [0x000, 0x004, 0x008, 0x00C])

/-! ### The platform (20_memory.md R98; 60_exceptions.md R303) -/

/-- An access the host issues at an address of the platform's. -/
inductive PlatformAccess where
  | read (addr : Nat) (bits : Nat)
  | write (addr : Nat) (bits : Nat) (value : Word)
  deriving DecidableEq, Repr

/-- The platform's address of a block address of 20_memory.md R81: `XIC_BASE` is added (R98). -/
def platformAddress (p : BuildParams) (addr : BitVec 17) : Nat := p.xicBase + addr.toNat

/-- The block address a platform address lies at; `none` outside the block's 128 KiB window (R80, R98). -/
def blockAddress (p : BuildParams) (a : Nat) : Option (BitVec 17) :=
  if p.xicBase ≤ a ∧ a < p.xicBase + 2 ^ 17 then some (BitVec.ofNat 17 (a - p.xicBase)) else none

/-- What reaches the block of a platform access: the same access at the block address, or nothing (assumption 16). -/
def PlatformAccess.route (p : BuildParams) : PlatformAccess → Option HostAccess
  | .read a bits => (blockAddress p a).map fun addr => .read addr bits
  | .write a bits v => (blockAddress p a).map fun addr => .write addr bits v

/-- The host issues an access: it waits behind those issued before it (20_memory.md R93). One outside the window is not
the block's. -/
def State.issue (s : State) (p : BuildParams) (a : PlatformAccess) : State :=
  match a.route p with
  | some h => { s with bus := s.bus ++ [h] }
  | none => s

/-! ### Who moves -/

/-- The host performs its oldest access; with none the block is idle and keeps its state (60_exceptions.md R306). -/
def State.hostMove (s : State) (p : BuildParams) : State :=
  match s.bus with
  | [] => s
  | a :: rest => State.perform { s with bus := rest } p a

/-- With a command pending, the host's oldest access goes first: it is never held, and the free latency of the command
still lets one overtake it (20_memory.md R94; 70_reset_and_hazards.md R336, R340; assumption 3). -/
def State.hostOvertakes (s : State) : Bool :=
  match s.bus with
  | [] => false
  | a :: _ => a.neverHeld && decide (0 < s.latency)

/-- The meaning of a command on a build (10_state.md R59): of the commands only `PRED` reads a parameter
(43_intrapred.md R220). `exec` is this on the default build. -/
def execIn (p : BuildParams) (i : Instr) (s : State) : Answer :=
  match i with
  | .nop => execNop s
  | .frameInit => execFrameInit s
  | .refbuild c aovr => execRefbuild c aovr s
  | .pred c mode => execPredWith p c mode s
  | .resid c => execResid c s
  | .fdct c mode tt dsth dstv => execFdct c mode tt dsth dstv s
  | .quant c => execQuant c s
  | .dequant c => execDequant c s
  | .idct c mode tt dsth dstv => execIdct c mode tt dsth dstv s
  | .recon c => execRecon c s
  | .mpm => execMpm s
  | .histUpdate mode => execHistUpdate mode s

/-- The engine executes the pending word (60_exceptions.md R291): a word that does not decode completes with the
decoder's error. -/
def State.engineMove (s : State) (p : BuildParams) (w : Word) : Answer :=
  match decodeWord w with
  | .ok i => execIn p i s
  | .error code => .next (s.completeError code w)

/-- One event of the total order (20_memory.md R93): a host access or a command execution. -/
def State.move (s : State) (p : BuildParams) : Answer :=
  match s.pending with
  | none => .next (s.hostMove p)
  | some w =>
    if s.hostOvertakes then .next (State.hostMove { s with latency := s.latency - 1 } p) else s.engineMove p w

end Sys2Proof.Machine
end

