-- ==== Sys2Proof/Machine/Step.lean ====
section
/-! DEFINITION. One step of the block and its host, and how the host of the pipeline places one command. -/

namespace Sys2Proof.Machine

/-- One event on a build: the pending command's execution, or a host access, or nothing when the block is idle
(20_memory.md R93, R94; 60_exceptions.md R291, R306). -/
def stepIn (p : BuildParams) (s : State) : Host.Outcome State Fault Refusal := s.move p

/-- One event on the default build (assumption 8). -/
def step (s : State) : Host.Outcome State Fault Refusal := stepIn defaultBuild s

/-- The machine of a build: the model with the parameters as its argument (00_scope.md R7; 10_state.md R59).
`Sys2Proof.core` is this machine of the default build. -/
def coreIn (p : BuildParams) : Host.Core :=
  { State := State
    Fault := Fault
    Refusal := Refusal
    step := stepIn p
    reset := State.resetIn p }

/-- The state in which the very next step executes the command word `w`: the host has written it to `CMD` and it has
been accepted (60_exceptions.md R290), with no access left to overtake it (assumption 2). -/
def State.withFetchWord (s : State) (nbits w : Nat) : State :=
  { s with
    cmd := BitVec.ofNat 32 (w % 2 ^ nbits)
    pending := some (BitVec.ofNat 32 (w % 2 ^ nbits))
    latency := 0 }

end Sys2Proof.Machine
end

