-- ==== Sys2Proof/Safety.lean ====
section
/-! DEFINITION. The terms the statements use: which elements have values, which bytes are unchanged, the state an error
leaves, what a rule of a command says, and the invariants of the machine. -/

namespace Sys2Proof.Machine

/-- Every element of the spans has a value (10_state.md R57). -/
def HasValues (s : State) (spans : List Span) : Prop :=
  ∀ sp ∈ spans, ∀ i < sp.len, (s.elem? sp.arr (sp.start + i)).isSome = true

/-- Every byte of storage outside the spans reads in `t` as in `s`. -/
def KeepsOutside (s t : State) (spans : List Span) : Prop :=
  ∀ addr : Nat, (∀ sp ∈ spans, sp.covers addr = false) → t.mem.byte? addr = s.mem.byte? addr

/-- `s` after a command that completes without an error, but for the storage, which is `m`: `DONE` is set and nothing is
pending (60_exceptions.md R291). -/
def completedWith (s : State) (m : Memory) : State :=
  { s with mem := m, status := { s.status with done := true }, pending := none }

/-- `s` after the command word `w` has completed with the error `code` (60_exceptions.md R291): the first error since
`ERR` was cleared is recorded with its word, a later one only sets `ERR_MULTI`; nothing else changes. -/
def errored (s : State) (code : ErrCode) (w : Word) : State :=
  if s.status.err then
    { s with status := { s.status with errMulti := true, done := true }, pending := none }
  else
    { s with
      status := { s.status with err := true, errcode := code.number, done := true }
      errinfo := w
      pending := none }

/-- The code of the first condition of the list that is true. -/
def firstFailing : List (Bool × ErrCode) → Option ErrCode
  | [] => none
  | (true, code) :: _ => some code
  | (false, _) :: rest => firstFailing rest

/-- What a command's rule says (60_exceptions.md R291; 00_scope.md R14) of what command `i` answers in `s`, `exec i s` or,
on a build, `execIn p i s`: with a failing check a next state that differs by the recorded error only; with none, and an
element it computes from without a value, a fault on such an element; with none and all values there, A NEXT STATE, whose
storage is unchanged outside `writes` and which meets `post`. -/
structure CommandRule (i : Instr) (s : State) (answer : Answer) (checks : List (Bool × ErrCode)) (reads writes : List Span)
    (post : State → Prop) : Prop where
  errors : ∀ code, firstFailing checks = some code → answer = .next (errored s code (encode i))
  undefined : firstFailing checks = none → ¬ HasValues s reads →
    ∃ a e, answer = .fault (.noValue a e) ∧ s.elem? a e = none
  completes : firstFailing checks = none → HasValues s reads →
    ∃ t, answer = .next t ∧ KeepsOutside s t writes ∧ post t

/-! ### Invariants -/

/-- The storage lists bytes of storage elements only (20_memory.md R81, R85). -/
def HoldsOnlyElements (m : Memory) : Prop := ∀ cell ∈ m, isElementByte cell.1 = true

/-- `ERRCODE` is 0 and `ERR_MULTI` is clear while `ERR` = 0, and is one of the ten codes while `ERR` = 1
(60_exceptions.md R293, R300). -/
def StatusConsistent (st : Status) : Prop :=
  (st.err = false → st.errcode = 0#4 ∧ st.errMulti = false)
    ∧ (st.err = true → 1 ≤ st.errcode.toNat ∧ st.errcode.toNat ≤ 10)

/-- A pending command is the last accepted one, which `CMD` reads as (10_state.md R37, R60). -/
def PendingIsCmd (s : State) : Prop := ∀ w, s.pending = some w → s.cmd = w

/-- The result registers' ranges: each MPM candidate 0..34 (10_state.md R46), `NZSUM` below 2^24 (41_quant.md R175),
`LM_SHIFT` its reset value 0 or a shift 4..13 (43_intrapred.md R243, R244). -/
def ResultsInRange (r : Results) : Prop :=
  (∀ m, r.mpm = some m → m.mpm0.toNat ≤ 34 ∧ m.mpm1.toNat ≤ 34 ∧ m.mpm2.toNat ≤ 34)
    ∧ (∀ v, r.nzsum = some v → v.toNat < 2 ^ 24)
    ∧ (∀ v, r.lmShift = some v → v = 0#4 ∨ (4 ≤ v.toNat ∧ v.toNat ≤ 13))

/-- A step is safe when it does not stop: every element a command computes from has a value. -/
def SafeStep (s : State) : Prop := ∃ t, step s = .next t

end Sys2Proof.Machine
end

