-- ==== Sys2Proof/Certificates/Slice0/Obligations.lean ====
section
/-! DEFINITION. The statements for the provers. The first part, `Sys2Proof.Machine.Claims`, says the spec's rules again
in plain integer arithmetic, read from the rule's text and not from the model's meanings: the checks, the elements each
command reads and writes, and the value of every element it writes. The second part states them of the machine. -/

namespace Sys2Proof.Machine.Claims

/-! ### The checks, one condition per row of 60_exceptions.md R292 -/

/-- Order 3: `C` = 3, or a chroma component with `CU_LOG2` = 2. -/
def componentBad (s : State) (c : BitVec 2) : Bool :=
  decide (c.toNat = 3 ∨ ((c.toNat = 1 ∨ c.toNat = 2) ∧ s.cfg.cuLog2.toNat = 2))

/-- Order 4: `CU_LOG2` ∉ {2, 3, 4, 5}. -/
def sizeBad (s : State) : Bool := decide (s.cfg.cuLog2.toNat ∉ [2, 3, 4, 5])

/-- One dimension `d` is not between the CU size and 4096, or no multiple of the CU size (10_state.md R41). -/
def dimensionBad (s : State) (d : Nat) : Bool :=
  decide (d < 2 ^ s.cfg.cuLog2.toNat ∨ 4096 < d ∨ d % 2 ^ s.cfg.cuLog2.toNat ≠ 0)

/-- Order 5: the picture configuration is not valid (10_state.md R41). -/
def pictureBad (s : State) : Bool := sizeBad s || dimensionBad s s.picW || dimensionBad s s.picH

/-- Order 6: `COL` ≥ `numCols` or `ROW` ≥ `numRows`. -/
def positionBad (s : State) : Bool :=
  decide (s.picW / 2 ^ s.cfg.cuLog2.toNat ≤ s.col ∨ s.picH / 2 ^ s.cfg.cuLog2.toNat ≤ s.rowIx)

/-- Order 7 for `PRED`, `FDCT` and `IDCT`: `m` > 35, or `m` = 35 with `c` = 0. -/
def intraModeBad (c : BitVec 2) (mode : BitVec 6) : Bool :=
  decide (35 < mode.toNat ∨ (mode.toNat = 35 ∧ c.toNat = 0))

/-- Order 8: `t` = 3, or `t` = 2 with a DST pass and `n(c)` ≠ 4. -/
def typeBad (s : State) (c tt : BitVec 2) (dsth dstv : Bool) : Bool :=
  decide (tt.toNat = 3 ∨ (tt.toNat = 2 ∧ (dsth = true ∨ dstv = true) ∧ s.sizeOf (compOf c) ≠ 4))

/-- Order 9: `qp` > 51, with `QPY` for luma and `QPC` for chroma. -/
def qpBad (s : State) (c : BitVec 2) : Bool :=
  decide (51 < (if c.toNat = 0 then s.cfg.qpY else s.cfg.qpC).toNat)

/-- Order 10: `SLICE.TYPE` = 3. -/
def sliceBad (s : State) : Bool := decide (s.cfg.slice.toNat = 3)

/-- Order 2 for a term of a format-CT command: what its word would fail (30_encoding.md R119). -/
def ctBad (mode : BitVec 6) (tt : BitVec 2) (dsth dstv : Bool) : Bool :=
  decide ((mode.toNat ≠ 0 ∧ tt.toNat ≠ 0) ∨ ((dsth = true ∨ dstv = true) ∧ tt.toNat ≠ 2))

/-- The checks of `FDCT` and `IDCT` (40_transform.md R147, R149). -/
def transformChecks (s : State) (c : BitVec 2) (mode : BitVec 6) (tt : BitVec 2) (dsth dstv : Bool) :
    List (Bool × ErrCode) :=
  [(ctBad mode tt dsth dstv, .reservedField), (componentBad s c, .illegalComponent), (sizeBad s, .badSize),
    (decide (tt.toNat = 0) && intraModeBad c mode, .illegalMode), (typeBad s c tt dsth dstv, .illegalTt)]

/-- The checks of each command in order, as its rule's "Errors" line lists them. Order 1, and order 2 but for the two
constraints inside format CT, are facts of the word and hold of every term of `Instr`. -/
def checks (s : State) : Instr → List (Bool × ErrCode)
  | .nop => []
  | .frameInit => [(sizeBad s, .badSize), (pictureBad s, .badPicture)]
  | .refbuild c _ =>
    [(componentBad s c, .illegalComponent), (sizeBad s, .badSize), (pictureBad s, .badPicture),
      (positionBad s, .badPosition)]
  | .pred c mode =>
    [(componentBad s c, .illegalComponent), (sizeBad s, .badSize), (intraModeBad c mode, .illegalMode)]
  | .resid c => [(componentBad s c, .illegalComponent), (sizeBad s, .badSize)]
  | .fdct c mode tt dsth dstv => transformChecks s c mode tt dsth dstv
  | .quant c =>
    [(componentBad s c, .illegalComponent), (sizeBad s, .badSize), (qpBad s c, .badQp), (sliceBad s, .badSlice)]
  | .dequant c => [(componentBad s c, .illegalComponent), (sizeBad s, .badSize), (qpBad s c, .badQp)]
  | .idct c mode tt dsth dstv => transformChecks s c mode tt dsth dstv
  | .recon c => [(componentBad s c, .illegalComponent), (sizeBad s, .badSize)]
  | .mpm => [(sizeBad s, .badSize), (pictureBad s, .badPicture), (positionBad s, .badPosition)]
  | .histUpdate mode =>
    [(sizeBad s, .badSize), (pictureBad s, .badPicture), (positionBad s, .badPosition),
      (decide (34 < mode.toNat), .illegalMode)]

/-! ### The decode of a word, by its bits (30_encoding.md R111, R112, R119) -/

/-- `w[31:26]`. -/
def opOf (w : Word) : Nat := w.toNat / 2 ^ 26

/-- `w[25:24]`. -/
def cOf (w : Word) : Nat := w.toNat / 2 ^ 24 % 4

/-- `w[23:18]`. -/
def modeOf (w : Word) : Nat := w.toNat / 2 ^ 18 % 64

/-- `w[17:16]`. -/
def ttOf (w : Word) : Nat := w.toNat / 2 ^ 16 % 4

/-- `w[15:14]`, `DSTH` and `DSTV` together. -/
def dstOf (w : Word) : Nat := w.toNat / 2 ^ 14 % 4

/-- `w[13]`. -/
def aovrOf (w : Word) : Nat := w.toNat / 2 ^ 13 % 2

/-- Order 2: bits 12:0, a field outside the format of the opcode, or one of the two constraints of format CT. -/
def reservedBad (w : Word) : Bool :=
  decide (w.toNat % 2 ^ 13 ≠ 0
    ∨ (opOf w ∉ [2, 3, 4, 5, 6, 7, 8, 9] ∧ cOf w ≠ 0)
    ∨ (opOf w ∉ [3, 5, 8, 11] ∧ modeOf w ≠ 0)
    ∨ (opOf w ∉ [5, 8] ∧ (ttOf w ≠ 0 ∨ dstOf w ≠ 0))
    ∨ (opOf w ≠ 2 ∧ aovrOf w ≠ 0)
    ∨ (opOf w ∈ [5, 8] ∧ ttOf w ≠ 0 ∧ modeOf w ≠ 0)
    ∨ (opOf w ∈ [5, 8] ∧ ttOf w ≠ 2 ∧ dstOf w ≠ 0))

/-- The command of a legal word, its fields taken from the word's bits. -/
def commandOf (w : Word) : Option Instr :=
  let c := BitVec.ofNat 2 (cOf w)
  let mode := BitVec.ofNat 6 (modeOf w)
  let tt := BitVec.ofNat 2 (ttOf w)
  let dsth := decide (2 ≤ dstOf w)
  let dstv := decide (dstOf w % 2 = 1)
  [Instr.nop, .frameInit, .refbuild c (decide (aovrOf w = 1)), .pred c mode, .resid c, .fdct c mode tt dsth dstv,
    .quant c, .dequant c, .idct c mode tt dsth dstv, .recon c, .mpm, .histUpdate mode][opOf w]?

/-- `CHECK(w)`, the whole table of 60_exceptions.md R292 on the bits of a word, ten rows in its order. -/
def checkTable (s : State) (w : Word) : List (Bool × ErrCode) :=
  [ (decide (0x0B < opOf w), .illegalOpcode),
    (reservedBad w, .reservedField),
    (decide (opOf w ∈ [2, 3, 4, 5, 6, 7, 8, 9]) && componentBad s (BitVec.ofNat 2 (cOf w)), .illegalComponent),
    (decide (opOf w ≠ 0) && sizeBad s, .badSize),
    (decide (opOf w ∈ [1, 2, 10, 11]) && pictureBad s, .badPicture),
    (decide (opOf w ∈ [2, 10, 11]) && positionBad s, .badPosition),
    (decide (((opOf w = 3 ∨ (opOf w ∈ [5, 8] ∧ ttOf w = 0)) ∧ (35 < modeOf w ∨ (modeOf w = 35 ∧ cOf w = 0)))
      ∨ (opOf w = 11 ∧ 34 < modeOf w)), .illegalMode),
    (decide (opOf w ∈ [5, 8] ∧ (ttOf w = 3 ∨ (ttOf w = 2 ∧ dstOf w ≠ 0
      ∧ s.cfg.cuLog2.toNat - (if cOf w = 0 then 0 else 1) ≠ 2))), .illegalTt),
    (decide (opOf w ∈ [6, 7]) && qpBad s (BitVec.ofNat 2 (cOf w)), .badQp),
    (decide (opOf w = 6) && sliceBad s, .badSlice) ]

/-- The rows of spec/opcode_table.json as (mask, match) pairs (30_encoding.md R120). -/
def opcodeRows : List (Word × Word) :=
  [ (0xFFFFFFFF#32, 0x00000000#32), (0xFFFFFFFF#32, 0x04000000#32), (0xFCFFDFFF#32, 0x08000000#32),
    (0xFC03FFFF#32, 0x0C000000#32), (0xFCFFFFFF#32, 0x10000000#32), (0xFC003FFF#32, 0x14000000#32),
    (0xFCFFFFFF#32, 0x18000000#32), (0xFCFFFFFF#32, 0x1C000000#32), (0xFC003FFF#32, 0x20000000#32),
    (0xFCFFFFFF#32, 0x24000000#32), (0xFFFFFFFF#32, 0x28000000#32), (0xFF03FFFF#32, 0x2C000000#32) ]

/-! ### Completion -/

/-- The element of row `y` and column `x` of a working buffer (20_memory.md R81). -/
def at2 (y x : Nat) : Nat := 32 * y + x

/-- `t` is `s` after a command that completed without an error and wrote, besides storage, only the result registers,
which are `r`: `DONE` is set, the pending slot is empty, every other register and bit is as it was. -/
def Completed (s t : State) (r : Results) : Prop := t = { completedWith s t.mem with res := r }

/-- `t` is `s` after a command that wrote the `n`×`n` elements `f y x` of `a`, and the result registers `r`. -/
def WroteBlock (s t : State) (a : Arr) (n : Nat) (r : Results) (f : Nat → Nat → Int) : Prop :=
  Completed s t r ∧ ∀ y < n, ∀ x < n, t.elem? a (at2 y x) = some (f y x)

/-! ### Borders (42_refbuild.md) -/

/-- `W_c`, the length of `TOP_PIX_c` (42_refbuild.md R192). -/
def topLength : Comp → Nat
  | .y => 4096
  | .u => 2048
  | .v => 2048

/-- A flag before R192: bit `b` of `AVAIL_OVR` with `AOVR` = 1 (R193), else what the mode histories say (R191). -/
def rawFlag (s : State) (aovr : Bool) (b : Nat) (known : Bool) : Bool := if aovr then s.cfg.availOvr.getLsbD b else known

/-- `valid` of a mode-history entry: it is at most 34. -/
def known (s : State) (a : Arr) (e : Nat) : Bool := decide (s.val a e ≤ 34)

/-- `LB` (R191-R193). -/
def flagLB (s : State) (aovr : Bool) : Bool := rawFlag s aovr 0 (known s .leftMode 1)

/-- `L`. -/
def flagL (s : State) (aovr : Bool) : Bool := rawFlag s aovr 1 (known s .leftMode 0)

/-- `TL`: `L and T` of the histories, never in column 0. -/
def flagTL (s : State) (aovr : Bool) : Bool :=
  rawFlag s aovr 2 (known s .leftMode 0 && known s .topMode s.col) && decide (s.col ≠ 0)

/-- `T`, never where the segment would leave `TOP_PIX_c`. -/
def flagT (s : State) (c : Comp) (aovr : Bool) : Bool :=
  rawFlag s aovr 3 (known s .topMode s.col) && decide (s.col * s.sizeOf c + s.sizeOf c ≤ topLength c)

/-- `TR`, never where the segment would leave `TOP_PIX_c`. -/
def flagTR (s : State) (c : Comp) (aovr : Bool) : Bool :=
  rawFlag s aovr 4 (known s .topMode (s.col + 1)) && decide (s.col * s.sizeOf c + 2 * s.sizeOf c ≤ topLength c)

/-- `AVAIL` (R202): bit 0 `LB`, bit 1 `L`, bit 2 `TL`, bit 3 `T`, bit 4 `TR`. -/
def availWord (s : State) (c : Comp) (aovr : Bool) : BitVec 5 :=
  BitVec.ofNat 5 ((flagLB s aovr).toNat + 2 * (flagL s aovr).toNat + 4 * (flagTL s aovr).toNat
    + 8 * (flagT s c aovr).toNat + 16 * (flagTR s c aovr).toNat)

/-- The flag of the segment that border index `i` lies in (R190). -/
def segmentFlag (s : State) (c : Comp) (aovr : Bool) (i : Nat) : Bool :=
  let n := s.sizeOf c
  if i < n then flagLB s aovr
  else if i < 2 * n then flagL s aovr
  else if i = 2 * n then flagTL s aovr
  else if i ≤ 3 * n then flagT s c aovr
  else flagTR s c aovr

/-- The history sample that R194 copies to border index `i`. -/
def historySample (s : State) (c : Comp) (i : Nat) : Int :=
  let n := s.sizeOf c
  if i < 2 * n then s.val (.leftPix c) (2 * n - 1 - i)
  else if i = 2 * n then s.val (.corner c) (s.col - 1)
  else s.val (.topPix c) (s.col * n + (i - (2 * n + 1)))

/-- Substitution (R195) as what each of the `len` elements ends up holding. An element of an available segment holds its
own sample; after the first available segment an element holds the sample of the last available index below it; before
it, that of the first available index; with none, 128. -/
def substituted (len : Nat) (flag : Nat → Bool) (sample : Nat → Int) (i : Nat) : Int :=
  match (List.range (i + 1)).reverse.find? flag with
  | some j => sample j
  | none =>
    match (List.range len).find? flag with
    | some j => sample j
    | none => 128

/-- `R[i]` after R194 and R195. -/
def borderAt (s : State) (c : Comp) (aovr : Bool) (i : Nat) : Int :=
  substituted (4 * s.sizeOf c + 1) (segmentFlag s c aovr) (historySample s c) i

/-- `F[i]` of a border `r` (R196). -/
def smoothedAt (n : Nat) (r : Nat → Int) (i : Nat) : Int :=
  if i = 0 ∨ i = 4 * n then r i else (r (i - 1) + 2 * r i + r (i + 1) + 2) / 4

/-- The LM history sample that R197 copies to LM border index `i`. -/
def lmHistorySample (s : State) (c : Comp) (i : Nat) : Int :=
  let n := s.sizeOf c
  if i < n then s.val .lmLeft (n - 1 - i) else s.val .lmTop (s.col * n + (i - n))

/-- `M[i]` (R197). -/
def lmBorderAt (s : State) (c : Comp) (aovr : Bool) (i : Nat) : Int :=
  let n := s.sizeOf c
  substituted (2 * n) (fun j => if j < n then flagL s aovr else flagT s c aovr) (lmHistorySample s c) i

/-- The bit of `AVAIL` for the segment that border index `i` lies in (R190, R202). -/
def segmentBit (n i : Nat) : Nat :=
  if i < n then 0 else if i < 2 * n then 1 else if i = 2 * n then 2 else if i ≤ 3 * n then 3 else 4

/-- What R204 says of a border of `len` elements in `a`: each has a value; with no index available all are 128; an
available one is copied; those before the first available one hold its value; a later unavailable one holds the value
before it. -/
def PaddedWithoutGap (t : State) (a : Arr) (len : Nat) (available : Nat → Bool) (sample : Nat → Int) : Prop :=
  (∀ i < len, (t.elem? a i).isSome = true)
    ∧ ((∀ i < len, available i = false) → ∀ i < len, t.elem? a i = some 128)
    ∧ (∀ i < len, available i = true → t.elem? a i = some (sample i))
    ∧ (∀ i f, i < f → f < len → available f = true → (∀ j < f, available j = false) → t.elem? a i = t.elem? a f)
    ∧ ∀ i j, j < i → i < len → available j = true → available i = false → t.elem? a i = t.elem? a (i - 1)

/-! ### Prediction (43_intrapred.md) -/

/-- The modes for which the default `INTRA_FILTER` is 1, as the second table of 42_refbuild.md R199 lists them. -/
def smoothedMode (n m : Nat) : Bool :=
  match n with
  | 8 => decide (m ∈ [0, 2, 18, 34])
  | 16 => decide (m ≤ 34 ∧ m ∉ [1, 9, 10, 11, 25, 26, 27])
  | 32 => decide (m ≤ 34 ∧ m ∉ [1, 10, 26])
  | _ => false

/-- The border array a `PRED` of mode `m` reads (R221; 42_refbuild.md R198). -/
def predBorder (s : State) (c : Comp) (m : Nat) : Arr :=
  if c = .y ∧ smoothedMode (s.sizeOf c) m = true then .reff0 else .ref c

/-- Border sample `R[i]` of a `PRED` of mode `m`. -/
def borderSample (s : State) (c : Comp) (m i : Nat) : Int := s.val (predBorder s c m) i

/-- `p(x, -1)` of the border `r` (42_refbuild.md R190). -/
def above (r : Nat → Int) (n x : Nat) : Int := r (2 * n + 1 + x)

/-- `p(-1, y)`. -/
def beside (r : Nat → Int) (n y : Nat) : Int := r (2 * n - 1 - y)

/-- `P[y][x]` of PLANAR (R223); `>> (lg + 1)` is division by `2n`. -/
def planarAt (r : Nat → Int) (n y x : Nat) : Int :=
  (((n : Int) - 1 - x) * beside r n y + ((x : Int) + 1) * above r n n + ((n : Int) - 1 - y) * above r n x
    + ((y : Int) + 1) * beside r n n + n) / (2 * n)

/-- `dc` (R226). -/
def dcAt (r : Nat → Int) (n : Nat) : Int :=
  (∑ x ∈ Finset.range n, above r n x + ∑ y ∈ Finset.range n, beside r n y + n) / (2 * n)

/-- `P[y][x]` of DC (R226), with the edge filter (R227) when `edges`. -/
def dcPredAt (edges : Bool) (r : Nat → Int) (n y x : Nat) : Int :=
  if edges = false then dcAt r n
  else if y = 0 ∧ x = 0 then (beside r n 0 + 2 * dcAt r n + above r n 0 + 2) / 4
  else if y = 0 then (above r n x + 3 * dcAt r n + 2) / 4
  else if x = 0 then (beside r n y + 3 * dcAt r n + 2) / 4
  else dcAt r n

/-- The magnitude of the angle `d` modes away from mode 10 or 26 (R224). -/
def angleSize (d : Nat) : Int := [0, 2, 5, 9, 13, 17, 21, 26, 32].getD d 0

/-- `ANG[m]` (R224): above mode 26 and below mode 10 positive, between them negative. -/
def angleOf (m : Nat) : Int :=
  if 26 ≤ m then angleSize (m - 26)
  else if 18 ≤ m then -angleSize (26 - m)
  else if 10 ≤ m then -angleSize (m - 10)
  else angleSize (10 - m)

/-- `INVANG[a] = -round(8192 / |a|)` of a negative angle (R225). -/
def invAngleOf (a : Int) : Int := -((2 * 8192 + a.natAbs) / (2 * a.natAbs) : Nat)

/-- `ref[i]` of mode `m` (R228, R229): `main` runs away from the corner along the top for a vertical mode and down the
left for a horizontal one, `side` the other way; below 0 the backward extension reads `side`. -/
def refAt (r : Nat → Int) (n m : Nat) (i : Int) : Int :=
  if 0 ≤ i then r (if 18 ≤ m then 2 * n + i.toNat else 2 * n - i.toNat)
  else
    let j := ((i * invAngleOf (angleOf m) + 128) / 256).toNat
    r (if 18 ≤ m then 2 * n - j else 2 * n + j)

/-- `Q[along][across]` (R230). -/
def projectedAt (r : Nat → Int) (n m along across : Nat) : Int :=
  let pos := ((along : Int) + 1) * angleOf m
  let i := (across : Int) + pos / 32 + 1
  if pos % 32 = 0 then refAt r n m i
  else ((32 - pos % 32) * refAt r n m i + pos % 32 * refAt r n m (i + 1) + 16) / 32

/-- Clipping to the sample range (00_scope.md R9). -/
def toSample (v : Int) : Int := if v < 0 then 0 else if 255 < v then 255 else v

/-- `P[y][x]` of ANGULAR (R231), with the boundary filter (R232) when `edges`. -/
def angularAt (edges : Bool) (r : Nat → Int) (n m y x : Nat) : Int :=
  if edges = true ∧ m = 26 ∧ x = 0 then toSample (above r n 0 + (beside r n y - r (2 * n)) / 2)
  else if edges = true ∧ m = 10 ∧ y = 0 then toSample (beside r n 0 + (above r n x - r (2 * n)) / 2)
  else if 18 ≤ m then projectedAt r n m y x
  else projectedAt r n m x y

/-- `bitlen` of 00_scope.md R12 as the least power of two above `v`. -/
def bits (v : Nat) : Nat := v.size

/-- `CLZ1` (R249). -/
def redundantSigns (a : Int) : Nat := if a = 0 then 0 else 15 - bits (if a < 0 then -a - 1 else a).toNat

/-- A sum over the `n` top and the `n` left neighbours (R241): `f` of the LM border sample and the chroma sample. -/
def neighbourTotal (n : Nat) (m r : Nat → Int) (f : Int → Int → Int) : Int :=
  ∑ j ∈ Finset.range n, f (m (n + j)) (above r n j) + ∑ i ∈ Finset.range n, f (m (n - 1 - i)) (beside r n i)

/-- The slope `a` of R242 and R243 for `2n = 2 ^ cs` neighbours. -/
def lmSlopeOf (n : Nat) (m r : Nat → Int) : Int :=
  let sx := neighbourTotal n m r fun a _ => a
  let sy := neighbourTotal n m r fun _ b => b
  let a1 := neighbourTotal n m r (fun a b => a * b) * (2 * n) - sy * sx
  let a2 := neighbourTotal n m r (fun a _ => a * a) * (2 * n) - sx * sx
  let sa1 := bits a1.natAbs - 15
  let sa2 := bits a2.natAbs - 6
  let a2s := a2 / 2 ^ sa2
  let a := if 1 ≤ a2s then a1 / 2 ^ sa1 * ((2 ^ 15 + a2s / 2) / a2s) else 0
  max (-32768) (min 32767 (if sa1 ≤ sa2 + 2 then a / 2 ^ (sa2 + 2 - sa1) else a * 2 ^ (sa1 - (sa2 + 2))))

/-- `(a, b, shift)` of R241-R245. -/
def lmFit (n : Nat) (m r : Nat → Int) : Int × Int × Nat :=
  let slope := lmSlopeOf n m r
  let k := if slope < -64 ∨ 63 < slope then 9 - redundantSigns slope else 0
  let a := slope / 2 ^ k
  let shift := 13 - k
  (a, (neighbourTotal n m r (fun _ b => b) - a * neighbourTotal n m r (fun a _ => a) / 2 ^ shift + n) / (2 * n), shift)

/-- The `(a, b, shift)` of an LM `PRED` on component `c`: fitted to `LMREF` and the chroma border (R240). -/
def lmParamsOf (s : State) (c : Comp) : Int × Int × Nat :=
  lmFit (s.sizeOf c) (fun i => s.val .lmref i) (fun i => s.val (.ref c) i)

/-- `P[y][x]` of LM (R246). -/
def lmPredAt (s : State) (fit : Int × Int × Nat) (y x : Nat) : Int :=
  toSample (fit.1 * ((s.val (.buf .reco .y) (at2 (2 * y) (2 * x))
    + s.val (.buf .reco .y) (at2 (2 * y + 1) (2 * x))) / 2) / 2 ^ fit.2.2 + fit.2.1)

/-! ### Transform and quantizer (40_transform.md, 41_quant.md) -/

/-- Whether the horizontal pass (`mask` = `DSTH_MASK`, `sel` = `DSTH`), or the vertical one, is DST-VII (R145). -/
def isDst (s : State) (c : Comp) (mask : BitVec 35) (mode : BitVec 6) (tt : BitVec 2) (sel : Bool) : Bool :=
  if tt.toNat = 0 then decide (c = .y ∧ s.sizeOf c = 4) && mask.getLsbD mode.toNat
  else decide (tt.toNat = 2) && sel

/-- 16-bit two's complement truncation (00_scope.md R9). -/
def wrap (v : Int) : Int := (v + 32768) % 65536 - 32768

/-- 16-bit saturation (00_scope.md R9). -/
def saturate (v : Int) : Int := if v < -32768 then -32768 else if 32767 < v then 32767 else v

/-- `E[y][u]` before its truncation (R146): `s1 = lg - 1`, so the shift divides by `n / 2`. -/
def rowSum (n : Nat) (ah x : Nat → Nat → Int) (y u : Nat) : Int :=
  (∑ i ∈ Finset.range n, ah u i * x y i + n / 4) / (n / 2)

/-- `Y[v][u]` before its truncation (R146): `s2 = lg + 6`, so the shift divides by `64 n`. -/
def columnSum (n : Nat) (av e : Nat → Nat → Int) (v u : Nat) : Int :=
  (∑ i ∈ Finset.range n, av v i * e i u + 32 * n) / (64 * n)

/-- `Y[v][u]` of `FWD` (R146). -/
def forwardAt (n : Nat) (ah av x : Nat → Nat → Int) (v u : Nat) : Int :=
  wrap (columnSum n av (fun y u => wrap (rowSum n ah x y u)) v u)

/-- `X[y][x]` of `INV` (R148). -/
def inverseAt (n : Nat) (ah av coef : Nat → Nat → Int) (y x : Nat) : Int :=
  saturate ((∑ u ∈ Finset.range n,
    ah u x * saturate ((∑ v ∈ Finset.range n, av v y * coef v u + 64) / 128) + 2048) / 4096)

/-- `lvl` of a coefficient (41_quant.md R173), a natural number. -/
def levelOf (v : Int) (slice qp lg : Nat) : Nat :=
  let qbits := 14 + qp / 6 + (7 - lg)
  (v.natAbs * [26214, 23302, 20560, 18396, 16384, 14564].getD (qp % 6) 0
    + (if slice = 2 then 171 else 85) * 2 ^ (qbits - 9)) / 2 ^ qbits

/-- The QP of component `c` (41_quant.md R172). -/
def qpFor (s : State) (c : Comp) : Nat := (if c = .y then s.cfg.qpY else s.cfg.qpC).toNat

/-- `lvl` of coefficient `[v][u]` of component `c`. -/
def levelAt (s : State) (c : Comp) (v u : Nat) : Nat :=
  levelOf (s.val (.buf .coef c) (at2 v u)) s.cfg.slice.toNat (qpFor s c) (s.lgOf c)

/-- `Σ lvl` of component `c` (41_quant.md R175). -/
def levelTotal (s : State) (c : Comp) : Nat :=
  ∑ v ∈ Finset.range (s.sizeOf c), ∑ u ∈ Finset.range (s.sizeOf c), levelAt s c v u

/-- `D[v][u]` of a level `q` (41_quant.md R176): `shift = lg - 1`. -/
def scaledAt (q : Int) (qp lg : Nat) : Int :=
  saturate ((q * [40, 45, 51, 57, 64, 72].getD (qp % 6) 0 * 2 ^ (qp / 6) + 2 ^ (lg - 2)) / 2 ^ (lg - 1))

/-! ### MPM (44_mpm_control.md R260, R262) -/

/-- A mode-history entry as the deriver takes it: above 34 it is DC. -/
def orDc (v : Int) : Nat := if v ≤ 34 then v.toNat else 1

/-- `MPMSET` of two modes in 0..34. -/
def mpmOf (a b : Nat) : List Nat :=
  if a = b then if a ≤ 1 then [0, 1, 26] else [a, 2 + (a + 29) % 32, 2 + (a - 1) % 32]
  else [a, b, if a ≠ 0 ∧ b ≠ 0 then 0 else if a + b = 1 then 26 else 1]

/-! ### HIST_UPDATE (44_mpm_control.md R266-R273) -/

/-- `RECO_0[row][col]`. -/
def luma (s : State) (row col : Nat) : Int := s.val (.buf .reco .y) (at2 row col)

/-- The histories of component `c` after the update, in terms of `s` (R267, R268). -/
def HistoriesMoved (s t : State) (c : Comp) : Prop :=
  let n := s.sizeOf c
  t.elem? (.corner c) s.col = s.elem? (.topPix c) (s.col * n + n - 1)
    ∧ (∀ j < n, t.elem? (.topPix c) (s.col * n + j) = s.elem? (.buf .reco c) (at2 (n - 1) j))
    ∧ ∀ i < n, t.elem? (.leftPix c) i = s.elem? (.buf .reco c) (at2 i (n - 1))

/-- The LM histories after the update (R272); `2m` is the luma size. -/
def LmMoved (s t : State) : Prop :=
  let m := s.sizeOf .u
  (∀ j < m, t.elem? .lmTop (s.col * m + j) = some ((luma s (2 * m - 2) (2 * j) + luma s (2 * m - 1) (2 * j)) / 2))
    ∧ ∀ i < m, t.elem? .lmLeft i = some ((luma s (2 * i) (2 * m - 2) + luma s (2 * i + 1) (2 * m - 2)) / 2)

/-- The CU at the current position is the last of its row (R273). -/
def lastInRow (s : State) : Bool := decide (s.col + 1 = s.picW / 2 ^ s.cfg.cuLog2.toNat)

/-- The CU at the current position is in the last row (R273). -/
def inLastRow (s : State) : Bool := decide (s.rowIx + 1 = s.picH / 2 ^ s.cfg.cuLog2.toNat)

/-- `CU_POS` after the advance (R273), as `ROW · 2^16 + COL`. -/
def nextPos (s : State) : Word :=
  BitVec.ofNat 32 (if lastInRow s then (s.rowIx + 1) * 65536 else s.rowIx * 65536 + (s.col + 1))

/-! ### What each command reads for a computation, and what it writes -/

/-- The histories of the available segments (42_refbuild.md R194, R197). -/
def availableSpans (s : State) (c : Comp) (aovr : Bool) : List Span :=
  let n := s.sizeOf c
  (if flagLB s aovr then [⟨.leftPix c, n, n⟩] else [])
    ++ (if flagL s aovr then [⟨.leftPix c, 0, n⟩] else [])
    ++ (if flagTL s aovr then [⟨.corner c, s.col - 1, 1⟩] else [])
    ++ (if flagT s c aovr then [⟨.topPix c, s.col * n, n⟩] else [])
    ++ (if flagTR s c aovr then [⟨.topPix c, s.col * n + n, n⟩] else [])
    ++ (if c ≠ .y ∧ flagL s aovr = true then [⟨.lmLeft, 0, n⟩] else [])
    ++ (if c ≠ .y ∧ flagT s c aovr = true then [⟨.lmTop, s.col * n, n⟩] else [])

/-- The "Reads" line of each command's rule, less registers and what it only copies. -/
def readsOf (s : State) : Instr → List Span
  | .nop => []
  | .frameInit => []
  | .refbuild c aovr =>
    (if aovr then [] else [⟨.leftMode, 0, 2⟩, ⟨.topMode, s.col, 2⟩]) ++ availableSpans s (compOf c) aovr
  | .pred c mode =>
    ⟨predBorder s (compOf c) mode.toNat, 0, 4 * s.sizeOf (compOf c) + 1⟩
      :: (if mode.toNat = 35 then
            ⟨.lmref, 0, 2 * s.sizeOf (compOf c)⟩ :: blockSpans (.buf .reco .y) (2 * s.sizeOf (compOf c))
          else [])
  | .resid c =>
    blockSpans (.buf .org (compOf c)) (s.sizeOf (compOf c)) ++ blockSpans (.buf .pred (compOf c)) (s.sizeOf (compOf c))
  | .fdct c _ _ _ _ => blockSpans (.buf .resi (compOf c)) (s.sizeOf (compOf c))
  | .quant c => blockSpans (.buf .coef (compOf c)) (s.sizeOf (compOf c))
  | .dequant c => blockSpans (.buf .qcoef (compOf c)) (s.sizeOf (compOf c))
  | .idct c _ _ _ _ => blockSpans (.buf .dq (compOf c)) (s.sizeOf (compOf c))
  | .recon c =>
    blockSpans (.buf .pred (compOf c)) (s.sizeOf (compOf c)) ++ blockSpans (.buf .rres (compOf c)) (s.sizeOf (compOf c))
  | .mpm => [⟨.leftMode, 0, 1⟩, ⟨.topMode, s.col, 1⟩]
  | .histUpdate _ =>
    if s.cfg.cuLog2.toNat = 2 then []
    else
      let n := s.sizeOf .y
      (List.range (n / 2)).flatMap (fun j => [⟨.buf .reco .y, at2 (n - 2) (2 * j), 1⟩, ⟨.buf .reco .y, at2 (n - 1) (2 * j), 1⟩])
        ++ (List.range n).map (fun i => ⟨.buf .reco .y, at2 i (n - 2), 1⟩)

/-- The histories of component `c` that `HIST_UPDATE` writes (44_mpm_control.md R266). -/
def historySpans (s : State) (c : Comp) : List Span :=
  [⟨.corner c, s.col, 1⟩, ⟨.topPix c, s.col * s.sizeOf c, s.sizeOf c⟩, ⟨.leftPix c, 0, s.sizeOf c⟩]

/-- The storage in the "Writes" line of each command's rule. -/
def writesOf (s : State) : Instr → List Span
  | .nop => []
  | .frameInit => [⟨.topMode, 0, 1025⟩, ⟨.leftMode, 0, 2⟩]
  | .refbuild c _ =>
    [⟨.ref (compOf c), 0, 4 * s.sizeOf (compOf c) + 1⟩,
      if c.toNat = 0 then ⟨.reff0, 0, 4 * s.sizeOf .y + 1⟩ else ⟨.lmref, 0, 2 * s.sizeOf .u⟩]
  | .pred c _ => blockSpans (.buf .pred (compOf c)) (s.sizeOf (compOf c))
  | .resid c => blockSpans (.buf .resi (compOf c)) (s.sizeOf (compOf c))
  | .fdct c _ _ _ _ => blockSpans (.buf .coef (compOf c)) (s.sizeOf (compOf c))
  | .quant c => blockSpans (.buf .qcoef (compOf c)) (s.sizeOf (compOf c))
  | .dequant c => blockSpans (.buf .dq (compOf c)) (s.sizeOf (compOf c))
  | .idct c _ _ _ _ => blockSpans (.buf .rres (compOf c)) (s.sizeOf (compOf c))
  | .recon c => blockSpans (.buf .reco (compOf c)) (s.sizeOf (compOf c))
  | .mpm => []
  | .histUpdate _ =>
    (if s.cfg.cuLog2.toNat = 2 then historySpans s .y
      else historySpans s .y ++ historySpans s .u ++ historySpans s .v
        ++ [⟨.lmTop, s.col * s.sizeOf .u, s.sizeOf .u⟩, ⟨.lmLeft, 0, s.sizeOf .u⟩])
      ++ [⟨.topMode, s.col, 1⟩, ⟨.leftMode, 0, 1⟩]

/-- What the rule of command `i` says of `exec i s` (60_exceptions.md R291), with the result `post`. -/
def Rule (i : Instr) (s : State) (post : State → Prop) : Prop :=
  CommandRule i s (exec i s) (checks s i) (readsOf s i) (writesOf s i) post

/-! ### `PRED` on a build (00_scope.md R7; 43_intrapred.md R220-R222) -/

/-- The border array a `PRED` of mode `m` reads on a build: the smoothed one where `INTRA_FILTER` says so
(42_refbuild.md R198). -/
def predBorderOn (p : BuildParams) (s : State) (c : Comp) (m : Nat) : Arr :=
  if c = .y ∧ m ≤ 34 ∧ p.intraFilter (s.lgOf c) m = true then .reff0 else .ref c

/-- The "Reads" line of `PRED` on a build. -/
def predReadsOn (p : BuildParams) (s : State) (c : Comp) (m : Nat) : List Span :=
  ⟨predBorderOn p s c m, 0, 4 * s.sizeOf c + 1⟩
    :: (if m = 35 then ⟨.lmref, 0, 2 * s.sizeOf c⟩ :: blockSpans (.buf .reco .y) (2 * s.sizeOf c) else [])

/-- `P[y][x]` of mode `m` at most 34 on a build: the two luma edge filters up to the size `EDGE_FILT_MAX_LOG2` (R227,
R232). -/
def predictedOn (p : BuildParams) (s : State) (c : Comp) (m y x : Nat) : Int :=
  let r := fun i => s.val (predBorderOn p s c m) i
  let edges := decide (c = .y ∧ s.lgOf c ≤ p.edgeFiltMaxLog2)
  if m = 0 then planarAt r (s.sizeOf c) y x
  else if m = 1 then dcPredAt edges r (s.sizeOf c) y x
  else angularAt edges r (s.sizeOf c) m y x

/-- The `(a, b, shift)` that `LM_PARAMS` of a build gives on `LMREF` and the chroma border (R240). -/
def lmParamsOn (p : BuildParams) (s : State) (c : Comp) : Int × Int × Nat :=
  p.lmParams (s.sizeOf c) ((List.range (2 * s.sizeOf c)).map fun i => s.val .lmref i)
    ((List.range (4 * s.sizeOf c + 1)).map fun i => s.val (.ref c) i)

/-- Element `e` of `a` is in one of the spans. -/
def Within (spans : List Span) (a : Arr) (e : Nat) : Prop := ∃ sp ∈ spans, sp.arr = a ∧ sp.start ≤ e ∧ e < sp.start + sp.len

/-! ### Soft reset and the host (70_reset_and_hazards.md R322; 20_memory.md) -/

/-- A soft reset of `s` abandons command `i`: it is pending and would have passed its checks. -/
def Abandons (s : State) (i : Instr) : Prop :=
  ∃ w, s.pending = some w ∧ decodeWord w = .ok i ∧ firstFailing (checks s i) = none

/-- The result registers at their reset values, but those command `i` writes, which have no value; of `CBF` a `QUANT` writes
the bit of its own component (assumptions 9, 20). -/
def resultsWithout : Instr → Results
  | .nop => Results.reset
  | .frameInit => Results.reset
  | .refbuild _ _ => { Results.reset with avail := none }
  | .pred _ mode =>
    if mode.toNat = 35 then { Results.reset with lmA := none, lmB := none, lmShift := none } else Results.reset
  | .resid _ => Results.reset
  | .fdct _ _ _ _ _ => Results.reset
  | .quant c =>
    { Results.reset with
      nzsum := none
      cbfY := if c.toNat = 0 then none else some false
      cbfU := if c.toNat = 1 then none else some false
      cbfV := if c.toNat = 2 then none else some false }
  | .dequant _ => Results.reset
  | .idct _ _ _ _ _ => Results.reset
  | .recon _ => Results.reset
  | .mpm => { Results.reset with mpm := none }
  | .histUpdate _ => Results.reset

/-- The word address `a` is mapped: in a listed register or in a window of 20_memory.md R81 (10_state.md R32). -/
def mapped (a : Nat) : Bool :=
  decide (a < 0x5C ∨ (0x1000 ≤ a ∧ a < 0xD000) ∨ (0xD000 ≤ a ∧ a < 0xD104) ∨ (0xD200 ≤ a ∧ a < 0xD304)
    ∨ (0xD400 ≤ a ∧ a < 0xD504) ∨ (0xD600 ≤ a ∧ a < 0xD704) ∨ (0xD800 ≤ a ∧ a < 0xD840)
    ∨ (0x10000 ≤ a ∧ a < 0x17004) ∨ (0x17800 ≤ a ∧ a < 0x17944))

/-- `b` of a working buffer, as the table of 10_state.md R40 numbers it. -/
def bufferNumber (b : Buf) : Nat := ([.org, .pred, .resi, .coef, .qcoef, .dq, .rres, .reco] : List Buf).idxOf b

/-- The window base of an array, as the table of 20_memory.md R81 lists it. -/
def windowBase : Arr → Nat
  | .buf b .y => 0x01000 + 0x800 * bufferNumber b
  | .buf b .u => 0x05000 + 0x800 * bufferNumber b
  | .buf b .v => 0x09000 + 0x800 * bufferNumber b
  | .ref .y => 0x0D000
  | .ref .u => 0x0D200
  | .ref .v => 0x0D400
  | .reff0 => 0x0D600
  | .lmref => 0x0D800
  | .topPix .y => 0x10000
  | .topPix .u => 0x12000
  | .topPix .v => 0x13000
  | .lmTop => 0x14000
  | .corner .y => 0x15000
  | .corner .u => 0x15800
  | .corner .v => 0x16000
  | .topMode => 0x16800
  | .leftPix .y => 0x17800
  | .leftPix .u => 0x17880
  | .leftPix .v => 0x178C0
  | .lmLeft => 0x17900
  | .leftMode => 0x17940

/-- The access is served: 32 bits, at a multiple of 4, at a mapped address (20_memory.md R82, R88, R89). -/
def served (addr : BitVec 17) (bits : Nat) : Bool :=
  decide (bits = 32) && decide (addr.toNat % 4 = 0) && mapped addr.toNat

/-- The word a host read of the address answers, in a state. -/
def wordAt (s : State) (addr : Nat) : Option Word :=
  (s.hostRead (BitVec.ofNat 17 addr) 32).response.map fun r => r.data

/-- What lane `e` of `a` reads as once the 16 bits `u` have been written to it (20_memory.md R85-R87): the low 8 bits of
a sample or mode zero-extended, all 16 of a coefficient, 0 for a reserved lane. -/
def laneBack (a : Arr) (e : Nat) (u : BitVec 16) : BitVec 16 :=
  if a.size ≤ e then 0#16 else if a.kind = .coefficient then u else BitVec.ofNat 16 (u.toNat % 256)

/-- The value an element of `a` has once the 16 bits `u` have been written to its lane (20_memory.md R86): the low 8 bits
of a sample or mode, `sext_16` of a coefficient. -/
def laneElement (a : Arr) (u : BitVec 16) : Int :=
  if a.kind = .coefficient then (if u.toNat < 32768 then (u.toNat : Int) else (u.toNat : Int) - 65536)
  else ((u.toNat % 256 : Nat) : Int)

/-- The RW registers that hold what is written: address and the bits they have (10_state.md R35, R36, R38, R39,
R41-R44). -/
def heldRegisters : List (Nat × Word) :=
  [ (0x018, 0xFFFFFFFF#32), (0x01C, 0x00000007#32), (0x020, 0xFFFFFFFF#32), (0x024, 0x00003F3F#32),
    (0x028, 0x00000003#32), (0x02C, 0xFFFFFFFF#32), (0x030, 0x00000007#32), (0x034, 0xFFFFFFFF#32),
    (0x038, 0x00000007#32), (0x03C, 0x0000001F#32) ]

/-- The state with the one field of a held register as a write of `v` leaves it (10_state.md R36, R38, R39, R41-R44), beside
the register's address. -/
def fieldWritten (s : State) (v : Word) : List (Nat × State) :=
  let low := v.toNat
  let halves := fun (hi lo : Nat) => BitVec.ofNat 35 (2 ^ 32 * hi + lo)
  [ (0x018, { s with cfg := { s.cfg with picSize := v } }),
    (0x01C, { s with cfg := { s.cfg with cuLog2 := BitVec.ofNat 3 low } }),
    (0x020, { s with cuPos := v }),
    (0x024, { s with cfg := { s.cfg with qpY := BitVec.ofNat 6 low, qpC := BitVec.ofNat 6 (low / 256) } }),
    (0x028, { s with cfg := { s.cfg with slice := BitVec.ofNat 2 low } }),
    (0x02C, { s with cfg := { s.cfg with dstH := halves (s.cfg.dstH.toNat / 2 ^ 32) low } }),
    (0x030, { s with cfg := { s.cfg with dstH := halves (low % 8) (s.cfg.dstH.toNat % 2 ^ 32) } }),
    (0x034, { s with cfg := { s.cfg with dstV := halves (s.cfg.dstV.toNat / 2 ^ 32) low } }),
    (0x038, { s with cfg := { s.cfg with dstV := halves (low % 8) (s.cfg.dstV.toNat % 2 ^ 32) } }),
    (0x03C, { s with cfg := { s.cfg with availOvr := BitVec.ofNat 5 low } }) ]

/-- The reserved bits of the registers that always have a value: address and mask (10_state.md R34-R36, R38, R39, R42,
R44). -/
def reservedBits : List (Nat × Word) :=
  [ (0x008, 0xFFFFF0E0#32), (0x00C, 0xFFFFFFFE#32), (0x01C, 0xFFFFFFF8#32), (0x024, 0xFFFFC0C0#32),
    (0x028, 0xFFFFFFFC#32), (0x030, 0xFFFFFFF8#32), (0x038, 0xFFFFFFF8#32), (0x03C, 0xFFFFFFE0#32) ]

/-- The four DST mask registers (10_state.md R36). -/
def dstMaskRegisters : List Nat := [0x02C, 0x030, 0x034, 0x038]

/-- The low 32 and the high 3 bits of a DST mask, as its two registers read (10_state.md R36). -/
def maskWords (m : BitVec 35) : Word × Word := (BitVec.ofNat 32 (m.toNat % 2 ^ 32), BitVec.ofNat 32 (m.toNat / 2 ^ 32))

/-- The read-only registers (10_state.md R32). -/
def readOnlyRegisters : List Nat := [0x000, 0x004, 0x014, 0x040, 0x044, 0x048, 0x04C, 0x050, 0x054, 0x058]

/-- The reset value of each register (10_state.md R32), the DST masks at their defaults. -/
def resetWords : List (Nat × Word) :=
  [ (0x000, 0x58323635#32), (0x004, 0x00010000#32), (0x008, 0#32), (0x00C, 0#32), (0x010, 0#32), (0x014, 0#32),
    (0x018, 0#32), (0x01C, 0#32), (0x020, 0#32), (0x024, 0#32), (0x028, 2#32), (0x02C, 0x03FFFFFD#32), (0x030, 0#32),
    (0x034, 0xFFFFF801#32), (0x038, 7#32), (0x03C, 0#32), (0x040, 0#32), (0x044, 0#32), (0x048, 0#32), (0x04C, 0#32),
    (0x050, 0#32), (0x054, 0#32), (0x058, 0#32) ]

/-- Which command writes each array (10_state.md R40, R49-R54): no other command, and never another component. -/
def writer : Arr → Instr → Bool
  | .buf .org _, _ => false
  | .buf .pred c, i => match i with | .pred k _ => decide (compOf k = c) | _ => false
  | .buf .resi c, i => match i with | .resid k => decide (compOf k = c) | _ => false
  | .buf .coef c, i => match i with | .fdct k _ _ _ _ => decide (compOf k = c) | _ => false
  | .buf .qcoef c, i => match i with | .quant k => decide (compOf k = c) | _ => false
  | .buf .dq c, i => match i with | .dequant k => decide (compOf k = c) | _ => false
  | .buf .rres c, i => match i with | .idct k _ _ _ _ => decide (compOf k = c) | _ => false
  | .buf .reco c, i => match i with | .recon k => decide (compOf k = c) | _ => false
  | .ref c, i => match i with | .refbuild k _ => decide (compOf k = c) | _ => false
  | .reff0, i => match i with | .refbuild k _ => decide (compOf k = .y) | _ => false
  | .lmref, i => match i with | .refbuild k _ => decide (compOf k ≠ .y) | _ => false
  | .topMode, i => match i with | .frameInit => true | .histUpdate _ => true | _ => false
  | .leftMode, i => match i with | .frameInit => true | .histUpdate _ => true | _ => false
  | .topPix _, i => match i with | .histUpdate _ => true | _ => false
  | .corner _, i => match i with | .histUpdate _ => true | _ => false
  | .leftPix _, i => match i with | .histUpdate _ => true | _ => false
  | .lmTop, i => match i with | .histUpdate _ => true | _ => false
  | .lmLeft, i => match i with | .histUpdate _ => true | _ => false

/-- `T4` of 40_transform.md R142. -/
def table4 : Block :=
  [ [64, 64, 64, 64],
    [83, 36, -36, -83],
    [64, -64, -64, 64],
    [36, -83, 83, -36] ]

/-- `T8` of R142. -/
def table8 : Block :=
  [ [64, 64, 64, 64, 64, 64, 64, 64],
    [89, 75, 50, 18, -18, -50, -75, -89],
    [83, 36, -36, -83, -83, -36, 36, 83],
    [75, -18, -89, -50, 50, 89, 18, -75],
    [64, -64, -64, 64, 64, -64, -64, 64],
    [50, -89, 18, 75, -75, -18, 89, -50],
    [36, -83, 83, -36, -36, 83, -83, 36],
    [18, -50, 75, -89, 89, -75, 50, -18] ]

/-- `T16` of R142. -/
def table16 : Block :=
  [ [64, 64, 64, 64, 64, 64, 64, 64, 64, 64, 64, 64, 64, 64, 64, 64],
    [90, 87, 80, 70, 57, 43, 25, 9, -9, -25, -43, -57, -70, -80, -87, -90],
    [89, 75, 50, 18, -18, -50, -75, -89, -89, -75, -50, -18, 18, 50, 75, 89],
    [87, 57, 9, -43, -80, -90, -70, -25, 25, 70, 90, 80, 43, -9, -57, -87],
    [83, 36, -36, -83, -83, -36, 36, 83, 83, 36, -36, -83, -83, -36, 36, 83],
    [80, 9, -70, -87, -25, 57, 90, 43, -43, -90, -57, 25, 87, 70, -9, -80],
    [75, -18, -89, -50, 50, 89, 18, -75, -75, 18, 89, 50, -50, -89, -18, 75],
    [70, -43, -87, 9, 90, 25, -80, -57, 57, 80, -25, -90, -9, 87, 43, -70],
    [64, -64, -64, 64, 64, -64, -64, 64, 64, -64, -64, 64, 64, -64, -64, 64],
    [57, -80, -25, 90, -9, -87, 43, 70, -70, -43, 87, 9, -90, 25, 80, -57],
    [50, -89, 18, 75, -75, -18, 89, -50, -50, 89, -18, -75, 75, 18, -89, 50],
    [43, -90, 57, 25, -87, 70, 9, -80, 80, -9, -70, 87, -25, -57, 90, -43],
    [36, -83, 83, -36, -36, 83, -83, 36, 36, -83, 83, -36, -36, 83, -83, 36],
    [25, -70, 90, -80, 43, 9, -57, 87, -87, 57, -9, -43, 80, -90, 70, -25],
    [18, -50, 75, -89, 89, -75, 50, -18, -18, 50, -75, 89, -89, 75, -50, 18],
    [9, -25, 43, -57, 70, -80, 87, -90, 90, -87, 80, -70, 57, -43, 25, -9] ]

/-- Rows 0 to 7 of `T32` of R142. -/
def table32a : Block :=
  [ [64, 64, 64, 64, 64, 64, 64, 64, 64, 64, 64, 64, 64, 64, 64, 64, 64, 64, 64, 64, 64, 64, 64, 64, 64, 64, 64,
    64, 64, 64, 64, 64],
    [90, 90, 88, 85, 82, 78, 73, 67, 61, 54, 46, 38, 31, 22, 13, 4, -4, -13, -22, -31, -38, -46, -54, -61, -67,
    -73, -78, -82, -85, -88, -90, -90],
    [90, 87, 80, 70, 57, 43, 25, 9, -9, -25, -43, -57, -70, -80, -87, -90, -90, -87, -80, -70, -57, -43, -25,
    -9, 9, 25, 43, 57, 70, 80, 87, 90],
    [90, 82, 67, 46, 22, -4, -31, -54, -73, -85, -90, -88, -78, -61, -38, -13, 13, 38, 61, 78, 88, 90, 85, 73,
    54, 31, 4, -22, -46, -67, -82, -90],
    [89, 75, 50, 18, -18, -50, -75, -89, -89, -75, -50, -18, 18, 50, 75, 89, 89, 75, 50, 18, -18, -50, -75, -89,
    -89, -75, -50, -18, 18, 50, 75, 89],
    [88, 67, 31, -13, -54, -82, -90, -78, -46, -4, 38, 73, 90, 85, 61, 22, -22, -61, -85, -90, -73, -38, 4, 46,
    78, 90, 82, 54, 13, -31, -67, -88],
    [87, 57, 9, -43, -80, -90, -70, -25, 25, 70, 90, 80, 43, -9, -57, -87, -87, -57, -9, 43, 80, 90, 70, 25,
    -25, -70, -90, -80, -43, 9, 57, 87],
    [85, 46, -13, -67, -90, -73, -22, 38, 82, 88, 54, -4, -61, -90, -78, -31, 31, 78, 90, 61, 4, -54, -88, -82,
    -38, 22, 73, 90, 67, 13, -46, -85] ]

/-- Rows 8 to 15 of `T32` of R142. -/
def table32b : Block :=
  [ [83, 36, -36, -83, -83, -36, 36, 83, 83, 36, -36, -83, -83, -36, 36, 83, 83, 36, -36, -83, -83, -36, 36, 83,
    83, 36, -36, -83, -83, -36, 36, 83],
    [82, 22, -54, -90, -61, 13, 78, 85, 31, -46, -90, -67, 4, 73, 88, 38, -38, -88, -73, -4, 67, 90, 46, -31,
    -85, -78, -13, 61, 90, 54, -22, -82],
    [80, 9, -70, -87, -25, 57, 90, 43, -43, -90, -57, 25, 87, 70, -9, -80, -80, -9, 70, 87, 25, -57, -90, -43,
    43, 90, 57, -25, -87, -70, 9, 80],
    [78, -4, -82, -73, 13, 85, 67, -22, -88, -61, 31, 90, 54, -38, -90, -46, 46, 90, 38, -54, -90, -31, 61, 88,
    22, -67, -85, -13, 73, 82, 4, -78],
    [75, -18, -89, -50, 50, 89, 18, -75, -75, 18, 89, 50, -50, -89, -18, 75, 75, -18, -89, -50, 50, 89, 18, -75,
    -75, 18, 89, 50, -50, -89, -18, 75],
    [73, -31, -90, -22, 78, 67, -38, -90, -13, 82, 61, -46, -88, -4, 85, 54, -54, -85, 4, 88, 46, -61, -82, 13,
    90, 38, -67, -78, 22, 90, 31, -73],
    [70, -43, -87, 9, 90, 25, -80, -57, 57, 80, -25, -90, -9, 87, 43, -70, -70, 43, 87, -9, -90, -25, 80, 57,
    -57, -80, 25, 90, 9, -87, -43, 70],
    [67, -54, -78, 38, 85, -22, -90, 4, 90, 13, -88, -31, 82, 46, -73, -61, 61, 73, -46, -82, 31, 88, -13, -90,
    -4, 90, 22, -85, -38, 78, 54, -67] ]

/-- Rows 16 to 23 of `T32` of R142. -/
def table32c : Block :=
  [ [64, -64, -64, 64, 64, -64, -64, 64, 64, -64, -64, 64, 64, -64, -64, 64, 64, -64, -64, 64, 64, -64, -64, 64,
    64, -64, -64, 64, 64, -64, -64, 64],
    [61, -73, -46, 82, 31, -88, -13, 90, -4, -90, 22, 85, -38, -78, 54, 67, -67, -54, 78, 38, -85, -22, 90, 4,
    -90, 13, 88, -31, -82, 46, 73, -61],
    [57, -80, -25, 90, -9, -87, 43, 70, -70, -43, 87, 9, -90, 25, 80, -57, -57, 80, 25, -90, 9, 87, -43, -70,
    70, 43, -87, -9, 90, -25, -80, 57],
    [54, -85, -4, 88, -46, -61, 82, 13, -90, 38, 67, -78, -22, 90, -31, -73, 73, 31, -90, 22, 78, -67, -38, 90,
    -13, -82, 61, 46, -88, 4, 85, -54],
    [50, -89, 18, 75, -75, -18, 89, -50, -50, 89, -18, -75, 75, 18, -89, 50, 50, -89, 18, 75, -75, -18, 89, -50,
    -50, 89, -18, -75, 75, 18, -89, 50],
    [46, -90, 38, 54, -90, 31, 61, -88, 22, 67, -85, 13, 73, -82, 4, 78, -78, -4, 82, -73, -13, 85, -67, -22,
    88, -61, -31, 90, -54, -38, 90, -46],
    [43, -90, 57, 25, -87, 70, 9, -80, 80, -9, -70, 87, -25, -57, 90, -43, -43, 90, -57, -25, 87, -70, -9, 80,
    -80, 9, 70, -87, 25, 57, -90, 43],
    [38, -88, 73, -4, -67, 90, -46, -31, 85, -78, 13, 61, -90, 54, 22, -82, 82, -22, -54, 90, -61, -13, 78, -85,
    31, 46, -90, 67, 4, -73, 88, -38] ]

/-- Rows 24 to 31 of `T32` of R142. -/
def table32d : Block :=
  [ [36, -83, 83, -36, -36, 83, -83, 36, 36, -83, 83, -36, -36, 83, -83, 36, 36, -83, 83, -36, -36, 83, -83, 36,
    36, -83, 83, -36, -36, 83, -83, 36],
    [31, -78, 90, -61, 4, 54, -88, 82, -38, -22, 73, -90, 67, -13, -46, 85, -85, 46, 13, -67, 90, -73, 22, 38,
    -82, 88, -54, -4, 61, -90, 78, -31],
    [25, -70, 90, -80, 43, 9, -57, 87, -87, 57, -9, -43, 80, -90, 70, -25, -25, 70, -90, 80, -43, -9, 57, -87,
    87, -57, 9, 43, -80, 90, -70, 25],
    [22, -61, 85, -90, 73, -38, -4, 46, -78, 90, -82, 54, -13, -31, 67, -88, 88, -67, 31, 13, -54, 82, -90, 78,
    -46, 4, 38, -73, 90, -85, 61, -22],
    [18, -50, 75, -89, 89, -75, 50, -18, -18, 50, -75, 89, -89, 75, -50, 18, 18, -50, 75, -89, 89, -75, 50, -18,
    -18, 50, -75, 89, -89, 75, -50, 18],
    [13, -38, 61, -78, 88, -90, 85, -73, 54, -31, 4, 22, -46, 67, -82, 90, -90, 82, -67, 46, -22, -4, 31, -54,
    73, -85, 90, -88, 78, -61, 38, -13],
    [9, -25, 43, -57, 70, -80, 87, -90, 90, -87, 80, -70, 57, -43, 25, -9, -9, 25, -43, 57, -70, 80, -87, 90,
    -90, 87, -80, 70, -57, 43, -25, 9],
    [4, -13, 22, -31, 38, -46, 54, -61, 67, -73, 78, -82, 85, -88, 90, -90, 90, -90, 88, -85, 82, -78, 73, -67,
    61, -54, 46, -38, 31, -22, 13, -4] ]

/-- `T32` of R142. -/
def table32 : Block := table32a ++ table32b ++ table32c ++ table32d

/-- `DST4` of R143. -/
def tableDst : Block :=
  [ [29, 55, 74, 84], [74, 74, 0, -74], [84, -29, -74, 55], [55, -84, 74, -29] ]

end Sys2Proof.Machine.Claims

section

open Sys2Proof Sys2Proof.Machine Sys2Proof.Machine.Claims

/-! ### Encoding (30_encoding.md) -/

/-- The word of a well-formed command decodes to that command, with every field at every value its format admits
(R111, R112, R119). -/
def Obligations.DecodeOfEncodeIsIdentity : Prop :=
  ∀ i : Instr, i.wellFormed = true → decodeWord (encode i) = .ok i

/-- A word that decodes is the word of the command it decodes to, which is well formed: no two words are one command
(R120). -/
def Obligations.EncodeOfDecodeIsIdentity : Prop :=
  ∀ (w : Word) (i : Instr), decodeWord w = .ok i → encode i = w ∧ i.wellFormed = true

/-- Decoding, by the bits of the word (R112, R118, R119): an opcode above 0x0B is `ILLEGAL_OPCODE`, then a reserved bit, a
field outside the format, or a format-CT constraint is `RESERVED_FIELD`, and every other word is the command of its
opcode with its fields. -/
def Obligations.DecodeChecksFollowFormats : Prop :=
  ∀ w : Word,
    (0x0B < opOf w → decodeWord w = .error .illegalOpcode)
      ∧ (opOf w ≤ 0x0B → reservedBad w = true → decodeWord w = .error .reservedField)
      ∧ (opOf w ≤ 0x0B → reservedBad w = false → ∃ i, commandOf w = some i ∧ decodeWord w = .ok i)

/-- Every sample word of R124 decodes to the command or the error beside it. -/
def Obligations.SampleWordsDecode : Prop :=
  decodeWord 0x00000000#32 = .ok .nop ∧ decodeWord 0x04000000#32 = .ok .frameInit
    ∧ decodeWord 0x08000000#32 = .ok (.refbuild 0#2 false) ∧ decodeWord 0x08002000#32 = .ok (.refbuild 0#2 true)
    ∧ decodeWord 0x09000000#32 = .ok (.refbuild 1#2 false) ∧ decodeWord 0x0C040000#32 = .ok (.pred 0#2 1#6)
    ∧ decodeWord 0x0C680000#32 = .ok (.pred 0#2 26#6) ∧ decodeWord 0x0D8C0000#32 = .ok (.pred 1#2 35#6)
    ∧ decodeWord 0x10000000#32 = .ok (.resid 0#2)
    ∧ decodeWord 0x14280000#32 = .ok (.fdct 0#2 10#6 0#2 false false)
    ∧ decodeWord 0x14010000#32 = .ok (.fdct 0#2 0#6 1#2 false false)
    ∧ decodeWord 0x1402C000#32 = .ok (.fdct 0#2 0#6 2#2 true true)
    ∧ decodeWord 0x1A000000#32 = .ok (.quant 2#2) ∧ decodeWord 0x1C000000#32 = .ok (.dequant 0#2)
    ∧ decodeWord 0x20280000#32 = .ok (.idct 0#2 10#6 0#2 false false) ∧ decodeWord 0x25000000#32 = .ok (.recon 1#2)
    ∧ decodeWord 0x28000000#32 = .ok .mpm ∧ decodeWord 0x2C040000#32 = .ok (.histUpdate 1#6)
    ∧ decodeWord 0x2C680000#32 = .ok (.histUpdate 26#6)
    ∧ decodeWord 0x30000000#32 = .error .illegalOpcode ∧ decodeWord 0x00000001#32 = .error .reservedField
    ∧ decodeWord 0x04040000#32 = .error .reservedField ∧ decodeWord 0x14290000#32 = .error .reservedField
    ∧ decodeWord 0x03000000#32 = .error .reservedField

/-- Each legal word matches exactly one row of the opcode table (R120). -/
def Obligations.LegalWordMatchesOneRow : Prop :=
  ∀ (w : Word) (i : Instr), decodeWord w = .ok i →
    (opcodeRows.filter fun row => w &&& row.1 == row.2).length = 1

/-! ### The step (20_memory.md R93, R94; 60_exceptions.md R290, R291) -/

/-- With a pending word that decodes to `i`, and no host access that may overtake it, a step executes `i`. That an access
may overtake it only with latency left is the model's form of an unbounded latency (assumption 3). A step of another
build executes `i` on that build. -/
def Obligations.StepRunsDecodedCommand : Prop :=
  ∀ (s : State) (w : Word) (i : Instr), s.pending = some w → decodeWord w = .ok i → s.hostOvertakes = false →
    step s = exec i s ∧ ∀ p : BuildParams, stepIn p s = execIn p i s

/-- After `CMD` has been written and nothing else is waiting, the very next step executes the command, whatever its
latency. -/
def Obligations.WrittenCommandRuns : Prop :=
  ∀ (s : State) (w : Word) (i : Instr), s.pending = none → s.bus = [.write 0x00010#17 32 w] → decodeWord w = .ok i →
    ∃ t, step s = .next t ∧ t.pending = some w ∧ t.cmd = w ∧ t.mem = s.mem ∧ t.status = s.status ∧ step t = exec i t

/-- Who moves (R93, R94): with no command pending the host's oldest access is performed, or nothing happens; with one
pending, an access to any address but those of `ID`, `VERSION`, `STATUS` and `CTRL` is held, and a step that goes on has
completed the command; an access to one of the four may be performed first, and then the command is still pending
unless it was the soft reset. This on every build; `step` is `stepIn` of the default one. -/
def Obligations.HostAccessesHeldWhileBusy : Prop :=
  ∀ (p : BuildParams) (s : State),
    (s.pending = none → s.bus = [] → stepIn p s = .next s)
      ∧ (∀ a rest, s.pending = none → s.bus = a :: rest → stepIn p s = .next (State.perform { s with bus := rest } p a))
      ∧ (∀ w a rest t, s.pending = some w → s.bus = a :: rest →
          a.address.toNat ∉ [0x000, 0x004, 0x008, 0x00C] → stepIn p s = .next t → t.bus = s.bus ∧ t.pending = none)
      ∧ (∀ w a rest, s.pending = some w → s.bus = a :: rest → a.address.toNat ∈ [0x000, 0x004, 0x008, 0x00C] →
          s.latency ≠ 0 →
          stepIn p s = .next (State.perform { s with bus := rest, latency := s.latency - 1 } p a))

/-- A pending command completes: within one step more than there are waiting accesses, the slot has been emptied, unless
the model has faulted on an element without a value. R340 (70_reset_and_hazards.md) says that a command completes and
leaves its time unbounded; the number of steps is the model's own, that of its queue of accesses and its latency
(assumptions 2, 3). -/
def Obligations.PendingCommandCompletes : Prop :=
  ∀ s : State, s.pending.isSome = true → ∃ k ≤ s.bus.length + 1,
    (∃ t : State, Host.Core.run core k s = .next t ∧ t.pending = none)
      ∨ ∃ f : Fault, Host.Core.run core k s = .fault f

/-- Every waiting access is eventually performed (20_memory.md R94; 70_reset_and_hazards.md R340): two steps for each
access and one for a pending command empty the queue, unless the model has faulted. The rules bound no time; the number
of steps is the model's own, that of its queue of accesses and its latency (assumptions 2, 3). -/
def Obligations.EveryHostAccessIsPerformed : Prop :=
  ∀ s : State,
    (∃ t : State, Host.Core.run core (2 * s.bus.length + 1) s = .next t ∧ t.bus = [] ∧ t.pending = none)
      ∨ ∃ f : Fault, Host.Core.run core (2 * s.bus.length + 1) s = .fault f

/-- `CHECK` and the error's completion, on the bits of the pending word (R291, R292): the first row of the table that
fails gives the code, which is recorded with the word, and nothing else changes; when none fails, the word is a command,
the step executes it, and it records no error. -/
def Obligations.ChecksRunInTableOrder : Prop :=
  ∀ (s : State) (w : Word), s.pending = some w → s.hostOvertakes = false →
    (∀ code, firstFailing (checkTable s w) = some code → step s = .next (errored s code w))
      ∧ (firstFailing (checkTable s w) = none →
          (∃ i, commandOf w = some i ∧ step s = exec i s)
            ∧ ∀ t, step s = .next t → t.status.err = s.status.err ∧ t.status.errMulti = s.status.errMulti
                ∧ t.status.errcode = s.status.errcode ∧ t.errinfo = s.errinfo ∧ t.status.done = true
                ∧ t.pending = none)

/-! ### The commands -/

/-- `NOP` in every state only completes, whatever `CU_CFG` holds; its only error is a non-zero bit in 25:0
(44_mpm_control.md R274). -/
def Obligations.NopOnlyCompletes : Prop :=
  (∀ s : State, exec .nop s = .next (completedWith s s.mem))
    ∧ decodeWord 0#32 = .ok .nop
    ∧ ∀ w : Word, opOf w = 0 → w.toNat % 2 ^ 26 ≠ 0 → decodeWord w = .error .reservedField

/-- `FRAME_INIT` (44_mpm_control.md R270; 60_exceptions.md R291): with a failing check the error is recorded and nothing
else changes; otherwise both mode histories are 0xFF, `CU_POS` and `FRAME_END` are 0, and nothing else changes. It
computes from no storage element, so it never faults. -/
def Obligations.FrameInitResult : Prop :=
  ∀ s : State,
    (∀ code, firstFailing (checks s .frameInit) = some code →
        exec .frameInit s = .next (errored s code 0x04000000#32))
      ∧ (firstFailing (checks s .frameInit) = none → ∃ t, exec .frameInit s = .next t
          ∧ KeepsOutside s t (writesOf s .frameInit)
          ∧ t = { s with
              mem := t.mem
              cuPos := 0#32
              status := { s.status with done := true, frameEnd := false }
              pending := none }
          ∧ (∀ k ≤ 1024, t.elem? .topMode k = some 0xFF) ∧ t.elem? .leftMode 0 = some 0xFF
          ∧ t.elem? .leftMode 1 = some 0xFF)

/-- `REFBUILD` (42_refbuild.md R190-R197, R200-R202): the border with its substitution, its smoothed copy for luma, the LM
border for chroma, and `AVAIL`. -/
def Obligations.RefbuildResult : Prop :=
  ∀ (c : BitVec 2) (aovr : Bool) (s : State), Rule (.refbuild c aovr) s fun t =>
    let k := compOf c
    let n := s.sizeOf k
    Completed s t { s.res with avail := some (availWord s k aovr) }
      ∧ (∀ i ≤ 4 * n, t.elem? (.ref k) i = some (borderAt s k aovr i))
      ∧ (c.toNat = 0 → ∀ i ≤ 4 * n, t.elem? .reff0 i = some (smoothedAt n (borderAt s k aovr) i))
      ∧ (c.toNat ≠ 0 → ∀ i < 2 * n, t.elem? .lmref i = some (lmBorderAt s k aovr i))

/-- `PRED` in mode 0 (43_intrapred.md R221, R223). -/
def Obligations.PredPlanarResult : Prop :=
  ∀ (c : BitVec 2) (s : State), Rule (.pred c 0#6) s fun t =>
    WroteBlock s t (.buf .pred (compOf c)) (s.sizeOf (compOf c)) s.res
      (planarAt (borderSample s (compOf c) 0) (s.sizeOf (compOf c)))

/-- `PRED` in mode 1 (43_intrapred.md R221, R226, R227), the edge filter on every luma size: the default of
`EDGE_FILT_MAX_LOG2` (assumption 8). -/
def Obligations.PredDcResult : Prop :=
  ∀ (c : BitVec 2) (s : State), Rule (.pred c 1#6) s fun t =>
    WroteBlock s t (.buf .pred (compOf c)) (s.sizeOf (compOf c)) s.res
      (dcPredAt (decide (compOf c = .y)) (borderSample s (compOf c) 1) (s.sizeOf (compOf c)))

/-- `PRED` in modes 2 to 34 (43_intrapred.md R221, R224, R225, R228-R232), the boundary filter on every luma size. -/
def Obligations.PredAngularResult : Prop :=
  ∀ (c : BitVec 2) (mode : BitVec 6) (s : State), 2 ≤ mode.toNat → mode.toNat ≤ 34 → Rule (.pred c mode) s fun t =>
    WroteBlock s t (.buf .pred (compOf c)) (s.sizeOf (compOf c)) s.res
      (angularAt (decide (compOf c = .y)) (borderSample s (compOf c) mode.toNat) (s.sizeOf (compOf c)) mode.toNat)

/-- `PRED` in mode 35 (43_intrapred.md R240-R249): the fitted parameters in `LM_A`, `LM_B`, `LM_SHIFT`, and the
prediction from the reconstructed luma. -/
def Obligations.PredLmResult : Prop :=
  ∀ (c : BitVec 2) (s : State), Rule (.pred c 35#6) s fun t =>
    let fit := lmParamsOf s (compOf c)
    WroteBlock s t (.buf .pred (compOf c)) (s.sizeOf (compOf c))
      { s.res with
        lmA := some (BitVec.ofInt 32 fit.1)
        lmB := some (BitVec.ofInt 32 fit.2.1)
        lmShift := some (BitVec.ofNat 4 fit.2.2) }
      (lmPredAt s fit)

/-- `PRED` on every build (00_scope.md R7; 43_intrapred.md R220-R222, R227, R232, R246, R247): the build's `INTRA_FILTER`
selects the border, its `EDGE_FILT_MAX_LOG2` the luma sizes of the edge filters, its `LM_PARAMS` the fit. That every
element of the "Reads" line must have a value is assumption 6; what the LM registers keep of a fit that does not fit in them
is assumption 23. -/
def Obligations.PredOnEveryBuild : Prop :=
  ∀ (p : BuildParams) (c : BitVec 2) (mode : BitVec 6) (s : State),
    CommandRule (.pred c mode) s (execIn p (.pred c mode) s) (checks s (.pred c mode))
      (predReadsOn p s (compOf c) mode.toNat) (writesOf s (.pred c mode)) fun t =>
        let k := compOf c
        let n := s.sizeOf k
        let fit := lmParamsOn p s k
        (mode.toNat ≤ 34 → WroteBlock s t (.buf .pred k) n s.res (predictedOn p s k mode.toNat))
          ∧ (mode.toNat = 35 → WroteBlock s t (.buf .pred k) n
              { s.res with
                lmA := some (BitVec.ofInt 32 fit.1)
                lmB := some (BitVec.ofInt 32 fit.2.1)
                lmShift := some (BitVec.ofNat 4 fit.2.2) }
              (lmPredAt s fit))

/-- `RESID` (44_mpm_control.md R264). -/
def Obligations.ResidResult : Prop :=
  ∀ (c : BitVec 2) (s : State), Rule (.resid c) s fun t =>
    WroteBlock s t (.buf .resi (compOf c)) (s.sizeOf (compOf c)) s.res fun y x =>
      s.val (.buf .org (compOf c)) (at2 y x) - s.val (.buf .pred (compOf c)) (at2 y x)

/-- `FDCT` (40_transform.md R145-R147). -/
def Obligations.FdctResult : Prop :=
  ∀ (c : BitVec 2) (mode : BitVec 6) (tt : BitVec 2) (dsth dstv : Bool) (s : State),
    Rule (.fdct c mode tt dsth dstv) s fun t =>
      let k := compOf c
      let n := s.sizeOf k
      WroteBlock s t (.buf .coef k) n s.res
        (forwardAt n (passMatrix (isDst s k s.cfg.dstH mode tt dsth) n) (passMatrix (isDst s k s.cfg.dstV mode tt dstv) n)
          fun y x => s.val (.buf .resi k) (at2 y x))

/-- `IDCT` (40_transform.md R145, R148, R149). -/
def Obligations.IdctResult : Prop :=
  ∀ (c : BitVec 2) (mode : BitVec 6) (tt : BitVec 2) (dsth dstv : Bool) (s : State),
    Rule (.idct c mode tt dsth dstv) s fun t =>
      let k := compOf c
      let n := s.sizeOf k
      WroteBlock s t (.buf .rres k) n s.res
        (inverseAt n (passMatrix (isDst s k s.cfg.dstH mode tt dsth) n) (passMatrix (isDst s k s.cfg.dstV mode tt dstv) n)
          fun v u => s.val (.buf .dq k) (at2 v u))

/-- `QUANT` (41_quant.md R170, R172-R175, R179): the signed levels, which need no saturation, their sum in `NZSUM`, and bit
`c` of `CBF`. -/
def Obligations.QuantResult : Prop :=
  ∀ (c : BitVec 2) (s : State), Rule (.quant c) s fun t =>
    let k := compOf c
    let coded := some (decide (levelTotal s k ≠ 0))
    WroteBlock s t (.buf .qcoef k) (s.sizeOf k)
      { s.res with
        nzsum := some (BitVec.ofNat 32 (levelTotal s k))
        cbfY := if c.toNat = 0 then coded else s.res.cbfY
        cbfU := if c.toNat = 1 then coded else s.res.cbfU
        cbfV := if c.toNat = 2 then coded else s.res.cbfV }
      fun v u => if s.val (.buf .coef k) (at2 v u) < 0 then -(levelAt s k v u : Int) else (levelAt s k v u : Int)

/-- `DEQUANT` (41_quant.md R171, R172, R176, R178). -/
def Obligations.DequantResult : Prop :=
  ∀ (c : BitVec 2) (s : State), Rule (.dequant c) s fun t =>
    let k := compOf c
    WroteBlock s t (.buf .dq k) (s.sizeOf k) s.res fun v u =>
      scaledAt (s.val (.buf .qcoef k) (at2 v u)) (qpFor s k) (s.lgOf k)

/-- `RECON` (44_mpm_control.md R265). -/
def Obligations.ReconResult : Prop :=
  ∀ (c : BitVec 2) (s : State), Rule (.recon c) s fun t =>
    WroteBlock s t (.buf .reco (compOf c)) (s.sizeOf (compOf c)) s.res fun y x =>
      toSample (s.val (.buf .pred (compOf c)) (at2 y x) + s.val (.buf .rres (compOf c)) (at2 y x))

/-- `MPM` (44_mpm_control.md R260-R262): the three candidates of the left and the top mode; no storage changes. -/
def Obligations.MpmResult : Prop :=
  ∀ s : State, Rule .mpm s fun t =>
    let m := mpmOf (orDc (s.val .leftMode 0)) (orDc (s.val .topMode s.col))
    t.mem = s.mem ∧ Completed s t { s.res with
      mpm := some ⟨BitVec.ofNat 6 (m.getD 0 0), BitVec.ofNat 6 (m.getD 1 0), BitVec.ofNat 6 (m.getD 2 0)⟩ }

/-- `HIST_UPDATE` (44_mpm_control.md R266-R269, R272, R273): corner, pixel and LM histories, mode histories, and the
advance. Copied elements carry their lack of a value with them. -/
def Obligations.HistUpdateResult : Prop :=
  ∀ (mode : BitVec 6) (s : State), Rule (.histUpdate mode) s fun t =>
    HistoriesMoved s t .y
      ∧ (s.cfg.cuLog2.toNat ≠ 2 → HistoriesMoved s t .u ∧ HistoriesMoved s t .v ∧ LmMoved s t)
      ∧ t.elem? .topMode s.col = some (mode.toNat : Int)
      ∧ t.elem? .leftMode 0 = some (if lastInRow s then 0xFF else (mode.toNat : Int))
      ∧ t = { s with
          mem := t.mem
          cuPos := nextPos s
          status := { s.status with done := true, frameEnd := s.status.frameEnd || (lastInRow s && inLastRow s) }
          pending := none }

/-! ### Properties the rules state of the results -/

/-- After an `MPM` without an error the three candidates are pairwise distinct, each at most 34, and the first is the left
mode as R260 substitutes it (44_mpm_control.md R263). The exception is R260's own: with both modes DC the first is 0, which
R263's words "the first result is always the (substituted) left mode" overlook (assumption 22). -/
def Obligations.MpmCandidatesDistinct : Prop :=
  ∀ s t : State, firstFailing (checks s .mpm) = none → exec .mpm s = .next t →
    ∃ m : MpmReg, t.res.mpm = some m ∧ m.mpm0 ≠ m.mpm1 ∧ m.mpm0 ≠ m.mpm2 ∧ m.mpm1 ≠ m.mpm2
      ∧ m.mpm0.toNat ≤ 34 ∧ m.mpm1.toNat ≤ 34 ∧ m.mpm2.toNat ≤ 34
      ∧ m.mpm0.toNat = (if orDc (s.val .leftMode 0) = 1 ∧ orDc (s.val .topMode s.col) = 1 then 0
          else orDc (s.val .leftMode 0))

/-- From one state, `REFBUILD` computes the same five flags on every component (42_refbuild.md R203). -/
def Obligations.AvailabilitySameForAllComponents : Prop :=
  ∀ (c d : BitVec 2) (aovr : Bool) (s t u : State), firstFailing (checks s (.refbuild c aovr)) = none →
    firstFailing (checks s (.refbuild d aovr)) = none → exec (.refbuild c aovr) s = .next t →
    exec (.refbuild d aovr) s = .next u → t.res.avail = u.res.avail

/-- Totality (42_refbuild.md R204): after a `REFBUILD` without an error the border is padded without a gap by the five flags
of `AVAIL`, and for chroma the LM border by `L` (bit 1) and `T` (bit 3) alone. -/
def Obligations.BorderLeavesNoGap : Prop :=
  ∀ (c : BitVec 2) (aovr : Bool) (s t : State), firstFailing (checks s (.refbuild c aovr)) = none →
    exec (.refbuild c aovr) s = .next t →
    let k := compOf c
    let n := s.sizeOf k
    ∃ v : BitVec 5, t.res.avail = some v
      ∧ PaddedWithoutGap t (.ref k) (4 * n + 1) (fun i => v.getLsbD (segmentBit n i)) (historySample s k)
      ∧ (c.toNat ≠ 0 →
          PaddedWithoutGap t .lmref (2 * n) (fun i => v.getLsbD (if i < n then 1 else 3)) (lmHistorySample s k))

/-- Every output of planar, DC and the angular modes is a sample before it is stored, for every block size, border of
samples, component and build of the block, and so is every output of LM for every fit (43_intrapred.md R234). -/
def Obligations.PredictionsAreSamples : Prop :=
  (∀ (p : BuildParams) (r : List Int) (lg m : Nat) (c : Comp), 2 ≤ lg → lg ≤ 5 → m ≤ 34 →
      r.length = 4 * 2 ^ lg + 1 → (∀ v ∈ r, 0 ≤ v ∧ v ≤ 255) →
      ∀ y < 2 ^ lg, ∀ x < 2 ^ lg,
        0 ≤ (predictBlock p r (2 ^ lg) lg m c).get y x ∧ (predictBlock p r (2 ^ lg) lg m c).get y x ≤ 255)
    ∧ ∀ (s : State) (fit : Int × Int × Nat) (n : Nat), ∀ y < n, ∀ x < n,
      0 ≤ (s.lmPredict n fit).get y x ∧ (s.lmPredict n fit).get y x ≤ 255

/-- The named predictors (43_intrapred.md R233), before the boundary filter: what the angular predictor gives on chroma. -/
def Obligations.NamedDirectionalPredictors : Prop :=
  ∀ (p : BuildParams) (r : List Int) (lg : Nat), 2 ≤ lg → lg ≤ 5 → r.length = 4 * 2 ^ lg + 1 →
    ∀ y < 2 ^ lg, ∀ x < 2 ^ lg,
      (angularPredict p r (2 ^ lg) lg 26 .u).get y x = topSample r (2 ^ lg) x
        ∧ (angularPredict p r (2 ^ lg) lg 10 .u).get y x = leftSample r (2 ^ lg) y
        ∧ (angularPredict p r (2 ^ lg) lg 2 .u).get y x = leftSample r (2 ^ lg) (x + y + 1)
        ∧ (angularPredict p r (2 ^ lg) lg 34 .u).get y x = topSample r (2 ^ lg) (x + y + 1)
        ∧ (angularPredict p r (2 ^ lg) lg 18 .u).get y x
            = (if y < x then topSample r (2 ^ lg) (x - y - 1)
              else if x < y then leftSample r (2 ^ lg) (y - x - 1)
              else cornerSample r (2 ^ lg))

/-- The default fit keeps the slope in -64..63 and the shift in 4..13, whatever the two borders hold
(43_intrapred.md R243, R244). -/
def Obligations.LmParametersBounded : Prop :=
  ∀ (lg : Nat) (m r : List Int), 2 ≤ lg → lg ≤ 4 →
    -64 ≤ (lmParamsDefault (2 ^ lg) m r).1 ∧ (lmParamsDefault (2 ^ lg) m r).1 ≤ 63
      ∧ 4 ≤ (lmParamsDefault (2 ^ lg) m r).2.2 ∧ (lmParamsDefault (2 ^ lg) m r).2.2 ≤ 13

/-- Levels are at most 13107 and a block's sum is below 2^24, so the 16-bit saturation of `QUANTIZE` changes nothing; a
zero block is quantized to a zero block with sum 0 and dequantized to a zero block (41_quant.md R180). -/
def Obligations.QuantizerBounds : Prop :=
  (∀ (y : Block) (slice : BitVec 2) (qp lg : Nat), 2 ≤ lg → lg ≤ 5 → qp ≤ 51 →
      (∀ v < 2 ^ lg, ∀ u < 2 ^ lg, -32768 ≤ y.get v u ∧ y.get v u ≤ 32767) →
      (∀ v < 2 ^ lg, ∀ u < 2 ^ lg,
        0 ≤ quantLevel (y.get v u) slice qp lg ∧ quantLevel (y.get v u) slice qp lg ≤ 13107
          ∧ (quantize y (2 ^ lg) slice qp lg).get v u
              = (if y.get v u < 0 then -quantLevel (y.get v u) slice qp lg
                else quantLevel (y.get v u) slice qp lg))
        ∧ 0 ≤ quantSum y (2 ^ lg) slice qp lg ∧ quantSum y (2 ^ lg) slice qp lg < 2 ^ 24)
    ∧ ∀ (y : Block) (slice : BitVec 2) (qp lg : Nat), 2 ≤ lg → lg ≤ 5 → qp ≤ 51 →
      (∀ v < 2 ^ lg, ∀ u < 2 ^ lg, y.get v u = 0) →
      quantSum y (2 ^ lg) slice qp lg = 0
        ∧ ∀ v < 2 ^ lg, ∀ u < 2 ^ lg,
          (quantize y (2 ^ lg) slice qp lg).get v u = 0 ∧ (dequantize y (2 ^ lg) qp lg).get v u = 0

/-- The matrices of the two transforms are the tables of 40_transform.md R142 and R143. -/
def Obligations.BasisMatricesMatchTables : Prop :=
  (∀ k < 4, ∀ n < 4, passMatrix false 4 k n = table4.get k n)
    ∧ (∀ k < 8, ∀ n < 8, passMatrix false 8 k n = table8.get k n)
    ∧ (∀ k < 16, ∀ n < 16, passMatrix false 16 k n = table16.get k n)
    ∧ (∀ k < 32, ∀ n < 32, passMatrix false 32 k n = table32.get k n)
    ∧ ∀ k < 4, ∀ n < 4, passMatrix true 4 k n = tableDst.get k n

/-- For residuals of magnitude at most 255 no value of the forward transform wraps: with DCT passes both stay within
32640, which a constant block of 255 or -255 at `n` = 32 reaches; with two DST passes at `n` = 4 the first stays within
30855 and the output within 29168 (40_transform.md R151). -/
def Obligations.ForwardNeverWrapsOnResiduals : Prop :=
  (∀ (lg : Nat) (dstH dstV : Bool) (x : Nat → Nat → Int), 2 ≤ lg → lg ≤ 5 → ((dstH = true ∨ dstV = true) → lg = 2) →
      (∀ i < 2 ^ lg, ∀ j < 2 ^ lg, -255 ≤ x i j ∧ x i j ≤ 255) →
      ∀ v < 2 ^ lg, ∀ u < 2 ^ lg,
        |rowSum (2 ^ lg) (passMatrix dstH (2 ^ lg)) x v u| ≤ (if dstH then 30855 else 32640)
          ∧ |columnSum (2 ^ lg) (passMatrix dstV (2 ^ lg)) (rowSum (2 ^ lg) (passMatrix dstH (2 ^ lg)) x) v u|
              ≤ (if dstH ∧ dstV then 29168 else 32640)
          ∧ forwardAt (2 ^ lg) (passMatrix dstH (2 ^ lg)) (passMatrix dstV (2 ^ lg)) x v u
              = columnSum (2 ^ lg) (passMatrix dstV (2 ^ lg)) (rowSum (2 ^ lg) (passMatrix dstH (2 ^ lg)) x) v u)
    ∧ forwardAt 32 (passMatrix false 32) (passMatrix false 32) (fun _ _ => 255) 0 0 = 32640
    ∧ forwardAt 32 (passMatrix false 32) (passMatrix false 32) (fun _ _ => -255) 0 0 = -32640

/-! ### The host side -/

/-- A lane pair written by the host gives its elements their values and reads back as they hold it, whatever was there
before; a reserved lane reads 0 and its write is ignored; no element outside the pair, no register and no flag changes
(20_memory.md R85-R87). -/
def Obligations.LaneWriteReadsBack : Prop :=
  ∀ (p : BuildParams) (s : State) (a : Arr) (e : Nat) (v : Word), e % 2 = 0 → e < a.size →
    let t := s.hostWrite p (BitVec.ofNat 17 (windowBase a + 2 * e)) 32 v
    (t.hostRead (BitVec.ofNat 17 (windowBase a + 2 * e)) 32).response
        = some ⟨false, laneBack a (e + 1) (v.extractLsb' 16 16) ++ laneBack a e (v.extractLsb' 0 16)⟩
      ∧ t.elem? a e = some (laneElement a (v.extractLsb' 0 16))
      ∧ (e + 1 < a.size → t.elem? a (e + 1) = some (laneElement a (v.extractLsb' 16 16)))
      ∧ (∀ b f, f < b.size → ¬ (b = a ∧ (f = e ∨ f = e + 1)) → t.elem? b f = s.elem? b f)
      ∧ ∃ r, t = { s with mem := t.mem, response := some r }

/-- An access that is not served answers a bus error, 0 for a read, and changes nothing; one that is served answers
without an error (20_memory.md R82, R88, R89; 60_exceptions.md R298). -/
def Obligations.BusErrorsExactlyOutsideMap : Prop :=
  ∀ (p : BuildParams) (s : State) (addr : BitVec 17) (bits : Nat) (v : Word),
    (served addr bits = false →
      s.hostRead addr bits = { s with response := some ⟨true, 0#32⟩ }
        ∧ ∃ d, s.hostWrite p addr bits v = { s with response := some ⟨true, d⟩ })
      ∧ (served addr bits = true →
        (∃ d, (s.hostRead addr bits).response = some ⟨false, d⟩)
          ∧ ∃ d, (s.hostWrite p addr bits v).response = some ⟨false, d⟩)

/-- A host read changes no register and no storage (20_memory.md R83, R90), whatever it answers. The counter of the free
values is the model's own (assumption 4). -/
def Obligations.HostReadsChangeNothing : Prop :=
  ∀ (s : State) (addr : BitVec 17) (bits : Nat),
    ∃ r d, s.hostRead addr bits = { s with response := some r, draws := d }

/-- What a read of each register answers (10_state.md R33-R47; 20_memory.md R83): the constants, the fields of `STATUS` and
of the host's registers at their bits, and each result register while it has a value, of `CBF` each bit by itself. -/
def Obligations.HostReadsAnswerRegisters : Prop :=
  ∀ s : State,
    wordAt s 0x000 = some 0x58323635#32 ∧ wordAt s 0x004 = some 0x00010000#32
      ∧ wordAt s 0x008 = some (BitVec.ofNat 32 (s.pending.isSome.toNat + 2 * s.status.done.toNat + 4 * s.status.err.toNat
          + 8 * s.status.errMulti.toNat + 16 * s.status.frameEnd.toNat + 256 * s.status.errcode.toNat))
      ∧ wordAt s 0x00C = some (BitVec.ofNat 32 s.cfg.irqEn.toNat)
      ∧ wordAt s 0x010 = some s.cmd ∧ wordAt s 0x014 = some s.errinfo ∧ wordAt s 0x018 = some s.cfg.picSize
      ∧ wordAt s 0x01C = some (BitVec.ofNat 32 s.cfg.cuLog2.toNat) ∧ wordAt s 0x020 = some s.cuPos
      ∧ wordAt s 0x024 = some (BitVec.ofNat 32 (s.cfg.qpY.toNat + 256 * s.cfg.qpC.toNat))
      ∧ wordAt s 0x028 = some (BitVec.ofNat 32 s.cfg.slice.toNat)
      ∧ wordAt s 0x02C = some (maskWords s.cfg.dstH).1 ∧ wordAt s 0x030 = some (maskWords s.cfg.dstH).2
      ∧ wordAt s 0x034 = some (maskWords s.cfg.dstV).1 ∧ wordAt s 0x038 = some (maskWords s.cfg.dstV).2
      ∧ wordAt s 0x03C = some (BitVec.ofNat 32 s.cfg.availOvr.toNat)
      ∧ (∀ v, s.res.avail = some v → wordAt s 0x040 = some (BitVec.ofNat 32 v.toNat))
      ∧ (∀ v, s.res.nzsum = some v → wordAt s 0x044 = some v)
      ∧ (∃ w, wordAt s 0x048 = some w
          ∧ (∀ v, s.res.cbfY = some v → w.getLsbD 0 = v)
          ∧ (∀ v, s.res.cbfU = some v → w.getLsbD 1 = v)
          ∧ ∀ v, s.res.cbfV = some v → w.getLsbD 2 = v)
      ∧ (∀ m, s.res.mpm = some m →
          wordAt s 0x04C = some (BitVec.ofNat 32 (m.mpm0.toNat + 256 * m.mpm1.toNat + 65536 * m.mpm2.toNat)))
      ∧ (∀ v, s.res.lmA = some v → wordAt s 0x050 = some v)
      ∧ (∀ v, s.res.lmB = some v → wordAt s 0x054 = some v)
      ∧ ∀ v, s.res.lmShift = some v → wordAt s 0x058 = some (BitVec.ofNat 32 v.toNat)

/-- What a read of a lane pair answers (20_memory.md R81, R83, R85, R87), whoever wrote its elements: the lower element in
bits 15:0, the higher in bits 31:16, a sample or mode (a value 0..255) zero-extended, a coefficient as its 16 bits in two's
complement, a reserved lane as 0. A lane whose element has no value reads as anything (R92). -/
def Obligations.HostReadsAnswerLanes : Prop :=
  ∀ (s : State) (a : Arr) (e : Nat), e % 2 = 0 → e < a.size →
    ∃ hi lo : BitVec 16,
      (s.hostRead (BitVec.ofNat 17 (windowBase a + 2 * e)) 32).response = some ⟨false, hi ++ lo⟩
        ∧ (∀ v, s.elem? a e = some v → lo = BitVec.ofInt 16 v ∧ (a.kind ≠ .coefficient → 0 ≤ v ∧ v ≤ 255))
        ∧ (e + 1 < a.size → ∀ v, s.elem? a (e + 1) = some v →
            hi = BitVec.ofInt 16 v ∧ (a.kind ≠ .coefficient → 0 ≤ v ∧ v ≤ 255))
        ∧ (a.size ≤ e + 1 → hi = 0#16)

/-- A read-write register reads back exactly the bits written to it, its reserved bits as 0; the write changes its field and
nothing else of the state, and so does a `CTRL` write without the soft reset; a write of a read-only register changes
nothing; reserved bits read 0 in every state, in a result register whenever that register has a value, in `CBF` whenever its
three bits have (10_state.md R56). -/
def Obligations.RegistersHoldWrittenBits : Prop :=
  (∀ reg ∈ heldRegisters, ∀ (p : BuildParams) (s : State) (v : Word),
      let t := s.hostWrite p (BitVec.ofNat 17 reg.1) 32 v
      wordAt t reg.1 = some (v &&& reg.2)
        ∧ ∀ other ∈ heldRegisters, other.1 ≠ reg.1 → wordAt t other.1 = wordAt s other.1)
    ∧ (∀ (p : BuildParams) (s : State) (v : Word), ∀ w ∈ fieldWritten s v,
        ∃ r, s.hostWrite p (BitVec.ofNat 17 w.1) 32 v = { w.2 with response := some r })
    ∧ (∀ (p : BuildParams) (s : State) (v : Word), v.getLsbD 31 = false →
        wordAt (s.hostWrite p 0x0000C#17 32 v) 0x00C = some (v &&& 1#32)
          ∧ ∃ r, s.hostWrite p 0x0000C#17 32 v
              = { s with cfg := { s.cfg with irqEn := decide (v.toNat % 2 = 1) }, response := some r })
    ∧ (∀ reg ∈ readOnlyRegisters, ∀ (p : BuildParams) (s : State) (v : Word),
        ∃ r, s.hostWrite p (BitVec.ofNat 17 reg) 32 v = { s with response := some r })
    ∧ (∀ reg ∈ reservedBits, ∀ s : State, (wordAt s reg.1).map (· &&& reg.2) = some 0#32)
    ∧ (∀ s : State, s.res.avail ≠ none → (wordAt s 0x040).map (· &&& 0xFFFFFFE0#32) = some 0#32)
    ∧ (∀ s : State, s.res.cbfY ≠ none → s.res.cbfU ≠ none → s.res.cbfV ≠ none →
        (wordAt s 0x048).map (· &&& 0xFFFFFFF8#32) = some 0#32)
    ∧ (∀ s : State, s.res.mpm ≠ none → (wordAt s 0x04C).map (· &&& 0xFFC0C0C0#32) = some 0#32)
    ∧ ∀ s : State, s.res.lmShift ≠ none → (wordAt s 0x058).map (· &&& 0xFFFFFFF0#32) = some 0#32

/-- A write of `STATUS` (10_state.md R34; 60_exceptions.md R300): bit 1 clears `DONE`; bit 2 clears `ERR`, `ERR_MULTI` and
`ERRCODE`; bit 3 clears `ERR_MULTI`; nothing else changes, `ERRINFO` included. -/
def Obligations.StatusWriteClearsBits : Prop :=
  ∀ (p : BuildParams) (s : State) (v : Word), ∃ r, s.hostWrite p 0x00008#17 32 v = { s with
    status :=
      { done := s.status.done && decide (v.toNat / 2 % 2 = 0)
        err := s.status.err && decide (v.toNat / 4 % 2 = 0)
        errMulti := s.status.errMulti && decide (v.toNat / 4 % 2 = 0 ∧ v.toNat / 8 % 2 = 0)
        frameEnd := s.status.frameEnd
        errcode := if v.toNat / 4 % 2 = 0 then s.status.errcode else 0#4 }
    response := some r }

/-- A word written to `CMD` while no command is pending is accepted at once, legal or not: it is pending, `CMD` reads it,
`BUSY` is set, and the other `STATUS` bits and all storage are as before. While one is pending, a `CMD` write is held: no
step performs it, so no word is lost or overwritten (60_exceptions.md R290; 20_memory.md R94). That a write to the address
of `CMD` of another width than 32 bits, which issues no command, is held as well is the model's reading (assumption 13). -/
def Obligations.CmdWriteIsAccepted : Prop :=
  (∀ (p : BuildParams) (s : State) (w : Word), s.pending = none →
      let t := s.hostWrite p 0x00010#17 32 w
      t.pending = some w ∧ wordAt t 0x010 = some w ∧ wordAt t 0x008 = (wordAt s 0x008).map (· ||| 1#32)
        ∧ t.status = s.status ∧ t.mem = s.mem ∧ t.res = s.res ∧ t.cfg = s.cfg ∧ t.cuPos = s.cuPos
        ∧ t.errinfo = s.errinfo ∧ t.bus = s.bus)
    ∧ ∀ (p : BuildParams) (s t : State) (w v : Word) (bits : Nat) (rest : List HostAccess), s.pending = some w →
      s.bus = .write 0x00010#17 bits v :: rest → stepIn p s = .next t → t.bus = s.bus ∧ t.cmd = s.cmd

/-- The interrupt output (60_exceptions.md R297) is `IRQ_EN` and one of `DONE` and `ERR`, read from the registers, so
every completed command raises it while `IRQ_EN` is set, and a `STATUS` write with bits 1 and 2 set clears it. -/
def Obligations.CompletionRaisesInterrupt : Prop :=
  (∀ s : State, s.irq = ((s.readReg 0#32 .ctrl).getLsbD 0
      && ((s.readReg 0#32 .status).getLsbD 1 || (s.readReg 0#32 .status).getLsbD 2)))
    ∧ (∀ (i : Instr) (s t : State), exec i s = .next t → t.irq = s.cfg.irqEn)
    ∧ ∀ (p : BuildParams) (s : State) (v : Word), v.getLsbD 1 = true → v.getLsbD 2 = true →
      (s.hostWrite p 0x00008#17 32 v).irq = false

/-- The soft reset (70_reset_and_hazards.md R322): a write of `CTRL` with bit 31 set, whatever its other bits, sets every
register to its reset value, the DST masks to the build's parameters, and empties the pending slot; an abandoned
command's outputs, and nothing else, are left without a value. The model's own readings: a result register of an abandoned
command has no value although R322 also sets every register (assumption 9); CU_POS and FRAME_END take their reset values
(assumption 10); of `CBF` an abandoned `QUANT` leaves only the bit of its own component without a value, and the two others
are 0 (assumption 20, a DESIGN CHOICE). -/
def Obligations.SoftResetState : Prop :=
  ∀ (p : BuildParams) (s : State) (v : Word), v.getLsbD 31 = true →
    let t := s.hostWrite p 0x0000C#17 32 v
    (∃ r, t = { State.resetIn p with mem := t.mem, res := t.res, draws := s.draws, bus := s.bus, response := some r })
      ∧ ((∀ i, ¬ Abandons s i) → t.mem = s.mem ∧ t.res = Results.reset)
      ∧ ∀ i, Abandons s i → t.res = resultsWithout i ∧ ∀ a e, e < a.size →
          (Within (writesOf s i) a e → t.elem? a e = none)
            ∧ (¬ Within (writesOf s i) a e → t.elem? a e = s.elem? a e)

/-- After a soft reset every command but `NOP` completes with an error, until the host configures the size again
(70_reset_and_hazards.md R323). -/
def Obligations.AfterSoftResetOnlyNopSucceeds : Prop :=
  ∀ (p : BuildParams) (s : State) (v : Word) (i : Instr), v.getLsbD 31 = true → i ≠ .nop →
    let u := s.hostWrite p 0x0000C#17 32 v
    ∃ t, exec i u = .next t ∧ execIn p i u = .next t ∧ t.status.err = true ∧ t.mem = u.mem

/-- Power-on reset (70_reset_and_hazards.md R320; 10_state.md R36, R58): every register reads its value of 10_state.md
R32, on a build the DST masks their parameters, no command is pending, the interrupt is deasserted, and no storage element
has a value. -/
def Obligations.PowerOnResetState : Prop :=
  (∀ reg ∈ resetWords, wordAt State.reset reg.1 = some reg.2)
    ∧ ∀ p : BuildParams,
      let s := State.resetIn p
      (∀ reg ∈ resetWords, reg.1 ∉ dstMaskRegisters → wordAt s reg.1 = some reg.2)
        ∧ wordAt s 0x02C = some (maskWords p.dstHReset).1 ∧ wordAt s 0x030 = some (maskWords p.dstHReset).2
        ∧ wordAt s 0x034 = some (maskWords p.dstVReset).1 ∧ wordAt s 0x038 = some (maskWords p.dstVReset).2
        ∧ s.pending = none ∧ s.irq = false ∧ ∀ a e, s.elem? a e = none

/-- The parameters of a build (10_state.md R59) show in the execution of a `PRED` and in a reset only: a step that does not
execute a `PRED` (nothing is pending, another word is, or an access overtakes it) and does not perform a soft reset (a command
is executed, or the oldest access is not that write) is a step of the default build. -/
def Obligations.BuildsDifferOnlyInPredAndResets : Prop :=
  ∀ (p : BuildParams) (s : State),
    (∀ w c mode, s.pending = some w → s.hostOvertakes = false → decodeWord w ≠ .ok (.pred c mode)) →
    (s.pending = none ∨ s.hostOvertakes = true →
      ∀ v rest, s.bus = .write 0x0000C#17 32 v :: rest → v.getLsbD 31 = false) →
    stepIn p s = step s

/-! ### Invariants of every step -/

/-- The state after reset meets the five invariants below. -/
def Obligations.ResetMeetsInvariants : Prop :=
  State.reset.mem.wf = true ∧ HoldsOnlyElements State.reset.mem ∧ StatusConsistent State.reset.status
    ∧ PendingIsCmd State.reset ∧ ResultsInRange State.reset.res

/-- Every step keeps the storage in its canonical form: addresses strictly rising, so equal storages are equal data. -/
def Obligations.StorageStaysCanonical : Prop :=
  ∀ s t : State, s.mem.wf = true → step s = .next t → t.mem.wf = true

/-- Every step keeps the storage to bytes of storage elements: no host write and no command, at any position, size or
picture the checks let pass, writes outside its arrays (20_memory.md R81, R85, R87; 42_refbuild.md R192). -/
def Obligations.StorageHoldsOnlyElements : Prop :=
  ∀ s t : State, HoldsOnlyElements s.mem → step s = .next t → HoldsOnlyElements t.mem

/-- Every step keeps `ERRCODE` at 0 and `ERR_MULTI` clear while `ERR` is clear, and `ERRCODE` at one of the ten codes while
it is set (10_state.md R34; 60_exceptions.md R293). -/
def Obligations.ErrorStatusStaysConsistent : Prop :=
  ∀ s t : State, StatusConsistent s.status → step s = .next t → StatusConsistent t.status

/-- Every step keeps the pending word, when there is one, equal to `CMD` (10_state.md R37, R60). -/
def Obligations.PendingWordStaysInCmd : Prop :=
  ∀ s t : State, PendingIsCmd s → step s = .next t → PendingIsCmd t

/-- Every step keeps the result registers in their ranges: MPM candidates at most 34, `NZSUM` below 2^24, `LM_SHIFT` 0 or
4..13 (10_state.md R46; 41_quant.md R175; 43_intrapred.md R244). -/
def Obligations.ResultRegistersStayInRange : Prop :=
  ∀ s t : State, ResultsInRange s.res → step s = .next t → ResultsInRange t.res

/-! ### The whole machine -/

/-- Whatever a command does, an element of an array that its rule does not write keeps its value or its lack of one
(10_state.md R40, R49-R54). -/
def Obligations.OnlyNamedCommandsWriteStorage : Prop :=
  ∀ (i : Instr) (s t : State) (a : Arr) (e : Nat), exec i s = .next t → e < a.size → writer a i = false →
    t.elem? a e = s.elem? a e

/-- No command changes a register that only the host writes, `CMD`, or the bus; `CU_POS` and `FRAME_END` change only under
`FRAME_INIT` and `HIST_UPDATE`, and only `HIST_UPDATE` on the last CU of the picture sets `FRAME_END`
(10_state.md R32, R34, R43). -/
def Obligations.CommandsLeaveHostRegisters : Prop :=
  ∀ (i : Instr) (s t : State), exec i s = .next t →
    t.cfg = s.cfg ∧ t.cmd = s.cmd ∧ t.bus = s.bus ∧ t.response = s.response
      ∧ (t.cuPos ≠ s.cuPos → i = .frameInit ∨ ∃ m, i = .histUpdate m)
      ∧ (s.status.frameEnd = true → t.status.frameEnd = false → i = .frameInit)
      ∧ (s.status.frameEnd = false → t.status.frameEnd = true →
          (∃ m, i = .histUpdate m) ∧ lastInRow s = true ∧ inLastRow s = true)

/-- For a valid picture no command but `FRAME_INIT` writes `TOP_MODE[numCols]` or `LEFT_MODE[1]` (10_state.md R49). -/
def Obligations.EdgeModeEntriesKept : Prop :=
  ∀ (i : Instr) (s t : State), pictureBad s = false → exec i s = .next t → i ≠ .frameInit →
    t.elem? .topMode (s.picW / 2 ^ s.cfg.cuLog2.toNat) = s.elem? .topMode (s.picW / 2 ^ s.cfg.cuLog2.toNat)
      ∧ t.elem? .leftMode 1 = s.elem? .leftMode 1

/-- A command's results do not depend on the host's waiting accesses, the last response or the model's own counters: from
states that differ only in those, `exec` answers states that differ only in those (20_memory.md R80, R91). -/
def Obligations.EngineIgnoresBusState : Prop :=
  ∀ (i : Instr) (s : State) (bus : List HostAccess) (response : Option BusResponse) (latency draws : Nat),
    let other := fun t : State => { t with bus := bus, response := response, latency := latency, draws := draws }
    (∀ t, exec i s = .next t → exec i (other s) = .next (other t))
      ∧ ∀ f, exec i s = .fault f → exec i (other s) = .fault f

/-- `XIC_BASE` on every build (20_memory.md R98): an access issued at `XIC_BASE` plus a block address waits as that access
behind those issued before it, and an idle block performs it next; one issued at no such address does not reach the block
(assumption 16). Nothing else changes. -/
def Obligations.PlatformAddsBaseToEveryAddress : Prop :=
  ∀ (p : BuildParams) (s : State) (addr : BitVec 17) (bits : Nat) (v : Word),
    s.issue p (.read (p.xicBase + addr.toNat) bits) = { s with bus := s.bus ++ [.read addr bits] }
      ∧ s.issue p (.write (p.xicBase + addr.toNat) bits v) = { s with bus := s.bus ++ [.write addr bits v] }
      ∧ (s.pending = none → s.bus = [] →
          stepIn p (s.issue p (.read (p.xicBase + addr.toNat) bits)) = .next (s.hostRead addr bits)
            ∧ stepIn p (s.issue p (.write (p.xicBase + addr.toNat) bits v)) = .next (s.hostWrite p addr bits v))
      ∧ ∀ a : Nat, (∀ b : BitVec 17, a ≠ p.xicBase + b.toNat) →
          s.issue p (.read a bits) = s ∧ s.issue p (.write a bits v) = s

end
end

