-- ==== Sys2Proof/Laws/Arith.lean ====
section
/-! SUPPORT. Laws of the spec's integer arithmetic (00_scope.md R8, R9, R11): sums as Mathlib's, and the ranges of what
the clipping operations answer. -/

namespace Sys2Proof.Machine

namespace ArithLaws

/-- The model's sum is Mathlib's. -/
theorem sumTo_eq (n : Nat) (f : Nat → Int) : sumTo n f = ∑ i ∈ Finset.range n, f i := by
  induction n with
  | zero => rfl
  | succ n ih => rw [sumTo, ih, Finset.sum_range_succ]

theorem sumTo_congr {n : Nat} {f g : Nat → Int} (h : ∀ i < n, f i = g i) : sumTo n f = sumTo n g := by
  rw [sumTo_eq, sumTo_eq]
  exact Finset.sum_congr rfl fun i hi => h i (Finset.mem_range.mp hi)

theorem clip8_range (v : Int) : 0 ≤ clip8 v ∧ clip8 v ≤ 255 := by
  unfold clip8 clip3
  omega

theorem sat16_range (v : Int) : -32768 ≤ sat16 v ∧ sat16 v ≤ 32767 := by
  unfold sat16 clip3
  omega

/-- Inside its range saturation changes nothing. -/
theorem sat16_of_range {v : Int} (h : -32768 ≤ v ∧ v ≤ 32767) : sat16 v = v := by
  unfold sat16 clip3
  omega

/-- Truncation is subtraction of a multiple of 65536. -/
theorem wrap16_eq (v : Int) : wrap16 v = (v + 32768) % 65536 - 32768 := by
  unfold wrap16
  rw [Int.bmod_def]
  omega

theorem wrap16_range (v : Int) : -32768 ≤ wrap16 v ∧ wrap16 v ≤ 32767 := by
  rw [wrap16_eq]
  omega

/-- Inside its range truncation changes nothing. -/
theorem wrap16_of_range {v : Int} (h : -32768 ≤ v ∧ v ≤ 32767) : wrap16 v = v := by
  rw [wrap16_eq]
  omega

end ArithLaws

end Sys2Proof.Machine
end

