-- ==== Sys2Proof/Laws/Memory.lean ====
section
/-! SUPPORT. The byte memory: what a read gives after each operation, and that each operation keeps the canonical form
(`Memory.wf`). -/

namespace Sys2Proof.Machine

namespace MemoryLaws

variable {m m' : Memory} {a lo len : Nat} {bs : List (Option Byte)}

@[simp] theorem byte?_nil : Memory.byte? [] a = none := rfl

theorem byte?_cons (k : Nat) (v : Byte) : Memory.byte? ((k, v) :: m) a = if a = k then some v else m.byte? a := rfl

/-- A read of two memories one after the other. -/
theorem byte?_append : Memory.byte? (m ++ m') a = (m.byte? a).or (Memory.byte? m' a) := by
  induction m with
  | nil => rfl
  | cons cell t ih =>
    obtain ⟨k, v⟩ := cell
    rw [List.cons_append, byte?_cons, byte?_cons, ih]
    split <;> rfl

/-- A read of the cells whose address meets `p`. -/
theorem byte?_filter (p : Nat → Bool) :
    Memory.byte? (m.filter fun cell => p cell.1) a = if p a then m.byte? a else none := by
  induction m with
  | nil => simp
  | cons cell t ih =>
    obtain ⟨k, v⟩ := cell
    rw [List.filter_cons]
    by_cases hk : a = k
    · subst hk
      by_cases hp : p a <;> simp [byte?_cons, hp, ih]
    · by_cases hp : p k <;> simp [byte?_cons, hp, ih, hk]

/-- A read of consecutive new cells. -/
theorem byte?_cellsFrom :
    Memory.byte? (Memory.cellsFrom lo bs) a = if lo ≤ a ∧ a < lo + bs.length then (bs[a - lo]?).join else none := by
  induction bs generalizing lo with
  | nil => simp [Memory.cellsFrom]
  | cons b t ih =>
    have step : Memory.byte? (Memory.cellsFrom (lo + 1) t) a
        = if lo + 1 ≤ a ∧ a < lo + (t.length + 1) then ((b :: t)[a - lo]?).join else none := by
      rw [ih]
      by_cases h : lo + 1 ≤ a
      · have e : a - lo = (a - (lo + 1)) + 1 := by omega
        rw [e, List.getElem?_cons_succ]
        congr 1
        simp only [eq_iff_iff]
        omega
      · simp [h]
    cases b with
    | none =>
      rw [Memory.cellsFrom, step, List.length_cons]
      by_cases h : a = lo
      · subst h; simp
      · congr 1
        simp only [eq_iff_iff]
        omega
    | some v =>
      rw [Memory.cellsFrom, byte?_cons, step, List.length_cons]
      by_cases h : a = lo
      · subst h; simp
      · rw [if_neg h]
        congr 1
        simp only [eq_iff_iff]
        omega

/-- The one thing `putBytes` does to a read: the new bytes inside the range, the old ones outside. -/
theorem byte?_putBytes :
    (m.putBytes lo bs).byte? a = if lo ≤ a ∧ a < lo + bs.length then (bs[a - lo]?).join else m.byte? a := by
  have h1 := byte?_filter (m := m) (a := a) fun k => decide (k < lo)
  have h2 := byte?_filter (m := m) (a := a) fun k => decide (lo + bs.length ≤ k)
  rw [Memory.putBytes, byte?_append, byte?_append, h1, h2, byte?_cellsFrom]
  by_cases hlo : a < lo
  · have : ¬ lo ≤ a := by omega
    have : ¬ lo + bs.length ≤ a := by omega
    simp [*]
  · by_cases hhi : a < lo + bs.length
    · have : lo ≤ a := by omega
      have : ¬ lo + bs.length ≤ a := by omega
      simp [*]
    · have : lo + bs.length ≤ a := by omega
      simp [*]

/-- A read inside the window it was looked up in. -/
theorem byte?_window (h : lo ≤ a ∧ a < lo + len) : (m.window lo len).byte? a = m.byte? a := by
  have e := byte?_filter (m := m) (a := a) fun k => decide (lo ≤ k) && decide (k < lo + len)
  rw [Memory.window, e]
  simp [h]

/-! ### The canonical form -/

theorem risingFrom_some_iff (b : Nat) :
    Memory.risingFrom (some b) m = true ↔ (∀ cell ∈ m, b < cell.1) ∧ m.Pairwise (fun c d => c.1 < d.1) := by
  induction m generalizing b with
  | nil => simp [Memory.risingFrom]
  | cons cell t ih =>
    obtain ⟨k, v⟩ := cell
    simp only [Memory.risingFrom, Bool.and_eq_true, decide_eq_true_eq, ih, List.mem_cons, forall_eq_or_imp,
      List.pairwise_cons]
    constructor
    · rintro ⟨h1, h2, h3⟩
      exact ⟨⟨h1, fun c hc => h1.trans (h2 c hc)⟩, h2, h3⟩
    · rintro ⟨⟨h1, _⟩, h2, h3⟩
      exact ⟨h1, h2, h3⟩

/-- The canonical form says that the addresses are strictly rising. -/
theorem wf_iff : m.wf = true ↔ m.Pairwise (fun c d => c.1 < d.1) := by
  cases m with
  | nil => simp [Memory.wf, Memory.risingFrom]
  | cons cell t =>
    obtain ⟨k, v⟩ := cell
    rw [Memory.wf, Memory.risingFrom, risingFrom_some_iff, List.pairwise_cons]

theorem mem_cellsFrom {cell : Host.Cell} (h : cell ∈ Memory.cellsFrom lo bs) :
    lo ≤ cell.1 ∧ cell.1 < lo + bs.length ∧ bs[cell.1 - lo]? = some (some cell.2) := by
  induction bs generalizing lo with
  | nil => simp [Memory.cellsFrom] at h
  | cons b t ih =>
    have tail : cell ∈ Memory.cellsFrom (lo + 1) t →
        lo ≤ cell.1 ∧ cell.1 < lo + (b :: t).length ∧ (b :: t)[cell.1 - lo]? = some (some cell.2) := by
      intro ht
      obtain ⟨h1, h2, h3⟩ := ih ht
      have e : cell.1 - lo = (cell.1 - (lo + 1)) + 1 := by omega
      refine ⟨by omega, by rw [List.length_cons]; omega, ?_⟩
      rw [e, List.getElem?_cons_succ, h3]
    cases b with
    | none => exact tail h
    | some v =>
      rw [Memory.cellsFrom, List.mem_cons] at h
      rcases h with rfl | h
      · simp
      · exact tail h

theorem pairwise_cellsFrom : (Memory.cellsFrom lo bs).Pairwise (fun c d => c.1 < d.1) := by
  induction bs generalizing lo with
  | nil => simp [Memory.cellsFrom]
  | cons b t ih =>
    cases b with
    | none => exact ih
    | some v =>
      rw [Memory.cellsFrom, List.pairwise_cons]
      exact ⟨fun c hc => (mem_cellsFrom hc).1, ih⟩

/-- Every cell of the new memory is an old one outside the range or a new one inside it. -/
theorem mem_putBytes {cell : Host.Cell} (h : cell ∈ m.putBytes lo bs) :
    cell ∈ m ∨ (lo ≤ cell.1 ∧ cell.1 < lo + bs.length ∧ bs[cell.1 - lo]? = some (some cell.2)) := by
  simp only [Memory.putBytes, List.append_assoc, List.mem_append, List.mem_filter] at h
  rcases h with ⟨h, _⟩ | h | ⟨h, _⟩
  · exact .inl h
  · exact .inr (mem_cellsFrom h)
  · exact .inl h

/-- Every write keeps the canonical form. -/
theorem wf_putBytes (h : m.wf = true) : (m.putBytes lo bs).wf = true := by
  rw [wf_iff] at h ⊢
  rw [Memory.putBytes, List.pairwise_append, List.pairwise_append]
  refine ⟨⟨h.filter _, pairwise_cellsFrom, ?_⟩, h.filter _, ?_⟩
  · intro c hc d hd
    have h1 : c.1 < lo := by simpa using (List.mem_filter.mp hc).2
    have h2 := (mem_cellsFrom hd).1
    omega
  · intro c hc d hd
    have h2 : lo + bs.length ≤ d.1 := by simpa using (List.mem_filter.mp hd).2
    rcases List.mem_append.mp hc with hc | hc
    · have h1 : c.1 < lo := by simpa using (List.mem_filter.mp hc).2
      omega
    · have h1 := (mem_cellsFrom hc).2.1
      omega

theorem wf_nil : Memory.wf [] = true := rfl

end MemoryLaws

end Sys2Proof.Machine
end

