-- ==== Sys2Proof/Laws/Elements.lean ====
section
/-! SUPPORT. Storage elements: what reading an element gives after writing a row, a block or a single element, and the
disjointness of the arrays that makes writes to one array invisible in the others. -/

namespace Sys2Proof.Machine

namespace ElementLaws

open MemoryLaws

variable {s : State} {a b : Arr} {e start len : Nat} {vs : List (Option Int)}

/-! ### The arrays -/

theorem mem_all (a : Arr) : a ∈ Arr.all := by
  cases a with
  | buf b c => cases b <;> cases c <;> decide
  | ref c => cases c <;> decide
  | topPix c => cases c <;> decide
  | corner c => cases c <;> decide
  | leftPix c => cases c <;> decide
  | reff0 => decide
  | lmref => decide
  | lmTop => decide
  | topMode => decide
  | lmLeft => decide
  | leftMode => decide

theorem all_disjoint : ∀ a ∈ Arr.all, ∀ b ∈ Arr.all, a = b ∨ a.laneAddr (a.size + a.size % 2) ≤ b.base
    ∨ b.laneAddr (b.size + b.size % 2) ≤ a.base := by
  decide +kernel

/-- Two different arrays' windows do not meet, reserved lanes included. -/
theorem disjoint (h : a ≠ b) : a.laneAddr (a.size + a.size % 2) ≤ b.base ∨ b.laneAddr (b.size + b.size % 2) ≤ a.base :=
  (all_disjoint a (mem_all a) b (mem_all b)).resolve_left h

theorem laneAddr_def : a.laneAddr e = a.base + 2 * e := rfl

/-! ### Element values -/

/-- What an element of type `k` holds once `v` has been written to it (10_state.md R48). -/
def stored (k : ElemKind) (v : Int) : Int :=
  match k with
  | .sample => v % 256
  | .mode => v % 256
  | .coefficient => v.bmod 65536

theorem stored_sample {v : Int} (h : 0 ≤ v ∧ v ≤ 255) : stored .sample v = v := by
  simp only [stored]; omega

theorem stored_mode {v : Int} (h : 0 ≤ v ∧ v ≤ 255) : stored .mode v = v := by
  simp only [stored]; omega

theorem stored_coefficient {v : Int} (h : -32768 ≤ v ∧ v ≤ 32767) : stored .coefficient v = v := by
  simp only [stored, Int.bmod_def]; omega

@[simp] theorem laneBytes_length (k : ElemKind) (v : Option Int) : (laneBytes k v).length = 2 := by
  cases k <;> rfl

theorem flatMap_laneBytes_length (k : ElemKind) : (vs.flatMap (laneBytes k)).length = 2 * vs.length := by
  induction vs with
  | nil => rfl
  | cons v t ih => rw [List.flatMap_cons, List.length_append, laneBytes_length, ih, List.length_cons]; omega

/-- Byte `j` of lane `i` of a written row. -/
theorem flatMap_laneBytes_getElem? (k : ElemKind) (i j : Nat) (hj : j < 2) :
    (vs.flatMap (laneBytes k))[2 * i + j]? = vs[i]?.bind fun v => (laneBytes k v)[j]? := by
  induction vs generalizing i with
  | nil => simp
  | cons v t ih =>
    rw [List.flatMap_cons]
    cases i with
    | zero => rw [List.getElem?_append_left (by simp; omega)]; simp
    | succ n =>
      rw [List.getElem?_append_right (by simp; omega), laneBytes_length]
      have : 2 * (n + 1) + j - 2 = 2 * n + j := by omega
      rw [this, ih]
      simp

theorem toNat_ofInt8 (x : Int) : ((BitVec.ofInt 8 x).toNat : Int) = x % 256 := by
  rw [BitVec.toNat_ofInt]
  omega

theorem bytes16 (x : Int) :
    ((BitVec.ofInt 16 x).extractLsb' 8 8 ++ (BitVec.ofInt 16 x).extractLsb' 0 8).toInt = x.bmod 65536 := by
  have h : (BitVec.ofInt 16 x).extractLsb' 8 8 ++ (BitVec.ofInt 16 x).extractLsb' 0 8 = BitVec.ofInt 16 x := by
    ext i hi
    simp only [BitVec.getElem_append, BitVec.getElem_extractLsb']
    split
    · simp [BitVec.getLsbD_eq_getElem hi]
    · have : 8 + (i - 8) = i := by omega
      simp [this, BitVec.getLsbD_eq_getElem hi]
  rw [h, BitVec.toInt_ofInt]

/-- A lane read back where its two bytes are those of a written element. -/
theorem lane?_of_bytes {m : Memory} {k : ElemKind} {addr : Nat} {v : Option Int}
    (h0 : m.byte? addr = ((laneBytes k v)[0]?).join) (h1 : m.byte? (addr + 1) = ((laneBytes k v)[1]?).join) :
    m.lane? k addr = v.map (stored k) := by
  cases k with
  | sample => cases v <;> simp [Memory.lane?, h0, laneBytes, stored, toNat_ofInt8, -BitVec.toNat_ofInt]
  | mode => cases v <;> simp [Memory.lane?, h0, laneBytes, stored, toNat_ofInt8, -BitVec.toNat_ofInt]
  | coefficient =>
    cases v with
    | none => simp [Memory.lane?, h0, laneBytes]
    | some x => simp only [Memory.lane?, h0, h1]; simp [laneBytes, stored, bytes16]

/-- A lane reads the same in two memories that agree on its two bytes. -/
theorem lane?_congr {m m' : Memory} {k : ElemKind} {addr : Nat} (h0 : m.byte? addr = m'.byte? addr)
    (h1 : m.byte? (addr + 1) = m'.byte? (addr + 1)) : m.lane? k addr = m'.lane? k addr := by
  cases k <;> simp [Memory.lane?, h0, h1]

/-! ### Rows -/

/-- An element of the row just written. -/
theorem elem?_putRow?_inside (h : start ≤ e) (h' : e < start + vs.length) :
    (s.putRow? a start vs).elem? a e = (vs[e - start]?).join.map (stored a.kind) := by
  have hlen := flatMap_laneBytes_length (vs := vs) a.kind
  have key : ∀ j < 2, ((s.mem.putBytes (a.laneAddr start) (vs.flatMap (laneBytes a.kind))).byte? (a.laneAddr e + j))
      = ((laneBytes a.kind (vs[e - start]?).join)[j]?).join := by
    intro j hj
    rw [byte?_putBytes, hlen, if_pos (by simp only [laneAddr_def]; omega)]
    have e1 : a.laneAddr e + j - a.laneAddr start = 2 * (e - start) + j := by simp only [laneAddr_def]; omega
    rw [e1, flatMap_laneBytes_getElem? _ _ _ hj]
    have hl : e - start < vs.length := by omega
    simp [List.getElem?_eq_getElem hl]
  exact lane?_of_bytes (key 0 (by omega)) (key 1 (by omega))

/-- An element of the same array outside the row just written. -/
theorem elem?_putRow?_outside (h : e < start ∨ start + vs.length ≤ e) :
    (s.putRow? a start vs).elem? a e = s.elem? a e := by
  have hlen := flatMap_laneBytes_length (vs := vs) a.kind
  apply lane?_congr <;>
  · show (s.mem.putBytes _ _).byte? _ = _
    rw [byte?_putBytes, hlen, if_neg (by simp only [laneAddr_def]; omega)]

/-- An element of another array. -/
theorem elem?_putRow?_other (hab : a ≠ b) (he : e < b.size) (hv : start + vs.length ≤ a.size) :
    (s.putRow? a start vs).elem? b e = s.elem? b e := by
  have hlen := flatMap_laneBytes_length (vs := vs) a.kind
  have hd := disjoint hab
  simp only [laneAddr_def] at hd
  apply lane?_congr <;>
  · show (s.mem.putBytes _ _).byte? _ = _
    rw [byte?_putBytes, hlen, if_neg (by simp only [laneAddr_def]; omega)]

/-- The three cases of reading an element after writing a row inside its array. -/
theorem elem?_putRow? (he : e < b.size) (hv : start + vs.length ≤ a.size) :
    (s.putRow? a start vs).elem? b e
      = if b = a ∧ start ≤ e ∧ e < start + vs.length then (vs[e - start]?).join.map (stored a.kind) else s.elem? b e := by
  by_cases hab : a = b
  · subst hab
    by_cases h : start ≤ e ∧ e < start + vs.length
    · rw [elem?_putRow?_inside h.1 h.2, if_pos ⟨rfl, h⟩]
    · rw [elem?_putRow?_outside (by omega), if_neg (by simpa using h)]
  · rw [elem?_putRow?_other hab he hv, if_neg (fun h => hab h.1.symm)]

/-- A byte after writing a row: outside the written lanes it is as before. -/
theorem byte?_putRow? {addr : Nat} (h : addr < a.laneAddr start ∨ a.laneAddr (start + vs.length) ≤ addr) :
    (s.putRow? a start vs).mem.byte? addr = s.mem.byte? addr := by
  have hlen := flatMap_laneBytes_length (vs := vs) a.kind
  show (s.mem.putBytes _ _).byte? _ = _
  rw [byte?_putBytes, hlen, if_neg (by simp only [laneAddr_def] at h ⊢; omega)]

theorem wf_putRow? (h : s.mem.wf = true) : (s.putRow? a start vs).mem.wf = true := wf_putBytes h

/-! ### Reading rows and blocks -/

theorem row?_eq : s.row? a start len = (List.range len).map fun i => s.elem? a (start + i) := by
  simp only [State.row?, State.elem?]
  refine List.map_congr_left fun i hi => ?_
  have hi := List.mem_range.mp hi
  apply lane?_congr <;>
  · rw [byte?_window (by simp only [laneAddr_def]; omega)]

@[simp] theorem row?_length : (s.row? a start len).length = len := by simp [row?_eq]

theorem row?_getElem? {i : Nat} (h : i < len) : (s.row? a start len)[i]? = some (s.elem? a (start + i)) := by
  rw [row?_eq]; simp [h]

theorem row_eq : s.row a start len = (List.range len).map fun i => s.val a (start + i) := by
  simp [State.row, row?_eq, State.val]

@[simp] theorem row_length : (s.row a start len).length = len := by simp [State.row]

theorem row_getElem? {i : Nat} (h : i < len) : (s.row a start len)[i]? = some (s.val a (start + i)) := by
  rw [row_eq]; simp [h]

@[simp] theorem row_getD {i : Nat} {d : Int} (h : i < len) : (s.row a start len).getD i d = s.val a (start + i) := by
  rw [List.getD_eq_getElem?_getD, row_getElem? h]; rfl

/-- Element `[y][x]` of a block read from a working buffer. -/
theorem block_get {n y x : Nat} (hy : y < n) (hx : x < n) : (s.block a n).get y x = s.val a (32 * y + x) := by
  simp only [Block.get, State.block]
  rw [List.getD_eq_getElem?_getD]
  simp [hy, row_getElem? hx]

@[simp] theorem tabulate_get {rows cols r c : Nat} {f : Nat → Nat → Int} (hr : r < rows) (hc : c < cols) :
    (Block.tabulate rows cols f).get r c = f r c := by
  simp [Block.get, Block.tabulate, List.getD_eq_getElem?_getD, hr, hc]

@[simp] theorem tabulate_length {rows cols : Nat} {f : Nat → Nat → Int} :
    (Block.tabulate rows cols f).length = rows := by simp [Block.tabulate]

/-- Every row of a tabulated block has the block's width. -/
theorem tabulate_row_length {rows cols : Nat} {f : Nat → Nat → Int} {row : List Int}
    (h : row ∈ Block.tabulate rows cols f) : row.length = cols := by
  simp only [Block.tabulate, List.mem_map] at h
  obtain ⟨r, _, rfl⟩ := h
  simp

/-! ### Writing blocks -/

/-- `putRows` changes nothing of the state but the memory. -/
theorem putRows_state (y : Nat) (blk : Block) (s : State) :
    State.putRows a y blk s = { s with mem := (State.putRows a y blk s).mem } := by
  induction blk generalizing y s with
  | nil => rfl
  | cons r rs ih => rw [State.putRows, ih]; rfl

theorem putBlock_state (blk : Block) : s.putBlock a blk = { s with mem := (s.putBlock a blk).mem } := putRows_state 0 blk s

theorem wf_putRows (y : Nat) (blk : Block) (s : State) (h : s.mem.wf = true) :
    (State.putRows a y blk s).mem.wf = true := by
  induction blk generalizing y s with
  | nil => exact h
  | cons r rs ih => exact ih _ _ (wf_putRow? h)

theorem wf_putBlock (blk : Block) (h : s.mem.wf = true) : (s.putBlock a blk).mem.wf = true := wf_putRows 0 blk s h

/-- A byte outside every row of a written block is as before. -/
theorem byte?_putRows {addr n : Nat} (y : Nat) (blk : Block) (s : State) (hw : ∀ r ∈ blk, r.length = n)
    (h : ∀ i < blk.length, addr < a.laneAddr (32 * (y + i)) ∨ a.laneAddr (32 * (y + i) + n) ≤ addr) :
    (State.putRows a y blk s).mem.byte? addr = s.mem.byte? addr := by
  induction blk generalizing y s with
  | nil => rfl
  | cons r rs ih =>
    rw [State.putRows, ih (y + 1) _ (fun r' hr' => hw r' (List.mem_cons_of_mem _ hr'))]
    · apply byte?_putRow?
      have hr := hw r (List.mem_cons_self)
      have h0 := h 0 (by simp)
      simpa [hr] using h0
    · intro i hi
      have := h (i + 1) (by simp; omega)
      have e : y + (i + 1) = y + 1 + i := by omega
      rwa [e] at this

/-- An element of a block just written. -/
theorem elem?_putRows {n : Nat} (hn : n ≤ 32) (y : Nat) (blk : Block) (s : State) (hw : ∀ r ∈ blk, r.length = n)
    {i x : Nat} (hi : i < blk.length) (hx : x < n) :
    (State.putRows a y blk s).elem? a (32 * (y + i) + x) = some (stored a.kind (blk.get i x)) := by
  induction blk generalizing y s i with
  | nil => simp at hi
  | cons r rs ih =>
    have hw' : ∀ r' ∈ rs, r'.length = n := fun r' hr' => hw r' (List.mem_cons_of_mem _ hr')
    have hr : r.length = n := hw r List.mem_cons_self
    rw [State.putRows]
    cases i with
    | succ i =>
      have e : y + (i + 1) = y + 1 + i := by omega
      rw [e, ih (y + 1) _ hw' (by simpa using hi)]
      rfl
    | zero =>
      have keep : (State.putRows a (y + 1) rs (s.putRow a (32 * y) r)).elem? a (32 * (y + 0) + x)
          = (s.putRow a (32 * y) r).elem? a (32 * y + x) := by
        apply lane?_congr <;>
        · apply byte?_putRows (n := n) (y + 1) rs _ hw'
          intro i _
          left
          simp only [laneAddr_def]
          omega
      rw [keep, State.putRow, elem?_putRow?_inside (by omega) (by simp; omega)]
      have hx' : x < r.length := by omega
      simp [Block.get, hx', List.getD_eq_getElem?_getD]

/-- Element `[r][c]` of a block written to a working buffer. -/
theorem elem?_putBlock {n r c : Nat} {f : Nat → Nat → Int} (hn : n ≤ 32) (hr : r < n) (hc : c < n) :
    (s.putBlock a (Block.tabulate n n f)).elem? a (32 * r + c) = some (stored a.kind (f r c)) := by
  have h := elem?_putRows (a := a) hn 0 (Block.tabulate n n f) s (fun _ h => tabulate_row_length h)
    (i := r) (x := c) (by simpa using hr) hc
  rw [tabulate_get hr hc] at h
  simpa [State.putBlock] using h

/-- A byte outside a block written to a working buffer. -/
theorem byte?_putBlock {n addr : Nat} {f : Nat → Nat → Int}
    (h : ∀ y < n, addr < a.laneAddr (32 * y) ∨ a.laneAddr (32 * y + n) ≤ addr) :
    (s.putBlock a (Block.tabulate n n f)).mem.byte? addr = s.mem.byte? addr := by
  apply byte?_putRows (n := n) 0 _ s (fun _ h => tabulate_row_length h)
  intro i hi
  simpa using h i (by simpa using hi)

/-! ### Missing values -/

theorem missingIn_eq_none {sp : Span} :
    s.missingIn sp = none ↔ ∀ i < sp.len, (s.elem? sp.arr (sp.start + i)).isSome = true := by
  simp only [State.missingIn, row?_eq, List.findSome?_eq_none_iff]
  constructor
  · intro h i hi
    have hm : (i, s.elem? sp.arr (sp.start + i)) ∈
        (List.range sp.len).zip ((List.range sp.len).map fun i => s.elem? sp.arr (sp.start + i)) := by
      rw [List.mem_iff_getElem?]
      exact ⟨i, by simp [hi]⟩
    have := h _ hm
    revert this
    cases s.elem? sp.arr (sp.start + i) <;> simp
  · intro h p hp
    rw [List.mem_iff_getElem?] at hp
    obtain ⟨j, hj⟩ := hp
    rw [List.getElem?_zip_eq_some] at hj
    obtain ⟨h1, h2⟩ := hj
    obtain ⟨p1, p2⟩ := p
    have hjl : j < sp.len := by
      by_contra hc
      simp [hc] at h1
    simp [hjl] at h1 h2
    subst h1 h2
    have := h j hjl
    revert this
    cases s.elem? sp.arr (sp.start + j) <;> simp

/-- No element of the spans is without a value exactly when every one of them has one. -/
theorem firstMissing_eq_none {spans : List Span} :
    s.firstMissing spans = none ↔ ∀ sp ∈ spans, ∀ i < sp.len, (s.elem? sp.arr (sp.start + i)).isSome = true := by
  rw [State.firstMissing, List.findSome?_eq_none_iff]
  exact forall₂_congr fun sp _ => missingIn_eq_none

/-- A block's spans are its elements. -/
theorem blockSpans_hasValues {n : Nat} :
    (∀ sp ∈ blockSpans a n, ∀ i < sp.len, (s.elem? sp.arr (sp.start + i)).isSome = true)
      ↔ ∀ y < n, ∀ x < n, (s.elem? a (32 * y + x)).isSome = true := by
  simp [blockSpans]

/-! ### Clearing -/

/-- An element of a cleared span has no value. -/
theorem elem?_clearSpan_inside {sp : Span} (h : sp.start ≤ e) (h' : e < sp.start + sp.len) :
    (s.clearSpan sp).elem? sp.arr e = none := by
  rw [State.clearSpan, elem?_putRow?_inside h (by simpa using h')]
  have : e - sp.start < sp.len := by omega
  simp [this]

/-- A byte outside a cleared span is as before. -/
theorem byte?_clearSpan {sp : Span} {addr : Nat} (h : sp.covers addr = false) :
    (s.clearSpan sp).mem.byte? addr = s.mem.byte? addr := by
  apply byte?_putRow?
  simp only [Span.covers, Bool.and_eq_false_iff, decide_eq_false_iff_not] at h
  simp
  omega

theorem wf_clearSpan {sp : Span} (h : s.mem.wf = true) : (s.clearSpan sp).mem.wf = true := wf_putRow? h

end ElementLaws

end Sys2Proof.Machine
end

