-- ==== Sys2Proof/Laws/State.lean ====
section
/-! SUPPORT. One lemma per field per update, for the updates every command is made of: writing a row, a block or a
cleared span, completing, completing with an error. -/

namespace Sys2Proof.Machine

section

variable (s : State) (a : Arr) (start : Nat) (vs : List (Option Int)) (ws : List Int) (blk : Block) (sp : Span)

@[simp] theorem putRow?_status : (s.putRow? a start vs).status = s.status := rfl
@[simp] theorem putRow?_cmd : (s.putRow? a start vs).cmd = s.cmd := rfl
@[simp] theorem putRow?_errinfo : (s.putRow? a start vs).errinfo = s.errinfo := rfl
@[simp] theorem putRow?_cuPos : (s.putRow? a start vs).cuPos = s.cuPos := rfl
@[simp] theorem putRow?_cfg : (s.putRow? a start vs).cfg = s.cfg := rfl
@[simp] theorem putRow?_res : (s.putRow? a start vs).res = s.res := rfl
@[simp] theorem putRow?_pending : (s.putRow? a start vs).pending = s.pending := rfl
@[simp] theorem putRow?_latency : (s.putRow? a start vs).latency = s.latency := rfl
@[simp] theorem putRow?_draws : (s.putRow? a start vs).draws = s.draws := rfl
@[simp] theorem putRow?_bus : (s.putRow? a start vs).bus = s.bus := rfl
@[simp] theorem putRow?_response : (s.putRow? a start vs).response = s.response := rfl

@[simp] theorem putRow_status : (s.putRow a start ws).status = s.status := rfl
@[simp] theorem putRow_cmd : (s.putRow a start ws).cmd = s.cmd := rfl
@[simp] theorem putRow_errinfo : (s.putRow a start ws).errinfo = s.errinfo := rfl
@[simp] theorem putRow_cuPos : (s.putRow a start ws).cuPos = s.cuPos := rfl
@[simp] theorem putRow_cfg : (s.putRow a start ws).cfg = s.cfg := rfl
@[simp] theorem putRow_res : (s.putRow a start ws).res = s.res := rfl
@[simp] theorem putRow_pending : (s.putRow a start ws).pending = s.pending := rfl
@[simp] theorem putRow_latency : (s.putRow a start ws).latency = s.latency := rfl
@[simp] theorem putRow_draws : (s.putRow a start ws).draws = s.draws := rfl
@[simp] theorem putRow_bus : (s.putRow a start ws).bus = s.bus := rfl
@[simp] theorem putRow_response : (s.putRow a start ws).response = s.response := rfl

@[simp] theorem putBlock_status : (s.putBlock a blk).status = s.status := by rw [ElementLaws.putBlock_state]
@[simp] theorem putBlock_cmd : (s.putBlock a blk).cmd = s.cmd := by rw [ElementLaws.putBlock_state]
@[simp] theorem putBlock_errinfo : (s.putBlock a blk).errinfo = s.errinfo := by rw [ElementLaws.putBlock_state]
@[simp] theorem putBlock_cuPos : (s.putBlock a blk).cuPos = s.cuPos := by rw [ElementLaws.putBlock_state]
@[simp] theorem putBlock_cfg : (s.putBlock a blk).cfg = s.cfg := by rw [ElementLaws.putBlock_state]
@[simp] theorem putBlock_res : (s.putBlock a blk).res = s.res := by rw [ElementLaws.putBlock_state]
@[simp] theorem putBlock_pending : (s.putBlock a blk).pending = s.pending := by rw [ElementLaws.putBlock_state]
@[simp] theorem putBlock_latency : (s.putBlock a blk).latency = s.latency := by rw [ElementLaws.putBlock_state]
@[simp] theorem putBlock_draws : (s.putBlock a blk).draws = s.draws := by rw [ElementLaws.putBlock_state]
@[simp] theorem putBlock_bus : (s.putBlock a blk).bus = s.bus := by rw [ElementLaws.putBlock_state]
@[simp] theorem putBlock_response : (s.putBlock a blk).response = s.response := by rw [ElementLaws.putBlock_state]

@[simp] theorem clearSpan_status : (s.clearSpan sp).status = s.status := rfl
@[simp] theorem clearSpan_cmd : (s.clearSpan sp).cmd = s.cmd := rfl
@[simp] theorem clearSpan_errinfo : (s.clearSpan sp).errinfo = s.errinfo := rfl
@[simp] theorem clearSpan_cuPos : (s.clearSpan sp).cuPos = s.cuPos := rfl
@[simp] theorem clearSpan_cfg : (s.clearSpan sp).cfg = s.cfg := rfl
@[simp] theorem clearSpan_res : (s.clearSpan sp).res = s.res := rfl
@[simp] theorem clearSpan_pending : (s.clearSpan sp).pending = s.pending := rfl
@[simp] theorem clearSpan_latency : (s.clearSpan sp).latency = s.latency := rfl
@[simp] theorem clearSpan_draws : (s.clearSpan sp).draws = s.draws := rfl
@[simp] theorem clearSpan_bus : (s.clearSpan sp).bus = s.bus := rfl
@[simp] theorem clearSpan_response : (s.clearSpan sp).response = s.response := rfl

@[simp] theorem completeOk_status : s.completeOk.status = { s.status with done := true } := rfl
@[simp] theorem completeOk_cmd : s.completeOk.cmd = s.cmd := rfl
@[simp] theorem completeOk_errinfo : s.completeOk.errinfo = s.errinfo := rfl
@[simp] theorem completeOk_cuPos : s.completeOk.cuPos = s.cuPos := rfl
@[simp] theorem completeOk_cfg : s.completeOk.cfg = s.cfg := rfl
@[simp] theorem completeOk_res : s.completeOk.res = s.res := rfl
@[simp] theorem completeOk_mem : s.completeOk.mem = s.mem := rfl
@[simp] theorem completeOk_pending : s.completeOk.pending = none := rfl
@[simp] theorem completeOk_latency : s.completeOk.latency = s.latency := rfl
@[simp] theorem completeOk_draws : s.completeOk.draws = s.draws := rfl
@[simp] theorem completeOk_bus : s.completeOk.bus = s.bus := rfl
@[simp] theorem completeOk_response : s.completeOk.response = s.response := rfl
@[simp] theorem completeOk_elem? (e : Nat) : s.completeOk.elem? a e = s.elem? a e := rfl

variable (code : ErrCode) (w : Word)

@[simp] theorem completeError_status : (s.completeError code w).status = s.status.recordError code := rfl
@[simp] theorem completeError_cmd : (s.completeError code w).cmd = s.cmd := rfl
@[simp] theorem completeError_errinfo :
    (s.completeError code w).errinfo = if s.status.err then s.errinfo else w := rfl
@[simp] theorem completeError_cuPos : (s.completeError code w).cuPos = s.cuPos := rfl
@[simp] theorem completeError_cfg : (s.completeError code w).cfg = s.cfg := rfl
@[simp] theorem completeError_res : (s.completeError code w).res = s.res := rfl
@[simp] theorem completeError_mem : (s.completeError code w).mem = s.mem := rfl
@[simp] theorem completeError_pending : (s.completeError code w).pending = none := rfl
@[simp] theorem completeError_latency : (s.completeError code w).latency = s.latency := rfl
@[simp] theorem completeError_draws : (s.completeError code w).draws = s.draws := rfl
@[simp] theorem completeError_bus : (s.completeError code w).bus = s.bus := rfl
@[simp] theorem completeError_response : (s.completeError code w).response = s.response := rfl

end

end Sys2Proof.Machine
end

