-- ==== Sys2Proof/Laws/Commands.lean ====
section
/-! SUPPORT. How a command runs, said once: `exec` is `runCommand` with the command's reads and effect, so what it
answers is one of three things; and what the checks of `CHECK` give a command that passes them. -/

namespace Sys2Proof.Machine

namespace CommandLaws

open ElementLaws

variable {i : Instr} {s t : State}

/-! ### Completion -/

@[simp] theorem recordError_done (st : Status) (code : ErrCode) : (st.recordError code).done = true := by
  unfold Status.recordError; split <;> rfl

@[simp] theorem recordError_err (st : Status) (code : ErrCode) : (st.recordError code).err = true := by
  unfold Status.recordError; split <;> simp_all

@[simp] theorem recordError_frameEnd (st : Status) (code : ErrCode) :
    (st.recordError code).frameEnd = st.frameEnd := by
  unfold Status.recordError; split <;> rfl

theorem recordError_errcode (st : Status) (code : ErrCode) :
    (st.recordError code).errcode = if st.err then st.errcode else code.number := by
  unfold Status.recordError; split <;> rfl

theorem recordError_errMulti (st : Status) (code : ErrCode) :
    (st.recordError code).errMulti = if st.err then true else st.errMulti := by
  unfold Status.recordError; split <;> rfl

theorem number_range (code : ErrCode) : 1 ≤ code.number.toNat ∧ code.number.toNat ≤ 10 := by cases code <;> decide

/-! ### `runCommand` -/

theorem run_error {code : ErrCode} {reads : List Span} {effect : State → State} (h : s.check i = some code) :
    runCommand i reads effect s = .next (s.completeError code (encode i)) := by
  simp [runCommand, h]

theorem run_fault {reads : List Span} {effect : State → State} {a : Arr} {e : Nat} (h : s.check i = none)
    (hm : s.firstMissing reads = some (a, e)) : runCommand i reads effect s = .fault (.noValue a e) := by
  simp [runCommand, h, hm]

theorem run_next {reads : List Span} {effect : State → State} (h : s.check i = none)
    (hm : s.firstMissing reads = none) : runCommand i reads effect s = .next (effect s).completeOk := by
  simp [runCommand, h, hm]

/-- Everything `runCommand` can do when it answers a next state. -/
theorem run_cases {reads : List Span} {effect : State → State} (h : runCommand i reads effect s = .next t) :
    (∃ code, s.check i = some code ∧ t = s.completeError code (encode i))
      ∨ (s.check i = none ∧ s.firstMissing reads = none ∧ t = (effect s).completeOk) := by
  unfold runCommand at h
  split at h
  · rename_i code hc
    exact .inl ⟨code, hc, by simpa using h.symm⟩
  · rename_i hc
    split at h
    · cases h
    · rename_i hm
      exact .inr ⟨hc, hm, by simpa using h.symm⟩

/-! ### Every command is a `runCommand` -/

/-- The elements a command computes from. -/
def reads (s : State) : Instr → List Span
  | .nop => []
  | .frameInit => []
  | .refbuild c aovr => refbuildReads c aovr s
  | .pred c mode => predReads defaultBuild c mode s
  | .resid c => residReads c s
  | .fdct c _ _ _ _ => fdctReads c s
  | .quant c => quantReads c s
  | .dequant c => dequantReads c s
  | .idct c _ _ _ _ => idctReads c s
  | .recon c => reconReads c s
  | .mpm => mpmReads s
  | .histUpdate _ => histUpdateReads s

/-- The writes of a command that passes its checks. -/
def effect : Instr → State → State
  | .nop, s => s
  | .frameInit, s => frameInitEffect s
  | .refbuild c aovr, s => refbuildEffect c aovr s
  | .pred c mode, s => predEffect defaultBuild c mode s
  | .resid c, s => residEffect c s
  | .fdct c mode tt dsth dstv, s => fdctEffect c mode tt dsth dstv s
  | .quant c, s => quantEffect c s
  | .dequant c, s => dequantEffect c s
  | .idct c mode tt dsth dstv, s => idctEffect c mode tt dsth dstv s
  | .recon c, s => reconEffect c s
  | .mpm, s => mpmEffect s
  | .histUpdate mode, s => histUpdateEffect mode s

/-- The one equation of `exec`. -/
theorem exec_eq (i : Instr) (s : State) : exec i s = runCommand i (reads s i) (effect i) s := by
  cases i <;> rfl

/-- Everything `exec` can do when it answers a next state: the command failed a check, or performed its writes. -/
theorem exec_cases (h : exec i s = .next t) :
    (∃ code, s.check i = some code ∧ t = s.completeError code (encode i))
      ∨ (s.check i = none ∧ s.firstMissing (reads s i) = none ∧ t = (effect i s).completeOk) := by
  rw [exec_eq] at h
  exact run_cases h

/-! ### The builds -/

/-- `exec` is the default build's. -/
theorem execIn_default (i : Instr) (s : State) : execIn defaultBuild i s = exec i s := by cases i <;> rfl

/-- `PRED` is the one command whose meaning differs between builds. -/
theorem execIn_of_ne_pred (p : BuildParams) (s : State) (h : ∀ c mode, i ≠ .pred c mode) :
    execIn p i s = exec i s := by
  cases i <;> first | rfl | exact absurd rfl (h _ _)

theorem execIn_pred (p : BuildParams) (c : BitVec 2) (mode : BitVec 6) (s : State) :
    execIn p (.pred c mode) s = runCommand (.pred c mode) (predReads p c mode s) (predEffect p c mode) s := rfl

/-! ### What an effect leaves alone -/

theorem copyHistories_state (s t : State) (c : Comp) :
    copyHistories s t c = { t with mem := (copyHistories s t c).mem } := rfl

theorem foldl_copyHistories_state (s t : State) (cs : List Comp) :
    cs.foldl (copyHistories s) t = { t with mem := (cs.foldl (copyHistories s) t).mem } := by
  induction cs generalizing t with
  | nil => rfl
  | cons c cs ih => rw [List.foldl_cons, ih]; rfl

theorem updateLm_state (s t : State) : updateLm s t = { t with mem := (updateLm s t).mem } := by
  unfold updateLm
  split <;> rfl

/-- `HIST_UPDATE` before its advance writes only storage. -/
theorem histories_state (mode : BitVec 6) (s : State) :
    updateModes mode s (updateLm s (s.updatedComps.foldl (copyHistories s) s))
      = { s with mem := (updateModes mode s (updateLm s (s.updatedComps.foldl (copyHistories s) s))).mem } := by
  have h : updateLm s (s.updatedComps.foldl (copyHistories s) s)
      = { s with mem := (updateLm s (s.updatedComps.foldl (copyHistories s) s)).mem } := by
    rw [updateLm_state, foldl_copyHistories_state]
  rw [h]
  rfl

/-- What `HIST_UPDATE` changes besides storage: `CU_POS` and `FRAME_END`. -/
theorem histUpdate_state (mode : BitVec 6) (s : State) :
    histUpdateEffect mode s
      = { s with
          mem := (histUpdateEffect mode s).mem
          cuPos := if s.rowEnds then posWord (s.rowIx + 1) 0 else posWord s.rowIx (s.col + 1)
          status :=
            { s.status with
              frameEnd := s.status.frameEnd || (s.rowEnds && decide (s.rowIx + 1 = s.numRows)) } } := by
  unfold histUpdateEffect
  rw [histories_state]
  unfold advance
  split
  · rename_i h; simp [h]
  · rename_i h; simp [h]

/-- No command writes a register of the host's (10_state.md R32), the bus or the model's own fields, and only the
pending slot's completion touches `CMD`'s word. -/
theorem effect_frame (i : Instr) (s : State) :
    (effect i s).cfg = s.cfg ∧ (effect i s).cmd = s.cmd ∧ (effect i s).errinfo = s.errinfo
      ∧ (effect i s).latency = s.latency ∧ (effect i s).draws = s.draws ∧ (effect i s).bus = s.bus
      ∧ (effect i s).response = s.response ∧ (effect i s).pending = s.pending := by
  cases i with
  | nop => simp [effect]
  | frameInit => simp [effect, frameInitEffect]
  | refbuild c aovr => simp only [effect, refbuildEffect]; cases compOf c <;> simp
  | pred c mode =>
    simp only [effect, predEffect]
    split <;> simp [lmPredEffect]
  | resid c => simp [effect, residEffect]
  | fdct c mode tt dsth dstv => simp [effect, fdctEffect]
  | quant c => simp [effect, quantEffect]
  | dequant c => simp [effect, dequantEffect]
  | idct c mode tt dsth dstv => simp [effect, idctEffect]
  | recon c => simp [effect, reconEffect]
  | mpm => simp [effect, mpmEffect]
  | histUpdate mode => simp only [effect]; rw [histUpdate_state]; simp

/-- A command changes of `STATUS` only `FRAME_END` before it completes. -/
theorem effect_status (i : Instr) (s : State) :
    (effect i s).status = { s.status with frameEnd := (effect i s).status.frameEnd } := by
  cases i with
  | nop => simp [effect]
  | frameInit => simp [effect, frameInitEffect]
  | refbuild c aovr => simp only [effect, refbuildEffect]; cases compOf c <;> simp
  | pred c mode =>
    simp only [effect, predEffect]
    split <;> simp [lmPredEffect]
  | resid c => simp [effect, residEffect]
  | fdct c mode tt dsth dstv => simp [effect, fdctEffect]
  | quant c => simp [effect, quantEffect]
  | dequant c => simp [effect, dequantEffect]
  | idct c mode tt dsth dstv => simp [effect, idctEffect]
  | recon c => simp [effect, reconEffect]
  | mpm => simp [effect, mpmEffect]
  | histUpdate mode => simp only [effect]; rw [histUpdate_state]

/-! ### Checks -/

/-- A command that passes `CHECK` passes each of its checks. -/
theorem check_eq_none :
    s.check i = none ↔ i.wellFormed = true ∧ i.checkedComp.any s.badComponent = false
      ∧ (i.checksSize = true → s.sizeLegal = true) ∧ (i.checksPicture = true → s.pictureValid = true)
      ∧ (i.checksPosition = true → s.positionInside = true) ∧ i.modeIllegal = false ∧ s.ttIllegal i = false
      ∧ s.qpIllegal i = false ∧ s.sliceIllegal i = false := by
  unfold State.check
  split_ifs <;> simp_all

/-! ### Sizes -/

theorem sizeLegal_iff : s.sizeLegal = true ↔ 2 ≤ s.cuLog2 ∧ s.cuLog2 ≤ 5 := by simp [State.sizeLegal]

theorem lgOf_le (h : s.sizeLegal = true) (c : Comp) : 1 ≤ s.lgOf c ∧ s.lgOf c ≤ 5 := by
  rw [sizeLegal_iff] at h
  cases c <;> simp only [State.lgOf] <;> omega

theorem sizeOf_le (h : s.sizeLegal = true) (c : Comp) : 2 ≤ s.sizeOf c ∧ s.sizeOf c ≤ 32 := by
  obtain ⟨h1, h2⟩ := lgOf_le h c
  simp only [State.sizeOf]
  generalize s.lgOf c = n at h1 h2
  interval_cases n <;> decide

/-- A legal chroma field at a legal size has `CU_LOG2` ≥ 3. -/
theorem badComponent_false {c : BitVec 2} (h : s.badComponent c = false) :
    c ≠ 3#2 ∧ (compOf c ≠ .y → s.cuLog2 ≠ 2) := by
  simp only [State.badComponent, Bool.or_eq_false_iff, Bool.and_eq_false_iff] at h
  refine ⟨by simpa using h.1, fun hy hl => ?_⟩
  have hc : c ≠ 0#2 := by
    rintro rfl
    exact hy rfl
  rcases h.2 with h | h
  · exact hc (by simpa using h)
  · have : s.cfg.cuLog2 = 2#3 := BitVec.eq_of_toNat_eq (by simpa [State.cuLog2] using hl)
    simp [this] at h

/-- The luma size is a multiple of, and at most twice, the component's. -/
theorem sizeOf_y (h : s.sizeLegal = true) : s.sizeOf .y = 2 * s.sizeOf .u ∧ s.sizeOf .u = s.sizeOf .v := by
  rw [sizeLegal_iff] at h
  simp only [State.sizeOf, State.lgOf, and_true]
  have : s.cuLog2 = (s.cuLog2 - 1) + 1 := by omega
  conv_lhs => rw [this]
  rw [Nat.pow_succ]
  omega

/-- Where the current CU's samples lie in the histories (10_state.md R41, R43, R55). -/
theorem position_bounds (hp : s.pictureValid = true) (hi : s.positionInside = true) :
    s.sizeLegal = true ∧ s.col < s.numCols ∧ s.rowIx < s.numRows ∧ s.numCols ≤ 1024 ∧ s.numRows ≤ 1024
      ∧ s.numCols * s.sizeOf .y = s.picW ∧ s.picW ≤ 4096 ∧ s.x0 .y + s.sizeOf .y ≤ 4096 := by
  simp only [State.pictureValid, Bool.and_eq_true, dimLegal, decide_eq_true_eq] at hp
  simp only [State.positionInside, Bool.and_eq_true, decide_eq_true_eq] at hi
  obtain ⟨⟨hs, ⟨hw1, hw2⟩, hw3⟩, ⟨hh1, hh2⟩, hh3⟩ := hp
  have hl := sizeLegal_iff.mp hs
  have hpow : 4 ≤ 2 ^ s.cuLog2 := by
    calc 4 = 2 ^ 2 := by norm_num
      _ ≤ 2 ^ s.cuLog2 := Nat.pow_le_pow_right (by norm_num) hl.1
  have hcols : s.numCols ≤ 1024 := by
    simp only [State.numCols]
    exact (Nat.div_le_div hw2 hpow (by norm_num)).trans (by norm_num)
  have hrows : s.numRows ≤ 1024 := by
    simp only [State.numRows]
    exact (Nat.div_le_div hh2 hpow (by norm_num)).trans (by norm_num)
  have hmul : s.numCols * s.sizeOf .y = s.picW := by
    simp only [State.numCols, State.sizeOf, State.lgOf]
    exact Nat.div_mul_cancel (Nat.dvd_of_mod_eq_zero hw3)
  refine ⟨hs, hi.1, hi.2, hcols, hrows, hmul, hw2, ?_⟩
  calc s.x0 .y + s.sizeOf .y = (s.col + 1) * s.sizeOf .y := by simp only [State.x0]; ring
    _ ≤ s.numCols * s.sizeOf .y := Nat.mul_le_mul_right _ hi.1
    _ ≤ 4096 := by omega

end CommandLaws

end Sys2Proof.Machine
end

