-- ==== Sys2Proof/Laws/Encoding.lean ====
section
/-! SUPPORT. The command word's layout loses no bit: splitting a joined word gives the fields, joining the split fields
gives the word (30_encoding.md R111). -/

namespace Sys2Proof

namespace EncodingLaws

theorem getLsbD_joinWord (f : CmdFields) (i : Nat) :
    (joinWord f).getLsbD i
      = if i < 13 then f.low.getLsbD i
        else if i < 14 then f.aovr
        else if i < 15 then f.dstv
        else if i < 16 then f.dsth
        else if i < 18 then f.tt.getLsbD (i - 16)
        else if i < 24 then f.mode.getLsbD (i - 18)
        else if i < 26 then f.c.getLsbD (i - 24)
        else f.op.getLsbD (i - 26) := by
  simp only [joinWord, BitVec.getLsbD_append, BitVec.getLsbD_ofBool]
  by_cases h1 : i < 13
  · simp [h1]
  · by_cases h2 : i < 14
    · have : i = 13 := by omega
      subst this; simp
    · by_cases h3 : i < 15
      · have : i = 14 := by omega
        subst this; simp
      · by_cases h4 : i < 16
        · have : i = 15 := by omega
          subst this; simp
        · have e1 : ¬ i - 13 < 1 := by omega
          have e2 : ¬ i - 13 - 1 < 1 := by omega
          have e3 : ¬ i - 13 - 1 - 1 < 1 := by omega
          have e4 : i - 13 - 1 - 1 - 1 = i - 16 := by omega
          have e5 : i - 16 - 2 = i - 18 := by omega
          have e6 : i - 18 - 6 = i - 24 := by omega
          have e7 : i - 24 - 2 = i - 26 := by omega
          have c1 : (i - 16 < 2) = (i < 18) := by simp only [eq_iff_iff]; omega
          have c2 : (i - 18 < 6) = (i < 24) := by simp only [eq_iff_iff]; omega
          have c3 : (i - 24 < 2) = (i < 26) := by simp only [eq_iff_iff]; omega
          simp only [h1, h2, h3, h4, e1, e2, e3, e4, e5, e6, e7, c1, c2, c3, if_false]

/-- Splitting a joined word gives its fields. -/
theorem splitWord_joinWord (f : CmdFields) : splitWord (joinWord f) = f := by
  obtain ⟨op, c, mode, tt, dsth, dstv, aovr, low⟩ := f
  simp only [splitWord, CmdFields.mk.injEq]
  refine ⟨?_, ?_, ?_, ?_, ?_, ?_, ?_, ?_⟩
  · ext i hi
    simp only [BitVec.getElem_extractLsb', getLsbD_joinWord]
    rw [if_neg (by omega), if_neg (by omega), if_neg (by omega), if_neg (by omega), if_neg (by omega),
      if_neg (by omega), if_neg (by omega), Nat.add_sub_cancel_left, BitVec.getLsbD_eq_getElem hi]
  · ext i hi
    simp only [BitVec.getElem_extractLsb', getLsbD_joinWord]
    rw [if_neg (by omega), if_neg (by omega), if_neg (by omega), if_neg (by omega), if_neg (by omega),
      if_neg (by omega), if_pos (by omega), Nat.add_sub_cancel_left, BitVec.getLsbD_eq_getElem hi]
  · ext i hi
    simp only [BitVec.getElem_extractLsb', getLsbD_joinWord]
    rw [if_neg (by omega), if_neg (by omega), if_neg (by omega), if_neg (by omega), if_neg (by omega),
      if_pos (by omega), Nat.add_sub_cancel_left, BitVec.getLsbD_eq_getElem hi]
  · ext i hi
    simp only [BitVec.getElem_extractLsb', getLsbD_joinWord]
    rw [if_neg (by omega), if_neg (by omega), if_neg (by omega), if_neg (by omega), if_pos (by omega),
      Nat.add_sub_cancel_left, BitVec.getLsbD_eq_getElem hi]
  · rw [getLsbD_joinWord]; simp
  · rw [getLsbD_joinWord]; simp
  · rw [getLsbD_joinWord]; simp
  · ext i hi
    simp only [BitVec.getElem_extractLsb', getLsbD_joinWord]
    rw [if_pos (by omega), Nat.zero_add, BitVec.getLsbD_eq_getElem hi]

/-- Joining the fields of a split word gives the word. -/
theorem joinWord_splitWord (w : Word) : joinWord (splitWord w) = w := by
  apply BitVec.eq_of_getLsbD_eq
  intro i hi
  rw [getLsbD_joinWord]
  simp only [splitWord, BitVec.getLsbD_extractLsb']
  by_cases h1 : i < 13
  · simp [h1]
  by_cases h2 : i < 14
  · have : i = 13 := by omega
    subst this; simp
  by_cases h3 : i < 15
  · have : i = 14 := by omega
    subst this; simp
  by_cases h4 : i < 16
  · have : i = 15 := by omega
    subst this; simp
  have pick : ∀ k n : Nat, k ≤ i → i < k + n → (decide (i - k < n) && w.getLsbD (k + (i - k))) = w.getLsbD i := by
    intro k n hk hn
    have e : k + (i - k) = i := by omega
    have d : i - k < n := by omega
    simp [e, d]
  by_cases h5 : i < 18
  · simp only [h1, h2, h3, h4, h5, if_true, if_false]; exact pick 16 2 (by omega) (by omega)
  by_cases h6 : i < 24
  · simp only [h1, h2, h3, h4, h5, h6, if_true, if_false]; exact pick 18 6 (by omega) (by omega)
  by_cases h7 : i < 26
  · simp only [h1, h2, h3, h4, h5, h6, h7, if_true, if_false]; exact pick 24 2 (by omega) (by omega)
  · simp only [h1, h2, h3, h4, h5, h6, h7, if_false]; exact pick 26 6 (by omega) (by omega)

/-- A word's fields are what its command was encoded from. -/
@[simp] theorem splitWord_encode (i : Instr) : splitWord (encode i) = i.fields := splitWord_joinWord _

/-- A word is the joining of its fields. -/
theorem eq_joinWord_iff (w : Word) (f : CmdFields) : w = joinWord f ↔ splitWord w = f := by
  constructor
  · rintro rfl; exact splitWord_joinWord f
  · rintro rfl; exact (joinWord_splitWord w).symm

end EncodingLaws

end Sys2Proof
end

