-- ==== Sys2Proof/Laws/PerInstr.lean ====
section
/-! SUPPORT. A fact about every command as syntax, one lemma per constructor: its word lies in its row of
spec/opcode_table.json. -/

namespace Sys2Proof.Laws.TableRow

/-- The row's `mask` in spec/opcode_table.json. -/
def mask : Instr → Word
  | .nop => 0xFFFFFFFF#32
  | .frameInit => 0xFFFFFFFF#32
  | .refbuild _ _ => 0xFCFFDFFF#32
  | .pred _ _ => 0xFC03FFFF#32
  | .resid _ => 0xFCFFFFFF#32
  | .fdct _ _ _ _ _ => 0xFC003FFF#32
  | .quant _ => 0xFCFFFFFF#32
  | .dequant _ => 0xFCFFFFFF#32
  | .idct _ _ _ _ _ => 0xFC003FFF#32
  | .recon _ => 0xFCFFFFFF#32
  | .mpm => 0xFFFFFFFF#32
  | .histUpdate _ => 0xFF03FFFF#32

/-- The row's `match` in spec/opcode_table.json. -/
def pattern : Instr → Word
  | .nop => 0x00000000#32
  | .frameInit => 0x04000000#32
  | .refbuild _ _ => 0x08000000#32
  | .pred _ _ => 0x0C000000#32
  | .resid _ => 0x10000000#32
  | .fdct _ _ _ _ _ => 0x14000000#32
  | .quant _ => 0x18000000#32
  | .dequant _ => 0x1C000000#32
  | .idct _ _ _ _ _ => 0x20000000#32
  | .recon _ => 0x24000000#32
  | .mpm => 0x28000000#32
  | .histUpdate _ => 0x2C000000#32

/-- The command's word matches its row: `w & mask = match` (30_encoding.md R120). -/
def Statement (i : Instr) : Prop := encode i &&& mask i = pattern i

theorem nop : Statement .nop := by unfold Statement; decide
theorem frameInit : Statement .frameInit := by unfold Statement; decide
theorem refbuild (c : BitVec 2) (aovr : Bool) : Statement (.refbuild c aovr) := by
  revert c aovr; unfold Statement; decide +kernel
theorem pred (c : BitVec 2) (mode : BitVec 6) : Statement (.pred c mode) := by
  revert c mode; unfold Statement; decide +kernel
theorem resid (c : BitVec 2) : Statement (.resid c) := by revert c; unfold Statement; decide +kernel
theorem fdct (c : BitVec 2) (mode : BitVec 6) (tt : BitVec 2) (dsth dstv : Bool) :
    Statement (.fdct c mode tt dsth dstv) := by
  revert c mode tt dsth dstv; unfold Statement; decide +kernel
theorem quant (c : BitVec 2) : Statement (.quant c) := by revert c; unfold Statement; decide +kernel
theorem dequant (c : BitVec 2) : Statement (.dequant c) := by revert c; unfold Statement; decide +kernel
theorem idct (c : BitVec 2) (mode : BitVec 6) (tt : BitVec 2) (dsth dstv : Bool) :
    Statement (.idct c mode tt dsth dstv) := by
  revert c mode tt dsth dstv; unfold Statement; decide +kernel
theorem recon (c : BitVec 2) : Statement (.recon c) := by revert c; unfold Statement; decide +kernel
theorem mpm : Statement .mpm := by unfold Statement; decide
theorem histUpdate (mode : BitVec 6) : Statement (.histUpdate mode) := by
  revert mode; unfold Statement; decide +kernel

end Sys2Proof.Laws.TableRow
end

