-- ==== Sys2Proof/Laws/RefBuild.lean ====
section
/-! SUPPORT. Substitution (42_refbuild.md R195) element by element: the segments flattened to (available, sample) pairs,
and what each element of the filled border holds. -/

namespace Sys2Proof.Machine

namespace RefBuildLaws

open ElementLaws

/-- The elements of the segments, each with its segment's flag. -/
def flatten (segs : List (Bool × List Int)) : List (Bool × Int) := segs.flatMap fun s => s.2.map fun v => (s.1, v)

/-- Filling, element by element. -/
def fillElems : Int → List (Bool × Int) → List Int
  | _, [] => []
  | _, (true, v) :: t => v :: fillElems v t
  | last, (false, _) :: t => last :: fillElems last t

theorem flatten_cons (f : Bool) (vals : List Int) (t : List (Bool × List Int)) :
    flatten ((f, vals) :: t) = vals.map (fun v => (f, v)) ++ flatten t := rfl

theorem fillElems_true (last : Int) (vals : List Int) (t : List (Bool × Int)) :
    fillElems last (vals.map (fun v => (true, v)) ++ t) = vals ++ fillElems (vals.getLastD last) t := by
  induction vals generalizing last with
  | nil => rfl
  | cons v vs ih =>
    simp only [List.map_cons, List.cons_append, fillElems, ih]
    cases vs <;> simp [List.getLastD]

theorem fillElems_false (last : Int) (vals : List Int) (t : List (Bool × Int)) :
    fillElems last (vals.map (fun v => (false, v)) ++ t) = List.replicate vals.length last ++ fillElems last t := by
  induction vals with
  | nil => rfl
  | cons v vs ih =>
    simp only [List.map_cons, List.cons_append, fillElems, ih, List.length_cons, List.replicate_succ]

theorem fillSegments_eq (last : Int) (segs : List (Bool × List Int)) :
    fillSegments last segs = fillElems last (flatten segs) := by
  induction segs generalizing last with
  | nil => rfl
  | cons s t ih =>
    obtain ⟨f, vals⟩ := s
    rw [flatten_cons]
    cases f with
    | true => rw [fillSegments, fillElems_true, ih]
    | false => rw [fillSegments, fillElems_false, ih]

/-- The seed is the first available sample, 128 when there is none. -/
theorem fillSeed_eq (segs : List (Bool × List Int)) :
    fillSeed segs = match (flatten segs).find? (fun p => p.1) with | some p => p.2 | none => 128 := by
  induction segs with
  | nil => rfl
  | cons s t ih =>
    obtain ⟨f, vals⟩ := s
    rw [flatten_cons]
    cases f with
    | true =>
      cases vals with
      | nil => simp [fillSeed, ih]
      | cons v vs => simp [fillSeed]
    | false =>
      rw [fillSeed, ih, List.find?_append]
      have : List.find? (fun p : Bool × Int => p.1) (vals.map fun v => (false, v)) = none := by
        rw [List.find?_eq_none]
        intro x hx
        simp at hx
        obtain ⟨_, _, rfl⟩ := hx
        simp
      rw [this]
      rfl

/-- The sample of the last available element up to `i`, `last` when there is none. -/
def nearest (last : Int) (l : List (Bool × Int)) (i : Nat) : Int :=
  match (List.range (i + 1)).reverse.find? (fun j => (l.getD j (false, 0)).1) with
  | some j => (l.getD j (false, 0)).2
  | none => last

theorem range_reverse_succ (i : Nat) :
    (List.range (i + 1 + 1)).reverse = ((List.range (i + 1)).reverse.map (· + 1)) ++ [0] := by
  rw [List.range_succ_eq_map, List.reverse_cons, List.map_reverse]

/-- Each filled element is the nearest available one at or below it. -/
theorem fillElems_getD (last : Int) (l : List (Bool × Int)) (i : Nat) (h : i < l.length) :
    (fillElems last l).getD i 0 = nearest last l i := by
  induction l generalizing last i with
  | nil => simp at h
  | cons p t ih =>
    obtain ⟨f, v⟩ := p
    cases i with
    | zero => cases f <;> simp [fillElems, nearest]
    | succ i =>
      have hi : i < t.length := by simpa using h
      have e : (fillElems last ((f, v) :: t)).getD (i + 1) 0 = (fillElems (if f then v else last) t).getD i 0 := by
        cases f <;> rfl
      rw [e, ih _ _ hi]
      unfold nearest
      rw [range_reverse_succ, List.find?_append, List.find?_map]
      have : ((fun j => (((f, v) :: t).getD j (false, 0)).1) ∘ (· + 1)) = fun j => (t.getD j (false, 0)).1 := rfl
      rw [this]
      cases hf : List.find? (fun j => (t.getD j (false, 0)).1) (List.range (i + 1)).reverse with
      | some j => rfl
      | none => cases f <;> rfl

theorem segment_length (b : Bool) (v : List Int) (n : Nat) (h : v.length = n) :
    (Machine.segment b v n).2.length = n := by
  unfold Machine.segment
  split <;> simp [h]

theorem fillSegments_length (segs : List (Bool × List Int)) (last : Int) :
    (fillSegments last segs).length = (flatten segs).length := by
  rw [fillSegments_eq]
  generalize flatten segs = l
  induction l generalizing last with
  | nil => rfl
  | cons p t ih =>
    obtain ⟨f, v⟩ := p
    cases f <;> simp [fillElems, ih]

/-- The border has `4n + 1` samples, whatever the flags (42_refbuild.md R190). -/
theorem border_length (s : State) (c : Comp) (f : Avail) : (s.border c f).length = 4 * s.sizeOf c + 1 := by
  unfold State.border substitute
  rw [fillSegments_length]
  simp only [flatten, State.borderSegments, List.flatMap_cons, List.flatMap_nil, List.length_append, List.length_map,
    List.length_nil]
  rw [segment_length _ _ (s.sizeOf c) (by simp), segment_length _ _ (s.sizeOf c) (by simp),
    segment_length _ _ 1 (by simp), segment_length _ _ (s.sizeOf c) (by simp),
    segment_length _ _ (s.sizeOf c) (by simp)]
  omega

/-- The LM border has `2n` samples, whatever the flags (42_refbuild.md R197). -/
theorem lmBorder_length (s : State) (c : Comp) (f : Avail) : (s.lmBorder c f).length = 2 * s.sizeOf c := by
  unfold State.lmBorder substitute
  rw [fillSegments_length]
  simp only [flatten, List.flatMap_cons, List.flatMap_nil, List.length_append, List.length_map, List.length_nil]
  rw [segment_length _ _ (s.sizeOf c) (by simp), segment_length _ _ (s.sizeOf c) (by simp)]
  omega

end RefBuildLaws

end Sys2Proof.Machine
end

