-- ==== Sys2Proof/Laws/Rules.lean ====
section
/-! SUPPORT. How a command's rule (`CommandRule`) follows from its checks, its reads and its effect, and the ranges of
the values of elements. -/

namespace Sys2Proof.Machine

namespace RuleLaws

open CommandLaws ElementLaws

variable {s : State} {a : Arr}

theorem completeError_eq (code : ErrCode) (w : Word) : s.completeError code w = errored s code w := by
  unfold State.completeError errored Status.recordError
  split <;> simp

theorem hasValues_iff (spans : List Span) : HasValues s spans ↔ s.firstMissing spans = none :=
  firstMissing_eq_none.symm

/-- The element the fault names has no value. -/
theorem firstMissing_none {spans : List Span} {e : Nat} (h : s.firstMissing spans = some (a, e)) :
    s.elem? a e = none := by
  rw [State.firstMissing, List.findSome?_eq_some_iff] at h
  obtain ⟨_, sp, _, _, h, _⟩ := h
  unfold State.missingIn at h
  rw [List.findSome?_eq_some_iff] at h
  obtain ⟨l1, ⟨k, v⟩, l2, hl, h, _⟩ := h
  have hm : (k, v) ∈ (List.range sp.len).zip (s.row? sp.arr sp.start sp.len) := by rw [hl]; simp
  rw [List.mem_iff_getElem?] at hm
  obtain ⟨j, hj⟩ := hm
  rw [List.getElem?_zip_eq_some] at hj
  obtain ⟨h1, h2⟩ := hj
  have hjl : j < sp.len := by
    by_contra hc
    simp [hc] at h1
  rw [row?_getElem? hjl] at h2
  simp [hjl] at h1
  cases v with
  | some v => simp at h
  | none =>
    simp at h
    obtain ⟨rfl, rfl⟩ := h
    subst h1
    simpa using h2

/-- A command's rule, from three facts about what it runs: its checks are those of `CHECK`, its reads have values when
the model's do, and its effect has the frame and the result. -/
theorem commandRule_of_run {i : Instr} {checks : List (Bool × ErrCode)} {rs ws rds : List Span} {eff : State → State}
    {post : State → Prop} (hcheck : s.check i = firstFailing checks)
    (hreads : firstFailing checks = none → (HasValues s rs ↔ HasValues s rds))
    (heffect : s.check i = none → HasValues s rds →
      KeepsOutside s (eff s).completeOk ws ∧ post (eff s).completeOk) :
    CommandRule i s (runCommand i rds eff s) checks rs ws post := by
  refine ⟨fun code hc => ?_, fun hn hv => ?_, fun hn hv => ?_⟩
  · rw [run_error (hcheck.trans hc), completeError_eq]
  · rw [hreads hn, hasValues_iff] at hv
    obtain ⟨⟨b, e⟩, hm⟩ := Option.ne_none_iff_exists'.mp hv
    exact ⟨b, e, run_fault (hcheck.trans hn) hm, firstMissing_none hm⟩
  · have hv := (hreads hn).mp hv
    exact ⟨_, run_next (hcheck.trans hn) ((hasValues_iff _).mp hv), heffect (hcheck.trans hn) hv⟩

/-- The same of `exec`. -/
theorem commandRule_of {i : Instr} {checks : List (Bool × ErrCode)} {rs ws : List Span} {post : State → Prop}
    (hcheck : s.check i = firstFailing checks)
    (hreads : firstFailing checks = none → (HasValues s rs ↔ HasValues s (reads s i)))
    (heffect : s.check i = none → HasValues s (reads s i) →
      KeepsOutside s (effect i s).completeOk ws ∧ post (effect i s).completeOk) :
    CommandRule i s (exec i s) checks rs ws post := by
  rw [exec_eq]
  exact commandRule_of_run hcheck hreads heffect

/-- A block command keeps every byte outside its block. -/
theorem keepsOutside_putBlock {n : Nat} {f : Nat → Nat → Int} :
    KeepsOutside s (s.putBlock a (Block.tabulate n n f)) (blockSpans a n) := by
  intro addr h
  apply byte?_putBlock
  intro y hy
  have := h ⟨a, 32 * y, n⟩ (by simp [blockSpans]; exact hy)
  simp only [Span.covers, Bool.and_eq_false_iff, decide_eq_false_iff_not] at this
  omega

theorem val_sample (h : a.kind = .sample) (e : Nat) : 0 ≤ s.val a e ∧ s.val a e ≤ 255 := by
  simp only [State.val, State.elem?, h, Memory.lane?]
  cases s.mem.byte? (a.laneAddr e) with
  | none => simp
  | some b => have := b.isLt; simp; omega

theorem val_mode (h : a.kind = .mode) (e : Nat) : 0 ≤ s.val a e ∧ s.val a e ≤ 255 := by
  simp only [State.val, State.elem?, h, Memory.lane?]
  cases s.mem.byte? (a.laneAddr e) with
  | none => simp
  | some b => have := b.isLt; simp; omega

theorem val_coefficient (h : a.kind = .coefficient) (e : Nat) : -32768 ≤ s.val a e ∧ s.val a e ≤ 32767 := by
  simp only [State.val, State.elem?, h, Memory.lane?]
  split
  · rename_i lo hi _ _
    have h1 := BitVec.le_toInt (hi ++ lo)
    have h2 := BitVec.toInt_lt (x := hi ++ lo)
    simp only [Option.getD_some]
    omega
  · simp
  · simp

end RuleLaws

end Sys2Proof.Machine
end

