-- ==== Sys2Proof/Laws/Step.lean ====
section
/-! SUPPORT. Everything a step can do, said once: perform a host access, execute a command, or nothing; and everything a
host access can do. -/

namespace Sys2Proof.Machine

namespace StepLaws

variable {s t : State} {p : BuildParams}

/-- A host move performs the oldest access, or nothing. -/
theorem hostMove_cases (p : BuildParams) (s : State) :
    (s.bus = [] ∧ s.hostMove p = s)
      ∨ ∃ a rest, s.bus = a :: rest ∧ s.hostMove p = State.perform { s with bus := rest } p a := by
  unfold State.hostMove
  cases h : s.bus with
  | nil => exact .inl ⟨rfl, by simp⟩
  | cons a rest => exact .inr ⟨a, rest, rfl, by simp⟩

/-- Everything a step of a build can do when it goes on. -/
theorem stepIn_cases (h : stepIn p s = .next t) :
    (s.pending = none ∧ t = s.hostMove p)
      ∨ (∃ w, s.pending = some w ∧ s.hostOvertakes = true ∧ t = State.hostMove { s with latency := s.latency - 1 } p)
      ∨ (∃ w code, s.pending = some w ∧ s.hostOvertakes = false ∧ decodeWord w = .error code
          ∧ t = s.completeError code w)
      ∨ ∃ w i, s.pending = some w ∧ s.hostOvertakes = false ∧ decodeWord w = .ok i ∧ execIn p i s = .next t := by
  unfold stepIn State.move at h
  cases hp : s.pending with
  | none =>
    rw [hp] at h
    exact .inl ⟨rfl, by simpa using h.symm⟩
  | some w =>
    rw [hp] at h
    cases ho : s.hostOvertakes with
    | true =>
      rw [ho] at h
      exact .inr (.inl ⟨w, rfl, rfl, by simpa using h.symm⟩)
    | false =>
      simp only [ho, Bool.false_eq_true, if_false, State.engineMove] at h
      cases hd : decodeWord w with
      | ok i =>
        rw [hd] at h
        exact .inr (.inr (.inr ⟨w, i, rfl, rfl, hd, h⟩))
      | error code =>
        rw [hd] at h
        exact .inr (.inr (.inl ⟨w, code, rfl, rfl, hd, by simpa using h.symm⟩))

/-- Everything a step can do when it goes on. -/
theorem step_cases (h : step s = .next t) :
    (s.pending = none ∧ t = s.hostMove defaultBuild)
      ∨ (∃ w, s.pending = some w ∧ s.hostOvertakes = true
          ∧ t = State.hostMove { s with latency := s.latency - 1 } defaultBuild)
      ∨ (∃ w code, s.pending = some w ∧ s.hostOvertakes = false ∧ decodeWord w = .error code
          ∧ t = s.completeError code w)
      ∨ ∃ w i, s.pending = some w ∧ s.hostOvertakes = false ∧ decodeWord w = .ok i ∧ exec i s = .next t := by
  simpa only [CommandLaws.execIn_default] using stepIn_cases h

/-- A host read changes the response and the counter of free values only. -/
theorem hostRead_cases (s : State) (addr : BitVec 17) (bits : Nat) :
    s.hostRead addr bits = { s with response := some busError }
      ∨ ∃ d, s.hostRead addr bits = { s with response := some ⟨false, d⟩, draws := s.draws + 1 } := by
  unfold State.hostRead
  simp only
  split
  · rename_i d _
    exact .inr ⟨d, rfl⟩
  · exact .inl rfl

/-- A host write is a bus error, a write of one register, or a write of two lanes. -/
theorem hostWrite_cases (p : BuildParams) (s : State) (addr : BitVec 17) (bits : Nat) (v : Word) :
    s.hostWrite p addr bits v = { s with response := some busError }
      ∨ (∃ r, targetOf addr.toNat = .reg r
          ∧ s.hostWrite p addr bits v = { s.writeReg p v r with response := some ⟨false, 0#32⟩ })
      ∨ ∃ a e, targetOf addr.toNat = .lanes a e
          ∧ s.hostWrite p addr bits v
            = { (s.writeLane a e (v.extractLsb' 0 16)).writeLane a (e + 1) (v.extractLsb' 16 16) with
                response := some ⟨false, 0#32⟩ } := by
  unfold State.hostWrite
  cases hf : servedForm addr bits with
  | false => exact .inl rfl
  | true =>
    cases ht : targetOf addr.toNat with
    | reg r => exact .inr (.inl ⟨r, rfl, rfl⟩)
    | lanes a e => exact .inr (.inr ⟨a, e, rfl, rfl⟩)
    | unmapped => exact .inl rfl

/-- A host write depends on the build only where it performs the soft reset. -/
theorem hostWrite_build (p q : BuildParams) (s : State) (a : BitVec 17) (bits : Nat) (v : Word)
    (h : a = 0x0000C#17 → bits = 32 → v.getLsbD 31 = false) : s.hostWrite p a bits v = s.hostWrite q a bits v := by
  unfold State.hostWrite
  cases hf : servedForm a bits with
  | false => rfl
  | true =>
    simp only [if_true]
    have key : s.writeTarget p v (targetOf a.toNat) = s.writeTarget q v (targetOf a.toNat) := by
      cases ht : targetOf a.toNat with
      | reg r =>
        by_cases hr : r = .ctrl
        · subst hr
          have ha : a = 0x0000C#17 := by
            unfold targetOf at ht
            split at ht
            · rename_i r h1
              injection ht with ht; subst ht
              have := List.find?_some h1
              simp [Reg.offset] at this
              exact BitVec.eq_of_toNat_eq (by simpa using this.symm)
            · split at ht <;> cases ht
          have := h ha (by simp [servedForm] at hf; exact hf.1)
          simp only [State.writeTarget, State.writeReg, this]; rfl
        · cases r <;> first | rfl | exact absurd rfl hr
      | lanes a e => rfl
      | unmapped => rfl
    rw [key]

/-! ### The platform -/

theorem blockAddress_eq_some {a : Nat} {addr : BitVec 17} :
    blockAddress p a = some addr ↔ a = platformAddress p addr := by
  unfold blockAddress platformAddress
  have := addr.isLt
  constructor
  · intro h
    split at h
    · injection h with h
      subst h
      rw [BitVec.toNat_ofNat, Nat.mod_eq_of_lt (by omega)]
      omega
    · cases h
  · rintro rfl
    rw [if_pos (by omega)]
    simp

/-- Everything issuing an access can do: queue what reaches the block, or nothing. -/
theorem issue_cases (s : State) (p : BuildParams) (a : PlatformAccess) :
    (a.route p = none ∧ s.issue p a = s)
      ∨ ∃ h, a.route p = some h ∧ s.issue p a = { s with bus := s.bus ++ [h] } := by
  unfold State.issue
  cases h : a.route p with
  | none => exact .inl ⟨rfl, rfl⟩
  | some b => exact .inr ⟨b, rfl, rfl⟩

/-- A lane write changes the storage only. -/
theorem writeLane_state (a : Arr) (e : Nat) (u : BitVec 16) :
    s.writeLane a e u = { s with mem := (s.writeLane a e u).mem } := by
  unfold State.writeLane
  split <;> rfl

theorem wf_writeLane (a : Arr) (e : Nat) (u : BitVec 16) (h : s.mem.wf = true) : (s.writeLane a e u).mem.wf = true := by
  unfold State.writeLane
  split
  · exact ElementLaws.wf_putRow? h
  · exact h

end StepLaws

end Sys2Proof.Machine
end

