-- ==== Sys2Proof/Tests/Slice0.lean ====
section
/-! SUPPORT. Tests on fixed values, every expected value from the spec (95_test_vectors.md and the rules named beside each
test), and for every statement with hypotheses a named witness that meets them. -/

namespace Sys2Proof.Machine.Tests

set_option Elab.async false

open Sys2Proof Sys2Proof.Machine Sys2Proof.Machine.Claims

/-! ### Small states -/

/-- A storage that holds the runs given, in address order. -/
def store (runs : List (Arr × Nat × List Int)) : Memory :=
  runs.flatMap fun r => Memory.cellsFrom (r.1.laneAddr r.2.1) ((r.2.2.map some).flatMap (laneBytes r.1.kind))

/-- The rows of a block in the upper left of a working buffer. -/
def block (a : Arr) (b : Block) : List (Arr × Nat × List Int) := b.zipIdx.map fun r => (a, 32 * r.2, r.1)

/-- A block of one value. -/
def flat (a : Arr) (n : Nat) (v : Int) : List (Arr × Nat × List Int) := block a (List.replicate n (List.replicate n v))

/-- The state of reset, but for `CU_LOG2`, `PIC_SIZE`, both QPs (22) and the storage. -/
def setup (lg w h : Nat) (runs : List (Arr × Nat × List Int)) : State :=
  { State.reset with
    cfg :=
      { State.reset.cfg with
        cuLog2 := BitVec.ofNat 3 lg
        picSize := BitVec.ofNat 32 (65536 * h + w)
        qpY := 22#6
        qpC := 22#6 }
    mem := store runs }

/-- The same state at another `CU_POS` and with another `AVAIL_OVR`. -/
def atPos (pos : Word) (ovr : BitVec 5) (s : State) : State :=
  { s with cuPos := pos, cfg := { s.cfg with availOvr := ovr } }

/-- The answer is a next state with the property. -/
def next (o : Answer) (p : State → Bool) : Bool :=
  match o with
  | .next t => p t
  | .fault _ => false
  | .refused _ => false

/-- The answer is this fault. -/
def stops (o : Answer) (f : Fault) : Bool :=
  match o with
  | .next _ => false
  | .fault g => g == f
  | .refused _ => false

/-- `len` elements from `start` on. -/
def elems (t : State) (a : Arr) (start len : Nat) : List (Option Int) := t.row? a start len

/-- Integers as elements with a value. -/
def vals (l : List Int) : List (Option Int) := l.map some

/-! ### Well-formedness: each check refuses an ill-formed term (30_encoding.md R119) -/

theorem test_wellFormed_mode_needs_tt0 : (Instr.fdct 0#2 1#6 1#2 false false).wellFormed = false := by decide
theorem test_wellFormed_dsth_needs_tt2 : (Instr.fdct 0#2 0#6 0#2 true false).wellFormed = false := by decide
theorem test_wellFormed_idct_mode_needs_tt0 : (Instr.idct 0#2 34#6 2#2 true true).wellFormed = false := by decide
theorem test_wellFormed_idct_dstv_needs_tt2 : (Instr.idct 0#2 0#6 1#2 false true).wellFormed = false := by decide
theorem test_wellFormed_accepts : (Instr.idct 1#2 0#6 2#2 true false).wellFormed = true := by decide

/-! ### Decoding: words written out bit by bit from 30_encoding.md R111 and R112, one for each command -/

theorem test_decode_nop : decodeWord 0b000000_00_000000_00_0_0_0_0000000000000#32 = .ok .nop := by decide
theorem test_decode_frameInit : decodeWord 0b000001_00_000000_00_0_0_0_0000000000000#32 = .ok .frameInit := by decide
theorem test_decode_refbuild :
    decodeWord 0b000010_10_000000_00_0_0_1_0000000000000#32 = .ok (.refbuild 2#2 true) := by decide
theorem test_decode_pred :
    decodeWord 0b000011_01_100011_00_0_0_0_0000000000000#32 = .ok (.pred 1#2 35#6) := by decide
theorem test_decode_resid : decodeWord 0b000100_10_000000_00_0_0_0_0000000000000#32 = .ok (.resid 2#2) := by decide
theorem test_decode_fdct :
    decodeWord 0b000101_01_000000_10_1_0_0_0000000000000#32 = .ok (.fdct 1#2 0#6 2#2 true false) := by decide
theorem test_decode_quant : decodeWord 0b000110_01_000000_00_0_0_0_0000000000000#32 = .ok (.quant 1#2) := by decide
theorem test_decode_dequant : decodeWord 0b000111_11_000000_00_0_0_0_0000000000000#32 = .ok (.dequant 3#2) := by decide
theorem test_decode_idct :
    decodeWord 0b001000_00_001010_00_0_0_0_0000000000000#32 = .ok (.idct 0#2 10#6 0#2 false false) := by decide
theorem test_decode_recon : decodeWord 0b001001_01_000000_00_0_0_0_0000000000000#32 = .ok (.recon 1#2) := by decide
theorem test_decode_mpm : decodeWord 0b001010_00_000000_00_0_0_0_0000000000000#32 = .ok .mpm := by decide
theorem test_decode_histUpdate :
    decodeWord 0b001011_00_011010_00_0_0_0_0000000000000#32 = .ok (.histUpdate 26#6) := by decide
theorem test_decode_dstv_is_bit14 :
    decodeWord 0b001000_01_000000_10_0_1_0_0000000000000#32 = .ok (.idct 1#2 0#6 2#2 false true) := by decide
theorem test_decode_opcode_before_fields :
    decodeWord 0b001100_00_000000_00_0_0_0_0000000000001#32 = .error .illegalOpcode := by decide
theorem test_decode_low_bit_reserved :
    decodeWord 0b000000_00_000000_00_0_0_0_1000000000000#32 = .error .reservedField := by decide
theorem test_decode_table_word : decodeTableWord 32 0x0D8C0000 = some (.pred 1#2 35#6) := by decide

/-! ### One step of each command -/

/-- A picture of one row of two 4×4 CUs. -/
def small : List (Arr × Nat × List Int) → State := setup 2 8 4

theorem test_nop :
    next (exec .nop State.reset) (fun t => t == { State.reset with status := { Status.reset with done := true } }) = true := by
  decide +kernel

/-- 95 section 2.8, FRAME_INIT. -/
theorem test_frameInit :
    next (exec .frameInit (atPos 1#32 0#5 (small [(.topMode, 0, [7]), (.leftMode, 0, [7])])))
      (fun t => t.elem? .topMode 0 == some 255 && t.elem? .topMode 1024 == some 255
        && elems t .leftMode 0 2 == vals [255, 255] && t.cuPos == 0#32 && t.status.done) = true := by decide +kernel

/-- The borders of 95 section 2.3, B6. -/
def b6 (ovr : BitVec 5) : State :=
  atPos 1#32 ovr (setup 2 16 4
    [(.topPix .y, 0, [100, 101, 102, 103, 104, 105, 106, 107, 108, 109, 110, 111, 112, 113, 114, 115]),
      (.corner .y, 0, [50]), (.leftPix .y, 0, [1, 2, 3, 4, 5, 6, 7, 8])])

/-- 95 section 2.3, B6 and its `REFF_0`. -/
theorem test_refbuild_all_available :
    next (exec (.refbuild 0#2 true) (b6 0x1F#5)) (fun t =>
      elems t (.ref .y) 0 18
          == vals [8, 7, 6, 5, 4, 3, 2, 1, 50, 104, 105, 106, 107, 108, 109, 110, 111] ++ [none]
        && elems t .reff0 0 17 == vals [8, 7, 6, 5, 4, 3, 2, 14, 51, 91, 105, 106, 107, 108, 109, 110, 111]
        && t.res.avail == some 31#5) = true := by decide +kernel

/-- 95 section 2.3, B7. -/
theorem test_refbuild_substitution :
    next (exec (.refbuild 0#2 true) (b6 0x09#5)) (fun t =>
      elems t (.ref .y) 0 17 == vals [8, 7, 6, 5, 5, 5, 5, 5, 5, 104, 105, 106, 107, 107, 107, 107, 107]
        && t.res.avail == some 9#5) = true := by decide +kernel

/-- The luma border of B6 with its smoothed copy left out. -/
def border6 : List (Arr × Nat × List Int) :=
  [(.ref .y, 0, [8, 7, 6, 5, 4, 3, 2, 1, 50, 104, 105, 106, 107, 108, 109, 110, 111])]

/-- 95 section 2.4, mode 13: a negative angle, whose reference runs on over the top. -/
theorem test_pred_angular13 :
    next (exec (.pred 0#2 13#6) (small border6)) (fun t =>
      t.block (.buf .pred .y) 4 == [[15, 29, 42, 57], [2, 1, 1, 7], [3, 2, 2, 2], [4, 3, 3, 3]]) = true := by
  decide +kernel

/-- The storage of 95 section 2.5, LM1, after its `REFBUILD`. -/
def lm1 : State :=
  setup 3 16 8
    (block (.buf .reco .y) ((List.range 8).map fun r => (List.range 8).map fun x => ((80 + 4 * r + x : Nat) : Int))
      ++ [(.ref .u, 0, [52, 52, 52, 52, 52, 48, 44, 40, 40, 46, 50, 54, 58, 58, 58, 58, 58]),
        (.lmref, 0, [104, 96, 88, 80, 92, 100, 108, 116])])

/-- 95 section 2.5, LM1. -/
theorem test_pred_lm :
    next (exec (.pred 1#2 35#6) lm1) (fun t =>
      t.block (.buf .pred .u) 4 == [[41, 42, 43, 44], [45, 46, 47, 48], [49, 50, 51, 52], [53, 54, 55, 56]]
        && t.res.lmA == some 0x20#32 && t.res.lmB == some 0#32 && t.res.lmShift == some 6#4) = true := by
  decide +kernel

/-- 95 section 2.7: 0 - 255. -/
theorem test_resid :
    next (exec (.resid 0#2) (small (flat (.buf .org .y) 4 0 ++ flat (.buf .pred .y) 4 255)))
      (fun t => t.elem? (.buf .resi .y) 99 == some (-255)) = true := by decide +kernel

/-- 95 section 2.1, T3. -/
theorem test_fdct_dst :
    next (exec (.fdct 0#2 0#6 2#2 true true)
        (small (block (.buf .resi .y) [[100, 0, 0, 0], [0, 0, 0, 0], [0, 0, 0, 0], [0, 0, 0, 0]])))
      (fun t => t.block (.buf .coef .y) 4
        == [[164, 419, 476, 312], [419, 1070, 1214, 795], [476, 1214, 1378, 902], [312, 795, 902, 591]]) = true := by
  decide +kernel

/-- 95 section 2.1, T8: pass 1 wraps. -/
theorem test_fdct_wraps :
    next (exec (.fdct 0#2 0#6 1#2 false false) (small (flat (.buf .resi .y) 4 32767)))
      (fun t => t.block (.buf .coef .y) 4 == [[-128, 0, 0, 0], [0, 0, 0, 0], [0, 0, 0, 0], [0, 0, 0, 0]]) = true := by
  decide +kernel

/-- 95 section 2.1, T13: pass 1 saturates. -/
theorem test_idct_saturates :
    next (exec (.idct 0#2 0#6 1#2 false false)
        (small (block (.buf .dq .y) [[32767, 0, 0, 0], [32767, 0, 0, 0], [32767, 0, 0, 0], [32767, 0, 0, 0]])))
      (fun t => t.block (.buf .rres .y) 4
        == [[512, 512, 512, 512], [-188, -188, -188, -188], [188, 188, 188, 188], [36, 36, 36, 36]]) = true := by
  decide +kernel

/-- 95 section 2.1, T11: the horizontal pass is the DST of the rows, the vertical that of the columns. -/
theorem test_idct_dst :
    next (exec (.idct 0#2 0#6 2#2 true true) (small (block (.buf .dq .y)
        [[1002, 0, -1002, 1002], [1348, 0, -1348, 1348], [-528, 0, 528, -528], [-1530, 0, 1530, -1530]])))
      (fun t => t.block (.buf .rres .y) 4 == [[0, 0, 0, 0], [0, 0, 127, 0], [0, 0, 0, 0], [0, 0, 0, 0]]) = true := by
  decide +kernel

/-- 95 section 2.2: 171 is the least level-1 coefficient of an I slice at QP 22; -1000 gives -4. -/
theorem test_quant :
    next (exec (.quant 0#2)
        (small (block (.buf .coef .y) [[171, 170, -1000, 0], [0, 0, 0, 0], [0, 0, 0, 0], [0, 0, 0, 0]])))
      (fun t => elems t (.buf .qcoef .y) 0 4 == vals [1, 0, -4, 0] && t.res.nzsum == some 5#32
        && t.res.cbfY == some true && t.res.cbfU == some false) = true := by decide +kernel

/-- 95 section 2.2, on chroma: `QPC` = 51 saturates, while `QPY` stays 22. -/
theorem test_dequant :
    next (exec (.dequant 1#2)
        (let s := setup 3 8 8 (block (.buf .qcoef .u) [[100, -100, 0, 0], [0, 0, 0, 0], [0, 0, 0, 0], [0, 0, 0, 0]])
         { s with cfg := { s.cfg with qpC := 51#6 } }))
      (fun t => elems t (.buf .dq .u) 0 3 == vals [32767, -32768, 0]) = true := by decide +kernel

/-- 95 section 2.7. -/
theorem test_recon :
    next (exec (.recon 0#2) (small
        (block (.buf .pred .y) (List.replicate 4 [250, 5, 128, 0])
          ++ block (.buf .rres .y) (List.replicate 4 [10, -10, 0, -1]))))
      (fun t => elems t (.buf .reco .y) 96 4 == vals [255, 0, 128, 0]) = true := by decide +kernel

/-- 95 section 2.6: (1, 26), where the literal reading of the source repeats a candidate. -/
theorem test_mpm :
    next (exec .mpm (small [(.topMode, 0, [26]), (.leftMode, 0, [1])]))
      (fun t => t.readReg 0#32 .mpm == 0x00001A01#32) = true := by decide +kernel

/-- 95 section 2.6: (0xFF, 0xFF). -/
theorem test_mpm_invalid_is_dc :
    next (exec .mpm (small [(.topMode, 0, [255]), (.leftMode, 0, [255])]))
      (fun t => t.readReg 0#32 .mpm == 0x001A0100#32) = true := by decide +kernel

/-- The luma of 95 section 2.8, H1. -/
def h1 : State :=
  setup 3 16 8
    (block (.buf .reco .y) ((List.range 8).map fun r => (List.range 8).map fun x => ((8 * r + x : Nat) : Int))
      ++ block (.buf .reco .u) ((List.range 4).map fun r => (List.range 4).map fun x => ((10 + 4 * r + x : Nat) : Int))
      ++ [(.topPix .y, 0, [200, 201, 202, 203, 204, 205, 206, 207]), (.topPix .u, 0, [150, 151, 152, 153])])

/-- 95 section 2.8, H1: the first `HIST_UPDATE`. -/
theorem test_histUpdate :
    next (exec (.histUpdate 26#6) h1) (fun t =>
      t.elem? (.corner .y) 0 == some 207 && t.elem? (.corner .u) 0 == some 153
        && elems t (.topPix .y) 0 8 == vals [56, 57, 58, 59, 60, 61, 62, 63]
        && elems t (.leftPix .y) 0 8 == vals [7, 15, 23, 31, 39, 47, 55, 63]
        && elems t (.topPix .u) 0 4 == vals [22, 23, 24, 25] && elems t (.leftPix .u) 0 4 == vals [13, 17, 21, 25]
        && elems t .lmTop 0 4 == vals [52, 54, 56, 58] && elems t .lmLeft 0 4 == vals [10, 26, 42, 58]
        && t.elem? .topMode 0 == some 26 && t.elem? .leftMode 0 == some 26 && t.cuPos == 1#32
        && t.status.frameEnd == false) = true := by decide +kernel

/-- 95 section 2.8, H1: the second, on the last CU; the copied elements that have no value stay without one. -/
theorem test_histUpdate_last :
    next (exec (.histUpdate 10#6) (atPos 1#32 0#5 (small []))) (fun t =>
      t.elem? .topMode 1 == some 10 && t.elem? .leftMode 0 == some 255 && t.cuPos == 0x00010000#32
        && t.status.frameEnd && t.elem? (.topPix .y) 4 == none) = true := by decide +kernel

/-! ### Errors, faults, the host -/

/-- 60_exceptions.md R291, R293: the second error only sets `ERR_MULTI`. -/
theorem test_second_error :
    next (exec .mpm { State.reset with status := { Status.reset with err := true, errcode := 1#4 }, errinfo := 5#32 })
      (fun t => t.statusWord == 0x0000010E#32 && t.errinfo == 5#32) = true := by decide +kernel

/-- 00_scope.md R14: a command that computes from an element without a value faults. -/
theorem test_fault :
    stops (exec (.resid 0#2) (small (flat (.buf .pred .y) 4 1))) (.noValue (.buf .org .y) 0) = true := by decide +kernel

/-- 20_memory.md R83-R87: two lanes of a coefficient array; the reserved upper lane of the last word of `REF_0`. -/
theorem test_lanes :
    ((State.reset.hostWrite defaultBuild 0x02000#17 32 0x0001FFFE#32).hostRead 0x02000#17 32).response = some ⟨false, 0x0001FFFE#32⟩
      ∧ ((State.reset.hostWrite defaultBuild 0x0D100#17 32 0x12345678#32).hostRead 0x0D100#17 32).response
        = some ⟨false, 0x00000078#32⟩ := by decide +kernel

/-- 20_memory.md R88, R89: unmapped, misaligned and narrow accesses. -/
theorem test_bus_errors :
    (State.reset.hostRead 0x0005C#17 32).response = some ⟨true, 0#32⟩
      ∧ (State.reset.hostRead 0x00002#17 32).response = some ⟨true, 0#32⟩
      ∧ (State.reset.hostWrite defaultBuild 0x00018#17 16 1#32).cfg.picSize = 0#32 := by decide +kernel

/-- 70_reset_and_hazards.md R322: the soft reset keeps the storage and resets the registers. -/
theorem test_soft_reset :
    let t := ({ small [(.leftMode, 0, [7])] with errinfo := 9#32 }).hostWrite defaultBuild 0x0000C#17 32 0x80000001#32
    t.mem = store [(.leftMode, 0, [7])] ∧ t.cfg = ConfigRegs.reset defaultBuild ∧ t.errinfo = 0#32 := by decide +kernel

/-- 60_exceptions.md R291: the first step after the load runs the command, here `RESID.Y` at the reset `CU_CFG`. -/
theorem test_fetch_word :
    next (step (State.reset.withFetchWord 32 0x10000000)) (fun t =>
      t.statusWord == 0x00000406#32 && t.errinfo == 0x10000000#32 && t.pending == none) = true := by decide

/-! ### Another build -/

/-- A build with every parameter away from its default (00_scope.md R7). -/
def otherBuild : BuildParams where
  edgeFiltMaxLog2 := 4
  intraFilter := fun _ _ => true
  lmParams := fun _ _ _ => (1, 2, 3)
  dstHReset := 0x500000001#35
  dstVReset := 0x2#35
  xicBase := 0x40000000

/-- 43_intrapred.md R246, R247: `(d >> 3) + 2` for d = 82 and 112, and the build's own a, b, shift. -/
theorem test_other_build_lm :
    next (execIn otherBuild (.pred 1#2 35#6) lm1) (fun t =>
      t.elem? (.buf .pred .u) 0 == some 12 && t.elem? (.buf .pred .u) 99 == some 16
        && t.res.lmA == some 1#32 && t.res.lmB == some 2#32 && t.res.lmShift == some 3#4) = true := by decide +kernel

/-- 43_intrapred.md R227: with the top row 255 and the left column 0, dc = 128; the edge tap (255 + 3·128 + 2) >> 2 = 160 is
there at n = 32 on the default build and not at `EDGE_FILT_MAX_LOG2` = 4. -/
theorem test_other_build_edge :
    let r := List.replicate 65 0 ++ List.replicate 64 255
    (predictBlock defaultBuild r 32 5 1 .y).get 0 1 = 160 ∧ (predictBlock otherBuild r 32 5 1 .y).get 0 1 = 128 := by
  decide +kernel

/-- 10_state.md R36, R58; 70_reset_and_hazards.md R322: both resets set the build's own masks. -/
theorem test_other_build_reset :
    (State.resetIn otherBuild).cfg.dstH = 0x500000001#35
      ∧ (State.reset.hostWrite otherBuild 0x0000C#17 32 0x80000000#32).cfg.dstV = 0x2#35
      ∧ (coreIn otherBuild).reset = State.resetIn otherBuild ∧ (coreIn defaultBuild).reset = State.reset := by
  refine ⟨?_, ?_, rfl, rfl⟩ <;> decide

/-- 20_memory.md R98: `CMD` at its platform address; the first and the last byte of the window, and those beside it. -/
theorem test_other_build_base :
    (State.reset.issue otherBuild (.write 0x40000010 32 5#32)).bus = [.write 0x00010#17 32 5#32]
      ∧ blockAddress otherBuild 0x40000000 = some 0#17 ∧ blockAddress otherBuild 0x4001FFFF = some 0x1FFFF#17
      ∧ blockAddress otherBuild 0x3FFFFFFF = none ∧ blockAddress otherBuild 0x40020000 = none := by decide

/-! ### Witnesses: the hypotheses of each statement are met -/

/-- `HasValues` as a computation. -/
def hasAll (s : State) (spans : List Span) : Bool :=
  spans.all fun sp => (List.range sp.len).all fun k => (s.elem? sp.arr (sp.start + k)).isSome

theorem hasAll_iff (s : State) (spans : List Span) : hasAll s spans = true ↔ HasValues s spans := by
  simp [hasAll, HasValues]

/-- The three cases of a command's rule are met: `bad` fails a check, `empty` passes but lacks a value, `good` completes. -/
def Meets (i : Instr) (bad empty good : State) : Prop :=
  (firstFailing (checks bad i)).isSome = true ∧ (firstFailing (checks empty i) = none ∧ ¬ HasValues empty (readsOf empty i))
    ∧ firstFailing (checks good i) = none ∧ HasValues good (readsOf good i)

theorem meets_of {i : Instr} {bad empty good : State}
    (h : ((firstFailing (checks bad i)).isSome && (firstFailing (checks empty i) == none) && !hasAll empty (readsOf empty i)
      && (firstFailing (checks good i) == none) && hasAll good (readsOf good i)) = true) : Meets i bad empty good := by
  simp only [Bool.and_eq_true, Bool.not_eq_true', beq_iff_eq] at h
  obtain ⟨⟨⟨⟨h1, h2⟩, h3⟩, h4⟩, h5⟩ := h
  refine ⟨h1, ⟨h2, fun hv => ?_⟩, h4, (hasAll_iff _ _).mp h5⟩
  rw [(hasAll_iff _ _).mpr hv] at h3
  exact absurd h3 (by decide)

theorem witness_DecodeOfEncodeIsIdentity : (Instr.fdct 2#2 0#6 2#2 false true).wellFormed = true := by decide

theorem witness_EncodeOfDecodeIsIdentity :
    decodeWord (BitVec.ofNat 32 0x1602C000) = .ok (.fdct 2#2 0#6 2#2 true true) := by decide

theorem witness_DecodeChecksFollowFormats :
    0x0B < opOf 0x30000000#32 ∧ (opOf 0x2FFFFFFF#32 ≤ 0x0B ∧ reservedBad 0x2FFFFFFF#32 = true)
      ∧ opOf 0x2CFC0000#32 ≤ 0x0B ∧ reservedBad 0x2CFC0000#32 = false := by decide +kernel

theorem witness_LegalWordMatchesOneRow : decodeWord 0x2CFC0000#32 = .ok (.histUpdate 63#6) := by decide

/-- A state with `RESID.Y` pending. -/
def waiting : State := { small [] with pending := some 0x10000000#32, cmd := 0x10000000#32 }

theorem witness_StepRunsDecodedCommand :
    waiting.pending = some 0x10000000#32 ∧ decodeWord 0x10000000#32 = .ok (.resid 0#2)
      ∧ waiting.hostOvertakes = false := by decide

theorem witness_WrittenCommandRuns :
    let s := { State.reset with bus := [.write 0x00010#17 32 0x28000000#32] }
    s.pending = none ∧ s.bus = [.write 0x00010#17 32 0x28000000#32] ∧ decodeWord 0x28000000#32 = .ok .mpm := by decide

theorem witness_HostAccessesHeldWhileBusy :
    (State.reset.pending = none ∧ State.reset.bus = [])
      ∧ (let s := { State.reset with pending := some 0#32, bus := [.read 0x00010#17 32] }
         (HostAccess.read 0x00010#17 32).address.toNat ∉ [0x000, 0x004, 0x008, 0x00C]
          ∧ next (stepIn defaultBuild s) (fun _ => true) = true)
      ∧ (HostAccess.read 0x0000C#17 32).address.toNat ∈ [0x000, 0x004, 0x008, 0x00C] := by decide +kernel

theorem witness_PendingCommandCompletes : waiting.pending.isSome = true := by decide

theorem witness_ChecksRunInTableOrder :
    firstFailing (checkTable waiting 0x30000001#32) = some .illegalOpcode
      ∧ firstFailing (checkTable waiting 0x13000000#32) = some .illegalComponent
      ∧ firstFailing (checkTable waiting 0x10000000#32) = none ∧ waiting.hostOvertakes = false := by decide +kernel

theorem witness_NopOnlyCompletes :
    opOf 0x02000000#32 = 0 ∧ (0x02000000#32).toNat % 2 ^ 26 ≠ 0 ∧ opOf 0x00000001#32 = 0 := by decide

theorem witness_FrameInitResult :
    firstFailing (checks State.reset .frameInit) = some .badSize ∧ firstFailing (checks (small []) .frameInit) = none := by
  decide +kernel

/-- `AVAIL_OVR` makes all five segments available, at column 1. -/
theorem witness_RefbuildResult_luma : Meets (.refbuild 0#2 true) State.reset (atPos 1#32 31#5 (small [])) (b6 31#5) :=
  meets_of (by decide +kernel)

/-- With no segment available nothing is read, so the chroma border and LM border are built from nothing. -/
theorem witness_RefbuildResult_chroma :
    Meets (.refbuild 2#2 false) (small []) (setup 3 16 8 []) (setup 3 16 8 [(.topMode, 0, [255, 255]), (.leftMode, 0, [255, 255])]) :=
  meets_of (by decide +kernel)

theorem witness_PredPlanarResult : Meets (.pred 0#2 0#6) State.reset (small []) (small border6) := meets_of (by decide +kernel)

theorem witness_PredDcResult_luma : Meets (.pred 0#2 1#6) State.reset (small []) (small border6) := meets_of (by decide +kernel)

theorem witness_PredDcResult_chroma : Meets (.pred 1#2 1#6) (small []) (setup 3 16 8 []) lm1 := meets_of (by decide +kernel)

theorem witness_PredAngularResult_first : Meets (.pred 0#2 2#6) State.reset (small []) (small border6) :=
  meets_of (by decide +kernel)

theorem witness_PredAngularResult_last : Meets (.pred 1#2 34#6) (small []) (setup 3 16 8 []) lm1 := meets_of (by decide +kernel)

theorem witness_PredLmResult : Meets (.pred 1#2 35#6) (small []) (setup 3 16 8 []) lm1 := meets_of (by decide +kernel)

/-- The smoothed luma border of B6. -/
def smoothed6 : State := small [(.reff0, 0, [8, 7, 6, 5, 4, 3, 2, 14, 51, 91, 105, 106, 107, 108, 109, 110, 111])]

/-- On another build: luma planar reads `REFF_0`, not `REF_0`; LM reads what it does on every build. -/
theorem witness_PredOnEveryBuild :
    firstFailing (checks State.reset (.pred 0#2 0#6)) = some .badSize
      ∧ firstFailing (checks (small []) (.pred 0#2 0#6)) = none
      ∧ hasAll (small border6) (predReadsOn otherBuild (small border6) .y 0) = false
      ∧ hasAll smoothed6 (predReadsOn otherBuild smoothed6 .y 0) = true
      ∧ firstFailing (checks lm1 (.pred 1#2 35#6)) = none
      ∧ hasAll lm1 (predReadsOn otherBuild lm1 .u 35) = true := by decide +kernel

theorem witness_ResidResult :
    Meets (.resid 0#2) State.reset (small []) (small (flat (.buf .org .y) 4 1 ++ flat (.buf .pred .y) 4 2)) :=
  meets_of (by decide +kernel)

theorem witness_FdctResult :
    Meets (.fdct 0#2 10#6 0#2 false false) State.reset (small []) (small (flat (.buf .resi .y) 4 1)) :=
  meets_of (by decide +kernel)

theorem witness_FdctResult_explicit :
    Meets (.fdct 0#2 0#6 2#2 true true) (setup 3 8 8 []) (small []) (small (flat (.buf .resi .y) 4 1)) :=
  meets_of (by decide +kernel)

theorem witness_IdctResult :
    Meets (.idct 1#2 35#6 0#2 false false) (small []) (setup 3 8 8 []) (setup 3 8 8 (flat (.buf .dq .u) 4 1)) :=
  meets_of (by decide +kernel)

theorem witness_QuantResult :
    Meets (.quant 2#2) (small []) (setup 3 8 8 []) (setup 3 8 8 (flat (.buf .coef .v) 4 900)) := meets_of (by decide +kernel)

theorem witness_DequantResult :
    Meets (.dequant 0#2) State.reset (small []) (small (flat (.buf .qcoef .y) 4 1)) := meets_of (by decide +kernel)

theorem witness_ReconResult :
    Meets (.recon 0#2) State.reset (small []) (small (flat (.buf .pred .y) 4 1 ++ flat (.buf .rres .y) 4 2)) :=
  meets_of (by decide +kernel)

/-- Modes known on the left and above. -/
def modes : State := small [(.topMode, 0, [10, 255]), (.leftMode, 0, [10, 255])]

theorem witness_MpmResult : Meets .mpm State.reset (small []) modes := meets_of (by decide +kernel)

theorem witness_HistUpdateResult : Meets (.histUpdate 34#6) State.reset (setup 3 16 8 []) h1 := meets_of (by decide +kernel)

/-- At `CU_LOG2` = 2 nothing is computed from storage; the position is the last of the picture. -/
theorem witness_HistUpdateResult_last :
    firstFailing (checks (atPos 1#32 0#5 (small [])) (.histUpdate 0#6)) = none
      ∧ lastInRow (atPos 1#32 0#5 (small [])) = true ∧ inLastRow (atPos 1#32 0#5 (small [])) = true
      ∧ lastInRow (small []) = false := by decide +kernel

theorem witness_MpmCandidatesDistinct :
    firstFailing (checks modes .mpm) = none ∧ next (exec .mpm modes) (fun _ => true) = true := by decide +kernel

/-- Histories for all three components. -/
def sides : State := setup 3 16 8 [(.topMode, 0, [255, 255]), (.leftMode, 0, [255, 255])]

theorem witness_AvailabilitySameForAllComponents :
    firstFailing (checks sides (.refbuild 0#2 false)) = none ∧ firstFailing (checks sides (.refbuild 2#2 false)) = none
      ∧ next (exec (.refbuild 0#2 false) sides) (fun _ => true) = true
      ∧ next (exec (.refbuild 2#2 false) sides) (fun _ => true) = true := by decide +kernel

theorem witness_BorderLeavesNoGap :
    firstFailing (checks sides (.refbuild 1#2 false)) = none
      ∧ next (exec (.refbuild 1#2 false) sides) (fun t => t.res.avail == some 0#5) = true := by decide +kernel

/-- The same with the left-bottom entry valid, as the host may write it: `LB` alone is available. -/
def leftBottom : State :=
  setup 3 16 8 [(.topMode, 0, [255, 255]), (.leftPix .u, 4, [9, 8, 7, 6]), (.leftMode, 0, [255, 3])]

/-- `AVAIL` is not 0, its bits 1 and 3 are: the LM border is all 128, the border is `LB` and its last sample. -/
theorem witness_BorderLeavesNoGap_lm :
    firstFailing (checks leftBottom (.refbuild 1#2 false)) = none
      ∧ next (exec (.refbuild 1#2 false) leftBottom) (fun t => t.res.avail == some 1#5
        && elems t .lmref 0 8 == vals [128, 128, 128, 128, 128, 128, 128, 128]
        && elems t (.ref .u) 0 6 == vals [6, 7, 8, 9, 9, 9]) = true := by decide +kernel

/-- A border of 17 samples. -/
def border17 : List Int := [8, 7, 6, 5, 4, 3, 2, 1, 0, 255, 254, 106, 107, 108, 109, 110, 111]

theorem witness_PredictionsAreSamples :
    border17.length = 4 * 2 ^ 2 + 1 ∧ (∀ v ∈ border17, 0 ≤ v ∧ v ≤ 255)
      ∧ 0 ≤ (predictBlock defaultBuild border17 4 2 34 .y).get 3 3 := by decide +kernel

theorem witness_NamedDirectionalPredictors : border17.length = 4 * 2 ^ 2 + 1 := by decide

theorem witness_LmParametersBounded : (lmParamsDefault (2 ^ 2) [0, 1, 2, 3, 4, 5, 6, 7] border17).2.2 ≤ 13 := by
  decide +kernel

theorem witness_QuantizerBounds :
    (∀ v < 4, ∀ u < 4, Block.get [] v u = 0) ∧ (∀ v < 4, ∀ u < 4, -32768 ≤ Block.get (List.replicate 4 (List.replicate 4 (-32768))) v u
      ∧ Block.get (List.replicate 4 (List.replicate 4 (-32768))) v u ≤ 32767) ∧ (51 : Nat) ≤ 51 := by decide +kernel

theorem witness_ForwardNeverWrapsOnResiduals :
    ∀ i < 4, ∀ j < 4, -255 ≤ (fun _ _ : Nat => (255 : Int)) i j ∧ (fun _ _ : Nat => (255 : Int)) i j ≤ 255 := by decide

/-- The last word of an array of odd length: its upper lane is reserved. -/
theorem witness_LaneWriteReadsBack : 1024 % 2 = 0 ∧ 1024 < Arr.topMode.size ∧ 62 < (Arr.leftPix .y).size := by decide

theorem witness_BusErrorsExactlyOutsideMap :
    served 0x00058#17 32 = true ∧ served 0x0005C#17 32 = false ∧ served 0x0D100#17 32 = true
      ∧ served 0x0D104#17 32 = false ∧ served 0x17940#17 32 = true ∧ served 0x17944#17 32 = false
      ∧ served 0x00FFC#17 32 = false ∧ served 0x00000#17 16 = false ∧ served 0x00001#17 32 = false := by decide

/-- A state in which only `AVAIL` has no value: what a soft reset that abandons a `REFBUILD` leaves. -/
def noAvail : State := { State.reset with res := { Results.reset with avail := none } }

theorem witness_RegistersHoldWrittenBits :
    (0x7FFFFFFF#32).getLsbD 31 = false ∧ State.reset.res.avail ≠ none ∧ noAvail.res.cbfY ≠ none
      ∧ noAvail.res.cbfU ≠ none ∧ noAvail.res.cbfV ≠ none ∧ noAvail.res.mpm ≠ none ∧ noAvail.res.lmShift ≠ none := by decide

/-- Every result register at a value of its own. -/
def results : State :=
  { State.reset with
    res := ⟨some 31#5, some 5#32, some true, some false, some true, some ⟨1#6, 26#6, 34#6⟩, some 6#32, some 7#32, some 13#4⟩ }

/-- The words by the layouts of 10_state.md R44-R47. -/
theorem witness_HostReadsAnswerRegisters :
    wordAt results 0x040 = some 0x1F#32 ∧ wordAt results 0x044 = some 5#32 ∧ wordAt results 0x048 = some 5#32
      ∧ wordAt results 0x04C = some 0x00221A01#32 ∧ wordAt results 0x050 = some 6#32
      ∧ wordAt results 0x054 = some 7#32 ∧ wordAt results 0x058 = some 13#32 := by decide

/-- A coefficient pair; the last mode, beside a reserved lane. -/
theorem witness_HostReadsAnswerLanes :
    (((small [(.buf .coef .u, 98, [-2, 3])]).hostRead 0x068C4#17 32).response = some ⟨false, 0x0003FFFE#32⟩)
      ∧ ((small [(.topMode, 1024, [255])]).hostRead 0x17000#17 32).response = some ⟨false, 0x000000FF#32⟩
      ∧ windowBase (.buf .coef .u) = 0x06800 ∧ 1024 < Arr.topMode.size ∧ Arr.topMode.size ≤ 1025 := by decide +kernel

theorem witness_CmdWriteIsAccepted :
    State.reset.pending = none
      ∧ next (step { modes with pending := some 0x28000000#32, bus := [.write 0x00010#17 32 0#32] }) (fun t => t.pending == none) = true := by
  decide +kernel

/-- 60_exceptions.md R297: enabled with `DONE` and `ERR` clear it is deasserted; with either it is asserted; disabled it is
not. -/
theorem witness_CompletionRaisesInterrupt_output :
    let enabled := { State.reset with cfg := { State.reset.cfg with irqEn := true } }
    enabled.irq = false ∧ State.irq { enabled with status := { Status.reset with done := true } } = true
      ∧ State.irq { enabled with status := { Status.reset with err := true } } = true
      ∧ State.irq { State.reset with status := { Status.reset with done := true, err := true } } = false := by decide

theorem witness_CompletionRaisesInterrupt :
    next (exec .nop { State.reset with cfg := { State.reset.cfg with irqEn := true } }) (fun t => t.irq) = true
      ∧ (6#32).getLsbD 1 = true ∧ (6#32).getLsbD 2 = true := by decide

/-- A soft reset abandons a pending `RESID.Y` that passes its checks, and nothing where none is pending. -/
theorem witness_SoftResetState_abandons : Abandons waiting (.resid 0#2) :=
  ⟨0x10000000#32, by decide, by decide, by decide +kernel⟩

theorem witness_SoftResetState_idle : (0x80000000#32).getLsbD 31 = true ∧ ∀ i, ¬ Abandons State.reset i :=
  ⟨by decide, fun i h => by obtain ⟨w, hw, _⟩ := h; cases hw⟩

theorem witness_AfterSoftResetOnlyNopSucceeds : (0x80000000#32).getLsbD 31 = true ∧ Instr.mpm ≠ .nop := by decide

/-- A `MPM` is executed while a soft reset waits behind it; a `PRED` is pending and a `STATUS` read overtakes it. -/
theorem witness_BuildsDifferOnlyInPredAndResets :
    (let s := { modes with pending := some 0x28000000#32, bus := [.write 0x0000C#17 32 0x80000000#32] }
     s.hostOvertakes = false ∧ decodeWord 0x28000000#32 = .ok .mpm
      ∧ next (stepIn otherBuild s) (fun t => t.pending == none) = true)
      ∧ (let s := { modes with pending := some 0x0C000000#32, bus := [.read 0x00008#17 32], latency := 1 }
         s.hostOvertakes = true ∧ decodeWord 0x0C000000#32 = .ok (.pred 0#2 0#6)
          ∧ next (stepIn otherBuild s) (fun t => t.pending.isSome) = true) := by decide +kernel

/-- One state for the invariants: a command pending, a host access behind it. -/
def busy : State := { waiting with bus := [.read 0x00008#17 32], latency := 1 }

theorem witness_StorageStaysCanonical : busy.mem.wf = true ∧ next (step busy) (fun _ => true) = true := by decide +kernel

theorem witness_StorageHoldsOnlyElements :
    HoldsOnlyElements modes.mem ∧ next (step { modes with pending := some 0x28000000#32 }) (fun _ => true) = true := by
  refine ⟨?_, by decide +kernel⟩
  unfold HoldsOnlyElements
  decide +kernel

theorem witness_ErrorStatusStaysConsistent :
    StatusConsistent busy.status ∧ next (step busy) (fun t => t.latency == 0) = true := by
  refine ⟨?_, by decide +kernel⟩
  unfold StatusConsistent
  decide

theorem witness_PendingWordStaysInCmd : PendingIsCmd busy ∧ next (step busy) (fun _ => true) = true := by
  refine ⟨fun w h => ?_, by decide +kernel⟩
  simpa [busy, waiting] using h

theorem witness_ResultRegistersStayInRange : ResultsInRange busy.res ∧ next (step busy) (fun _ => true) = true := by
  refine ⟨⟨fun m h => ?_, fun v h => ?_, fun v h => ?_⟩, by decide +kernel⟩
  · cases h; decide
  · cases h; decide
  · cases h; decide

theorem witness_OnlyNamedCommandsWriteStorage :
    next (exec .mpm modes) (fun _ => true) = true ∧ 1024 < Arr.topMode.size ∧ writer .topMode .mpm = false := by
  decide +kernel

theorem witness_CommandsLeaveHostRegisters :
    next (exec (.histUpdate 10#6) (atPos 1#32 0#5 (small []))) (fun t => t.status.frameEnd) = true := by decide +kernel

theorem witness_EdgeModeEntriesKept :
    pictureBad modes = false ∧ next (exec (.histUpdate 3#6) modes) (fun _ => true) = true ∧ Instr.mpm ≠ .frameInit := by
  decide +kernel

theorem witness_EngineIgnoresBusState :
    next (exec .mpm modes) (fun _ => true) = true
      ∧ stops (exec .mpm (small [])) (.noValue .leftMode 0) = true := by decide +kernel

theorem witness_PlatformAddsBaseToEveryAddress :
    State.reset.pending = none ∧ State.reset.bus = [] ∧ ∀ b : BitVec 17, 0x40020000 ≠ otherBuild.xicBase + b.toNat :=
  ⟨rfl, rfl, fun b => by have := b.isLt; show 0x40020000 ≠ 0x40000000 + b.toNat; omega⟩

end Sys2Proof.Machine.Tests
end

section
/-! PROOFS. `PRED` on every build: the model's predictors are the rules' (43_intrapred.md), on a border read as a list and
as a function of its index; every prediction is a sample, so storing it loses nothing; and a command that writes one block
and result registers. -/

namespace Sys2Proof.Machine.PredictorProofs

open ArithLaws ElementLaws CommandLaws RuleLaws Claims

/-! ### Commands that write one block -/

theorem tabulate_congr {n : Nat} {f g : Nat → Nat → Int} (h : ∀ y < n, ∀ x < n, f y x = g y x) :
    Block.tabulate n n f = Block.tabulate n n g := by
  unfold Block.tabulate
  exact List.map_congr_left fun y hy => List.map_congr_left fun x hx => h y (List.mem_range.mp hy) x (List.mem_range.mp hx)

/-- The frame and the result of a command that writes a block of storable values and the result registers. -/
theorem wroteBlock_of_putBlock {s : State} {a : Arr} {n : Nat} {f : Nat → Nat → Int} (r : Results) (hn : n ≤ 32)
    (hf : ∀ y < n, ∀ x < n, stored a.kind (f y x) = f y x) :
    KeepsOutside s (State.completeOk { s.putBlock a (Block.tabulate n n f) with res := r }) (blockSpans a n)
      ∧ WroteBlock s (State.completeOk { s.putBlock a (Block.tabulate n n f) with res := r }) a n r f := by
  refine ⟨keepsOutside_putBlock, ?_, fun y hy x hx => ?_⟩
  · rw [putBlock_state]
    rfl
  · have h := elem?_putBlock (s := s) (a := a) (f := f) hn hy hx
    rwa [hf y hy x hx] at h

/-! ### The checks of `PRED` -/

theorem badComponent_eq (s : State) (c : BitVec 2) : s.badComponent c = componentBad s c := by
  unfold State.badComponent componentBad
  generalize s.cfg.cuLog2 = l
  revert c l
  decide

theorem sizeBad_eq (s : State) : sizeBad s = !s.sizeLegal := by
  unfold sizeBad State.sizeLegal State.cuLog2
  generalize s.cfg.cuLog2 = l
  revert l
  decide

theorem badIntraMode_eq (c : BitVec 2) (mode : BitVec 6) : badIntraMode c mode = intraModeBad c mode := by
  revert c mode
  decide

/-- `CHECK` of a `PRED` is the "Errors" line of its rule. -/
theorem check_pred (s : State) (c : BitVec 2) (mode : BitVec 6) :
    s.check (.pred c mode) = firstFailing (checks s (.pred c mode)) := by
  simp only [State.check, checks, Instr.wellFormed, Instr.checkedComp, Instr.checksSize, Instr.checksPicture,
    Instr.checksPosition, Instr.modeIllegal, State.ttIllegal, State.qpIllegal, State.sliceIllegal, Option.any_some,
    badComponent_eq, badIntraMode_eq, sizeBad_eq]
  cases componentBad s c <;> cases s.sizeLegal <;> cases intraModeBad c mode <;> rfl

/-- A `PRED` that passes its checks is at a legal size and has a mode of at most 35. -/
theorem pred_checked {s : State} {c : BitVec 2} {mode : BitVec 6} (h : s.check (.pred c mode) = none) :
    s.sizeLegal = true ∧ mode.toNat ≤ 35 := by
  obtain ⟨-, -, hsize, -, -, hmode, -⟩ := check_eq_none.mp h
  simp only [Instr.modeIllegal, badIntraMode, Bool.or_eq_false_iff, decide_eq_false_iff_not] at hmode
  exact ⟨hsize rfl, by omega⟩

/-! ### Clipping, shifts and the edge filters -/

theorem clip8_eq (v : Int) : clip8 v = toSample v := by
  unfold clip8 clip3 toSample
  omega

theorem toSample_range (v : Int) : 0 ≤ toSample v ∧ toSample v ≤ 255 := clip8_eq v ▸ clip8_range v

/-- A shift by `lg + 1` divides by twice the block size. -/
theorem asr_lg_succ {n lg : Nat} (hn : n = 2 ^ lg) (v : Int) : asr v (lg + 1) = v / (2 * n) := by
  subst hn
  unfold asr
  push_cast
  rw [pow_succ, mul_comm]

theorem edgeFiltered_eq (p : BuildParams) (c : Comp) (lg : Nat) :
    edgeFiltered p c lg = decide (c = .y ∧ lg ≤ p.edgeFiltMaxLog2) := by
  unfold edgeFiltered
  rw [Bool.decide_and]

/-! ### The angles -/

theorem angle_eq {m : Nat} (h2 : 2 ≤ m) (h34 : m ≤ 34) : angle m = angleOf m := by
  have h : ∀ m ≤ 34, 2 ≤ m → angle m = angleOf m := by decide
  exact h m h34 h2

theorem angleOf_le {m : Nat} (h2 : 2 ≤ m) (h34 : m ≤ 34) : angleOf m ≤ 32 := by
  have h : ∀ m ≤ 34, 2 ≤ m → angleOf m ≤ 32 := by decide
  exact h m h34 h2

/-- The inverse angles of R225 are the rounded quotients, and undo the angle up to rounding: `8192 + |a| / 2` at most. -/
theorem invAngle_of_neg {m : Nat} (h2 : 2 ≤ m) (h34 : m ≤ 34) (hneg : angleOf m < 0) :
    invAngle (angleOf m) = invAngleOf (angleOf m) ∧ invAngleOf (angleOf m) ≤ 0
      ∧ angleOf m * invAngleOf (angleOf m) ≤ 8208 := by
  have h : ∀ m ≤ 34, 2 ≤ m → angleOf m < 0 → invAngle (angleOf m) = invAngleOf (angleOf m)
      ∧ invAngleOf (angleOf m) ≤ 0 ∧ angleOf m * invAngleOf (angleOf m) ≤ 8208 := by decide
  exact h m h34 h2 hneg

/-- The projection of a sample along the direction meets the reference at most `2n` from the corner, and the second
interpolated sample exists only where the first is not the last (R230). -/
theorem projection_le {n m along across : Nat} (h2 : 2 ≤ m) (h34 : m ≤ 34) (ha : along < n) (hx : across < n) :
    (across : Int) + ((along : Int) + 1) * angleOf m / 32 + 1 ≤ 2 * n
      ∧ (((along : Int) + 1) * angleOf m % 32 ≠ 0 →
          (across : Int) + ((along : Int) + 1) * angleOf m / 32 + 1 + 1 ≤ 2 * n) := by
  have hpos : ((along : Int) + 1) * angleOf m ≤ (along + 1) * 32 :=
    mul_le_mul_of_nonneg_left (angleOf_le h2 h34) (by omega)
  omega

/-- The backward extension (R229) reads `side` at most `2n` from the corner. -/
theorem backward_le {n m along : Nat} {i : Int} (h2 : 2 ≤ m) (h34 : m ≤ 34) (ha : along < n)
    (hi : ((along : Int) + 1) * angleOf m < 32 * i) (hneg : angleOf m < 0) :
    (i * invAngleOf (angleOf m) + 128) / 256 ≤ 2 * n := by
  obtain ⟨-, hinv, hprod⟩ := invAngle_of_neg h2 h34 hneg
  have key : 32 * (i * invAngleOf (angleOf m)) ≤ (along + 1) * 8208 := calc
    32 * (i * invAngleOf (angleOf m)) = 32 * i * invAngleOf (angleOf m) := by ring
    _ ≤ ((along : Int) + 1) * angleOf m * invAngleOf (angleOf m) := mul_le_mul_of_nonpos_right hi.le hinv
    _ = (along + 1) * (angleOf m * invAngleOf (angleOf m)) := by ring
    _ ≤ (along + 1) * 8208 := mul_le_mul_of_nonneg_left hprod (by omega)
  omega

/-! ### The predictors on a border given as a list and as a function of its index -/

section Border

variable {r : List Int} {f : Nat → Int} {n lg : Nat} (hr : ∀ i ≤ 4 * n, r.getD i 0 = f i)

include hr

theorem topSample_eq {x : Nat} (hx : x < 2 * n) : topSample r n x = above f n x := hr _ (by omega)

theorem leftSample_eq (y : Nat) : leftSample r n y = beside f n y := hr _ (by omega)

theorem cornerSample_eq : cornerSample r n = f (2 * n) := hr _ (by omega)

theorem planar_eq (hn : n = 2 ^ lg) : planar r n lg = Block.tabulate n n (planarAt f n) := by
  refine tabulate_congr fun y hy x hx => ?_
  rw [asr_lg_succ hn, leftSample_eq hr, leftSample_eq hr, topSample_eq hr (by omega), topSample_eq hr (by omega)]
  rfl

theorem dcValue_eq (hn : n = 2 ^ lg) : dcValue r n lg = dcAt f n := by
  have htop : sumTo n (topSample r n) = ∑ x ∈ Finset.range n, above f n x :=
    (sumTo_congr fun x hx => topSample_eq hr (by omega)).trans (sumTo_eq n _)
  have hleft : sumTo n (leftSample r n) = ∑ y ∈ Finset.range n, beside f n y :=
    (sumTo_congr fun y _ => leftSample_eq hr y).trans (sumTo_eq n _)
  rw [dcValue, asr_lg_succ hn, htop, hleft, dcAt]

theorem dcPredict_eq (hn : n = 2 ^ lg) (p : BuildParams) (c : Comp) :
    dcPredict p r n lg c = Block.tabulate n n (dcPredAt (edgeFiltered p c lg) f n) := by
  refine tabulate_congr fun y hy x hx => ?_
  rw [dcValue_eq hr hn, leftSample_eq hr, leftSample_eq hr, topSample_eq hr (by omega), topSample_eq hr (by omega)]
  simp [dcPredAt, asr]

/-- `ref[i]`, at the indices a projection from inside the block meets. -/
theorem refSample_eq {m along : Nat} {i : Int} (h2 : 2 ≤ m) (h34 : m ≤ 34) (ha : along < n) (hi : i ≤ 2 * n)
    (hlow : ((along : Int) + 1) * angleOf m < 32 * i) : refSample r n m i = refAt f n m i := by
  unfold refSample refAt mainSample sideSample isVertical
  by_cases h0 : 0 ≤ i
  · simp only [h0, if_true, decide_eq_true_eq]
    rw [hr _ (by omega), hr _ (by omega)]
    split <;> rfl
  · have hneg : angleOf m < 0 := by
      by_contra hc
      have := mul_nonneg (show (0 : Int) ≤ along + 1 by omega) (not_lt.mp hc)
      omega
    have hj := backward_le h2 h34 ha hlow hneg
    simp only [h0, if_false, decide_eq_true_eq, angle_eq h2 h34, (invAngle_of_neg h2 h34 hneg).1, asr, Int.reducePow]
    rw [hr _ (by omega), hr _ (by omega)]
    split <;> rfl

theorem angularSample_eq {m along across : Nat} (h2 : 2 ≤ m) (h34 : m ≤ 34) (ha : along < n) (hx : across < n) :
    angularSample r n m along across = projectedAt f n m along across := by
  obtain ⟨hi, hi'⟩ := projection_le h2 h34 ha hx
  simp only [angularSample, projectedAt, angle_eq h2 h34, asr, Int.reducePow]
  have second : ∀ q : Int, (across : Int) + q + 2 = across + q + 1 + 1 := by intro q; omega
  rw [second, refSample_eq hr h2 h34 ha hi (by omega), ite_not]
  split
  · rfl
  · rename_i hf
    rw [refSample_eq hr h2 h34 ha (hi' hf) (by omega)]

theorem angularPredict_eq {m : Nat} (h2 : 2 ≤ m) (h34 : m ≤ 34) (p : BuildParams) (c : Comp) :
    angularPredict p r n lg m c = Block.tabulate n n (angularAt (edgeFiltered p c lg) f n m) := by
  refine tabulate_congr fun y hy x hx => ?_
  rw [angularSample_eq hr h2 h34 hy hx, angularSample_eq hr h2 h34 hx hy, leftSample_eq hr, leftSample_eq hr,
    topSample_eq hr (by omega), topSample_eq hr (by omega), cornerSample_eq hr, clip8_eq, clip8_eq]
  simp [angularAt, isVertical, asr, and_assoc]

end Border

/-! ### Every prediction from a border of samples is a sample (R234) -/

section Range

variable {f : Nat → Int} {n y x : Nat} (hf : ∀ i, 0 ≤ f i ∧ f i ≤ 255)

/-- A sum of samples with weights that add up to `d`, divided by `d` with rounding, is a sample. -/
theorem rounded_mean_range {v d h : Int} (hd : 0 < d) (h0 : 0 ≤ h) (hh : h < d) (hv : 0 ≤ v ∧ v ≤ 255 * d) :
    0 ≤ (v + h) / d ∧ (v + h) / d ≤ 255 := by
  obtain ⟨hlo, hhi⟩ := hv
  exact ⟨Int.ediv_nonneg (by omega) hd.le, Int.lt_add_one_iff.mp (Int.ediv_lt_of_lt_mul hd (by omega))⟩

/-- A sample taken with a weight. -/
theorem weighted_range {w v : Int} (hw : 0 ≤ w) (hv : 0 ≤ v ∧ v ≤ 255) : 0 ≤ w * v ∧ w * v ≤ w * 255 :=
  ⟨mul_nonneg hw hv.1, mul_le_mul_of_nonneg_left hv.2 hw⟩

theorem sum_range_samples {g : Nat → Int} (hg : ∀ i, 0 ≤ g i ∧ g i ≤ 255) (n : Nat) :
    0 ≤ ∑ i ∈ Finset.range n, g i ∧ ∑ i ∈ Finset.range n, g i ≤ n * 255 := by
  refine ⟨Finset.sum_nonneg fun i _ => (hg i).1, ?_⟩
  have h := Finset.sum_le_card_nsmul (Finset.range n) g 255 fun i _ => (hg i).2
  simpa using h

include hf

theorem planarAt_range (hy : y < n) (hx : x < n) : 0 ≤ planarAt f n y x ∧ planarAt f n y x ≤ 255 := by
  have h1 := weighted_range (show 0 ≤ (n : Int) - 1 - x by omega) (hf (2 * n - 1 - y))
  have h2 := weighted_range (show 0 ≤ (x : Int) + 1 by omega) (hf (2 * n + 1 + n))
  have h3 := weighted_range (show 0 ≤ (n : Int) - 1 - y by omega) (hf (2 * n + 1 + x))
  have h4 := weighted_range (show 0 ≤ (y : Int) + 1 by omega) (hf (2 * n - 1 - n))
  exact rounded_mean_range (by omega) (by omega) (by omega) (by simp only [beside, above]; omega)

theorem dcAt_range (hn : 0 < n) : 0 ≤ dcAt f n ∧ dcAt f n ≤ 255 := by
  have htop := sum_range_samples (fun x => hf (2 * n + 1 + x)) n
  have hleft := sum_range_samples (fun y => hf (2 * n - 1 - y)) n
  exact rounded_mean_range (by omega) (by omega) (by omega) (by simp only [beside, above]; omega)

theorem dcPredAt_range (hn : 0 < n) (edges : Bool) : 0 ≤ dcPredAt edges f n y x ∧ dcPredAt edges f n y x ≤ 255 := by
  have hdc := dcAt_range hf hn
  have habove : ∀ x, 0 ≤ above f n x ∧ above f n x ≤ 255 := fun x => hf _
  have hbeside : ∀ y, 0 ≤ beside f n y ∧ beside f n y ≤ 255 := fun y => hf _
  have ha0 := habove 0
  have hb0 := hbeside 0
  have hax := habove x
  have hby := hbeside y
  unfold dcPredAt
  split_ifs
  · exact hdc
  · omega
  · omega
  · omega
  · exact hdc

theorem refAt_range (m : Nat) (i : Int) : 0 ≤ refAt f n m i ∧ refAt f n m i ≤ 255 := by
  unfold refAt
  split
  · exact hf _
  · exact hf _

theorem projectedAt_range (m along across : Nat) :
    0 ≤ projectedAt f n m along across ∧ projectedAt f n m along across ≤ 255 := by
  simp only [projectedAt]
  split
  · exact refAt_range hf m _
  · generalize ((along : Int) + 1) * angleOf m = pos
    have hfirst := weighted_range (show 0 ≤ 32 - pos % 32 by omega) (refAt_range (n := n) hf m (across + pos / 32 + 1))
    have hsecond := weighted_range (show 0 ≤ pos % 32 by omega) (refAt_range (n := n) hf m (across + pos / 32 + 1 + 1))
    exact rounded_mean_range (by omega) (by omega) (by omega) (by omega)

theorem angularAt_range (edges : Bool) (m : Nat) :
    0 ≤ angularAt edges f n m y x ∧ angularAt edges f n m y x ≤ 255 := by
  unfold angularAt
  split_ifs
  · exact toSample_range _
  · exact toSample_range _
  · exact projectedAt_range hf m y x
  · exact projectedAt_range hf m x y

end Range

/-! ### `PRED` on a build -/

variable {p : BuildParams} {s : State} {c : Comp} {m : Nat}

theorem borderArr_eq (p : BuildParams) (s : State) (c : Comp) (m : Nat) :
    borderArr p c (s.lgOf c) m = predBorderOn p s c m := by
  simp [borderArr, usesFiltered, predBorderOn, and_assoc]

theorem predBorderOn_kind (p : BuildParams) (s : State) (c : Comp) (m : Nat) : (predBorderOn p s c m).kind = .sample := by
  unfold predBorderOn
  split <;> rfl

/-- The prediction of the modes 0 to 34 on the border the build selects. -/
theorem predictBlock_eq (h34 : m ≤ 34) :
    predictBlock p (s.row (predBorderOn p s c m) 0 (4 * s.sizeOf c + 1)) (s.sizeOf c) (s.lgOf c) m c
      = Block.tabulate (s.sizeOf c) (s.sizeOf c) (predictedOn p s c m) := by
  have hr : ∀ i ≤ 4 * s.sizeOf c, (s.row (predBorderOn p s c m) 0 (4 * s.sizeOf c + 1)).getD i 0
      = s.val (predBorderOn p s c m) i := fun i hi => by
    rw [row_getD (by omega), Nat.zero_add]
  match m, h34, hr with
  | 0, _, hr => exact planar_eq hr rfl
  | 1, _, hr =>
    refine (dcPredict_eq hr rfl p c).trans ?_
    rw [edgeFiltered_eq]
    rfl
  | m + 2, h34, hr =>
    refine (angularPredict_eq hr (by omega) h34 p c).trans ?_
    rw [edgeFiltered_eq]
    rfl

theorem predictedOn_range {y x : Nat} (hy : y < s.sizeOf c) (hx : x < s.sizeOf c) :
    0 ≤ predictedOn p s c m y x ∧ predictedOn p s c m y x ≤ 255 := by
  have hf := val_sample (s := s) (predBorderOn_kind p s c m)
  simp only [predictedOn]
  split_ifs
  · exact planarAt_range hf hy hx
  · exact dcPredAt_range hf (by omega) _
  · exact angularAt_range hf _ m

theorem lmPredict_eq (s : State) (n : Nat) (fit : Int × Int × Nat) :
    s.lmPredict n fit = Block.tabulate n n (lmPredAt s fit) := by
  refine tabulate_congr fun y _ x _ => ?_
  rw [clip8_eq]
  simp [lmPredAt, State.lmLuma, at2, asr]

theorem lmParams_eq (p : BuildParams) (s : State) (c : Comp) :
    p.lmParams (s.sizeOf c) (s.row .lmref 0 (2 * s.sizeOf c)) (s.row (.ref c) 0 (4 * s.sizeOf c + 1))
      = lmParamsOn p s c := by
  simp only [lmParamsOn, row_eq, Nat.zero_add]

theorem predReads_eq {c : BitVec 2} {mode : BitVec 6} (p : BuildParams) (s : State) (h : mode.toNat ≤ 35) :
    predReads p c mode s = predReadsOn p s (compOf c) mode.toNat := by
  simp only [predReads, predReadsOn, borderArr_eq, lmRecoReads]
  by_cases h34 : mode.toNat ≤ 34
  · rw [if_pos h34, if_neg (by omega)]
  · rw [if_neg h34, if_pos (by omega)]

/-- The writes of a `PRED` in a mode of at most 34: one block, and no result register. -/
theorem predEffect_of_le {c : BitVec 2} {mode : BitVec 6} (p : BuildParams) (s : State) (h : mode.toNat ≤ 34) :
    predEffect p c mode s
      = { s.putBlock (.buf .pred (compOf c)) (Block.tabulate (s.sizeOf (compOf c)) (s.sizeOf (compOf c))
            (predictedOn p s (compOf c) mode.toNat)) with res := s.res } := by
  simp only [predEffect, if_pos h, borderArr_eq, predictBlock_eq h]
  rw [putBlock_state]

/-- The writes of a `PRED` in mode 35: one block and the fit. -/
theorem predEffect_lm {c : BitVec 2} {mode : BitVec 6} (p : BuildParams) (s : State) (h : ¬ mode.toNat ≤ 34) :
    predEffect p c mode s
      = { s.putBlock (.buf .pred (compOf c)) (Block.tabulate (s.sizeOf (compOf c)) (s.sizeOf (compOf c))
            (lmPredAt s (lmParamsOn p s (compOf c)))) with
          res :=
            { s.res with
              lmA := some (BitVec.ofInt 32 (lmParamsOn p s (compOf c)).1)
              lmB := some (BitVec.ofInt 32 (lmParamsOn p s (compOf c)).2.1)
              lmShift := some (BitVec.ofNat 4 (lmParamsOn p s (compOf c)).2.2) } } := by
  have hborder : predBorderOn p s (compOf c) mode.toNat = .ref (compOf c) := if_neg fun hc => h hc.2.1
  simp only [predEffect, if_neg h, lmPredEffect, borderArr_eq, hborder, lmParams_eq, lmPredict_eq]

/-- Settles O19: the checks and the reads are those of the rule, and either branch of the effect writes one block of
samples. -/
theorem predOnEveryBuild : Obligations.PredOnEveryBuild := by
  intro p c mode s
  rw [execIn_pred]
  refine commandRule_of_run (check_pred s c mode) (fun h => ?_) (fun h _ => ?_)
  · rw [predReads_eq p s (pred_checked ((check_pred s c mode).trans h)).2]
  · have hn := (sizeOf_le (pred_checked h).1 (compOf c)).2
    by_cases h34 : mode.toNat ≤ 34
    · obtain ⟨hkeep, hwrote⟩ := wroteBlock_of_putBlock (s := s) (a := .buf .pred (compOf c)) s.res hn
        fun y hy x hx => stored_sample (predictedOn_range (p := p) (m := mode.toNat) hy hx)
      rw [predEffect_of_le p s h34]
      exact ⟨hkeep, fun _ => hwrote, fun h35 => absurd h34 (by omega)⟩
    · rw [predEffect_lm p s h34]
      obtain ⟨hkeep, hwrote⟩ := wroteBlock_of_putBlock (s := s) (a := .buf .pred (compOf c)) _ hn
        fun y _ x _ => stored_sample (toSample_range _)
      exact ⟨hkeep, fun h => absurd h h34, fun _ => hwrote⟩

end Sys2Proof.Machine.PredictorProofs
end

section
/-! PROOFS. What a storage write does, said once: a command, a lane write and a soft reset write rows of elements to a list
of spans. From that one fact follow the canonical form of the storage and the frame of every element outside the spans. -/

namespace Sys2Proof.Machine.StorageProofs

open ArithLaws MemoryLaws ElementLaws CommandLaws RefBuildLaws Claims

/-- `m'` is `m` after rows of elements, with or without values, have been written to exactly these spans in turn. -/
inductive WritesSpans : Memory → List Span → Memory → Prop
  | nil (m : Memory) : WritesSpans m [] m
  | cons {m m' : Memory} {spans : List Span} (sp : Span) (vs : List (Option Int)) (hlen : vs.length = sp.len)
      (rest : WritesSpans (m.putBytes (sp.arr.laneAddr sp.start) (vs.flatMap (laneBytes sp.arr.kind))) spans m') :
      WritesSpans m (sp :: spans) m'

variable {s t : State} {m m' m'' : Memory} {l l' : List Span} {a : Arr} {start n e : Nat}

/-! ### The writes the model is made of -/

theorem WritesSpans.append (h : WritesSpans m l m') (h' : WritesSpans m' l' m'') : WritesSpans m (l ++ l') m'' := by
  induction h with
  | nil => exact h'
  | cons sp vs hlen _ ih => exact .cons sp vs hlen (ih h')

theorem writesSpans_putRow? {vs : List (Option Int)} (hlen : vs.length = n) :
    WritesSpans s.mem [⟨a, start, n⟩] (s.putRow? a start vs).mem :=
  .cons ⟨a, start, n⟩ vs hlen (.nil _)

theorem writesSpans_putRow {vs : List Int} (hlen : vs.length = n) :
    WritesSpans s.mem [⟨a, start, n⟩] (s.putRow a start vs).mem :=
  writesSpans_putRow? (by rw [List.length_map, hlen])

theorem writesSpans_clearSpan (sp : Span) : WritesSpans s.mem [sp] (s.clearSpan sp).mem :=
  writesSpans_putRow? List.length_replicate

theorem writesSpans_foldl_clearSpan (s : State) (l : List Span) :
    WritesSpans s.mem l (l.foldl State.clearSpan s).mem := by
  induction l generalizing s with
  | nil => exact .nil _
  | cons sp l ih => exact (writesSpans_clearSpan sp).append (ih (s.clearSpan sp))

theorem writesSpans_putRows (y : Nat) (blk : Block) (s : State) (hw : ∀ r ∈ blk, r.length = n) :
    WritesSpans s.mem ((List.range' y blk.length).map fun y => ⟨a, 32 * y, n⟩) (State.putRows a y blk s).mem := by
  induction blk generalizing y s with
  | nil => exact .nil _
  | cons r rs ih =>
    exact (writesSpans_putRow (hw r List.mem_cons_self)).append
      (ih (y + 1) (s.putRow a (32 * y) r) fun r' hr' => hw r' (List.mem_cons_of_mem _ hr'))

theorem writesSpans_putBlock (f : Nat → Nat → Int) :
    WritesSpans s.mem (blockSpans a n) (s.putBlock a (Block.tabulate n n f)).mem := by
  have h := writesSpans_putRows (a := a) 0 (Block.tabulate n n f) s fun _ h => tabulate_row_length h
  rwa [tabulate_length, ← List.range_eq_range'] at h

theorem writesSpans_copyHistories (s t : State) (c : Comp) :
    WritesSpans t.mem (s.historyWrites c) (copyHistories s t c).mem := by
  have hcorner := writesSpans_putRow? (s := t) (a := .corner c) (start := s.col)
    (vs := [s.elem? (.topPix c) (s.x0 c + s.sizeOf c - 1)]) rfl
  exact hcorner.append ((writesSpans_putRow? row?_length).append (writesSpans_putRow? (by simp)))

theorem writesSpans_foldl_copyHistories (s t : State) (cs : List Comp) :
    WritesSpans t.mem (cs.flatMap s.historyWrites) (cs.foldl (copyHistories s) t).mem := by
  induction cs generalizing t with
  | nil => exact .nil _
  | cons c cs ih => exact (writesSpans_copyHistories s t c).append (ih _)

theorem writesSpans_updateLm (s t : State) :
    WritesSpans t.mem
      (if s.cuLog2 = 2 then [] else [⟨.lmTop, s.col * s.sizeOf .u, s.sizeOf .u⟩, ⟨.lmLeft, 0, s.sizeOf .u⟩])
      (updateLm s t).mem := by
  unfold updateLm
  split
  · exact .nil _
  · exact (writesSpans_putRow (by simp [State.lmTopRow])).append (writesSpans_putRow (by simp [State.lmLeftCol]))

theorem writesSpans_updateModes (mode : BitVec 6) (s t : State) :
    WritesSpans t.mem [⟨.topMode, s.col, 1⟩, ⟨.leftMode, 0, 1⟩] (updateModes mode s t).mem :=
  have htop := writesSpans_putRow (s := t) (a := .topMode) (start := s.col) (vs := [(mode.toNat : Int)]) rfl
  htop.append (writesSpans_putRow rfl)

theorem advance_mem (s t : State) : (advance s t).mem = t.mem := by
  unfold advance
  split <;> rfl

theorem writesSpans_frameInit (s : State) : WritesSpans s.mem frameInitWrites (frameInitEffect s).mem :=
  have htop := writesSpans_putRow (s := s) (a := .topMode) (start := 0)
    (vs := List.replicate Arr.topMode.size invalidMode) List.length_replicate
  htop.append (writesSpans_putRow List.length_replicate)

theorem writesSpans_refbuild (c : BitVec 2) (aovr : Bool) (s : State) :
    WritesSpans s.mem (refbuildWrites c s) (refbuildEffect c aovr s).mem := by
  have hborder := fun k => writesSpans_putRow (s := s) (a := .ref k) (start := 0)
    (border_length s k (s.effectiveFlags k aovr))
  simp only [refbuildWrites, refbuildEffect]
  cases compOf c with
  | y => exact (hborder .y).append (writesSpans_putRow (by simp [smooth]))
  | u => exact (hborder .u).append (writesSpans_putRow (lmBorder_length s .u _))
  | v => exact (hborder .v).append (writesSpans_putRow (lmBorder_length s .v _))

theorem writesSpans_pred (p : BuildParams) (c : BitVec 2) (mode : BitVec 6) (s : State) :
    WritesSpans s.mem (predWrites c s) (predEffect p c mode s).mem := by
  by_cases h34 : mode.toNat ≤ 34
  · rw [PredictorProofs.predEffect_of_le p s h34]
    exact writesSpans_putBlock _
  · rw [PredictorProofs.predEffect_lm p s h34]
    exact writesSpans_putBlock _

theorem writesSpans_histUpdate (mode : BitVec 6) (s : State) :
    WritesSpans s.mem (histUpdateWrites s) (histUpdateEffect mode s).mem := by
  unfold histUpdateEffect histUpdateWrites
  rw [advance_mem]
  exact ((writesSpans_foldl_copyHistories s s _).append (writesSpans_updateLm s _)).append
    (writesSpans_updateModes mode s _)

/-- A command's effect writes the spans of its "Writes" line and no other storage. -/
theorem writesSpans_effect (i : Instr) (s : State) : WritesSpans s.mem (storageWrites s i) (effect i s).mem := by
  cases i with
  | nop => exact .nil _
  | frameInit => exact writesSpans_frameInit s
  | refbuild c aovr => exact writesSpans_refbuild c aovr s
  | pred c mode => exact writesSpans_pred defaultBuild c mode s
  | resid c => exact writesSpans_putBlock _
  | fdct c mode tt dsth dstv => exact writesSpans_putBlock _
  | quant c => exact writesSpans_putBlock _
  | dequant c => exact writesSpans_putBlock _
  | idct c mode tt dsth dstv => exact writesSpans_putBlock _
  | recon c => exact writesSpans_putBlock _
  | mpm => exact .nil _
  | histUpdate mode => exact writesSpans_histUpdate mode s

/-- A soft reset clears the spans of the command it abandons, or writes no storage. -/
theorem writesSpans_softResetMem (s : State) : ∃ l, WritesSpans s.mem l s.softResetMem := by
  unfold State.softResetMem
  split
  · exact ⟨[], .nil _⟩
  · exact ⟨_, writesSpans_foldl_clearSpan s _⟩

/-! ### What such a write keeps -/

/-- Every span stays in its array. -/
def SpansInside (l : List Span) : Prop := ∀ sp ∈ l, sp.start + sp.len ≤ sp.arr.size

theorem WritesSpans.wf (h : WritesSpans m l m') (hm : m.wf = true) : m'.wf = true := by
  induction h with
  | nil => exact hm
  | cons _ _ _ _ ih => exact ih (wf_putBytes hm)

theorem covers_eq_false {sp : Span} {addr : Nat} :
    sp.covers addr = false
      ↔ addr < sp.arr.base + 2 * sp.start ∨ sp.arr.base + 2 * (sp.start + sp.len) ≤ addr := by
  rw [Span.covers, laneAddr_def, laneAddr_def, Bool.and_eq_false_iff, decide_eq_false_iff_not, decide_eq_false_iff_not]
  omega

/-- A byte outside the spans is as before. -/
theorem WritesSpans.byte?_eq (h : WritesSpans m l m') {addr : Nat} (hout : ∀ sp ∈ l, sp.covers addr = false) :
    m'.byte? addr = m.byte? addr := by
  induction h with
  | nil => rfl
  | cons sp vs hlen _ ih =>
    rw [ih fun sp hsp => hout sp (List.mem_cons_of_mem _ hsp), byte?_putBytes, if_neg]
    have hcov := covers_eq_false.mp (hout sp List.mem_cons_self)
    rw [flatMap_laneBytes_length, hlen, laneAddr_def]
    omega

/-- A lane outside a span that stays in its array is not covered by it. -/
theorem covers_lane_eq_false {sp : Span} (hin : sp.start + sp.len ≤ sp.arr.size) (he : e < a.size)
    (hout : ¬ (sp.arr = a ∧ sp.start ≤ e ∧ e < sp.start + sp.len)) :
    sp.covers (a.laneAddr e) = false ∧ sp.covers (a.laneAddr e + 1) = false := by
  rw [covers_eq_false, covers_eq_false, laneAddr_def]
  by_cases harr : sp.arr = a
  · subst harr
    have hlane : ¬ (sp.start ≤ e ∧ e < sp.start + sp.len) := fun h => hout ⟨rfl, h⟩
    omega
  · have hd := disjoint harr
    simp only [laneAddr_def] at hd
    omega

/-- An element outside the spans keeps its value or its lack of one. -/
theorem WritesSpans.elem?_eq (h : WritesSpans s.mem l t.mem) (hin : SpansInside l)
    (he : e < a.size) (hout : ¬ Within l a e) : t.elem? a e = s.elem? a e := by
  have hcov := fun sp hsp => covers_lane_eq_false (hin sp hsp) he fun hw => hout ⟨sp, hsp, hw⟩
  exact lane?_congr (h.byte?_eq fun sp hsp => (hcov sp hsp).1) (h.byte?_eq fun sp hsp => (hcov sp hsp).2)

/-! ### The spans of a command that passes its checks lie in their arrays -/

/-- `n` rows of a working buffer, each `n` elements wide. -/
theorem blockSpans_inside {b : Buf} {c : Comp} (hn : n ≤ 32) : SpansInside (blockSpans (.buf b c) n) := by
  simp only [SpansInside, blockSpans, List.forall_mem_map, List.mem_range, Arr.size]
  omega

/-- A legal chroma size is half a legal luma size. -/
theorem sizeOf_chroma_le (h : s.sizeLegal = true) {c : Comp} (hc : c ≠ .y) : s.sizeOf c ≤ 16 := by
  have hy := sizeOf_y h
  have hle := (sizeOf_le h .y).2
  cases c with
  | y => exact absurd rfl hc
  | u => omega
  | v => omega

theorem refbuildWrites_inside (h : s.sizeLegal = true) (c : BitVec 2) : SpansInside (refbuildWrites c s) := by
  have hle := (sizeOf_le h (compOf c)).2
  have hchroma := sizeOf_chroma_le h (c := compOf c)
  unfold SpansInside refbuildWrites
  revert hle hchroma
  cases compOf c <;> simp [Arr.size] <;> omega

/-- At a position inside a valid picture the component's part of the top history lies in it. -/
theorem x0_add_sizeOf_le (hp : s.pictureValid = true) (hi : s.positionInside = true) (c : Comp) :
    s.x0 c + s.sizeOf c ≤ (Arr.topPix c).size := by
  obtain ⟨hs, -, -, -, -, -, -, hx⟩ := position_bounds hp hi
  obtain ⟨hyu, huv⟩ := sizeOf_y hs
  have hhalf : s.x0 .y = 2 * s.x0 .u := by rw [State.x0, hyu, State.x0, Nat.mul_left_comm]
  have hsame : s.x0 .v = s.x0 .u := by rw [State.x0, State.x0, huv]
  cases c <;> simp only [Arr.size] <;> omega

/-- The histories of one component. -/
theorem historyWrites_inside (hp : s.pictureValid = true) (hi : s.positionInside = true) (c : Comp) :
    SpansInside (s.historyWrites c) := by
  obtain ⟨hs, hcol, -, hcols, -⟩ := position_bounds hp hi
  have hleft : s.sizeOf c ≤ (Arr.leftPix c).size := by
    have hle := (sizeOf_le hs c).2
    cases c <;> simp only [Arr.size] <;> omega
  simp only [SpansInside, State.historyWrites, List.forall_mem_cons]
  exact ⟨show s.col + 1 ≤ 1024 by omega, x0_add_sizeOf_le hp hi c, by rwa [Nat.zero_add], by simp⟩

theorem histUpdateWrites_inside (hp : s.pictureValid = true) (hi : s.positionInside = true) :
    SpansInside (histUpdateWrites s) := by
  obtain ⟨hs, hcol, -, hcols, -⟩ := position_bounds hp hi
  have hlmTop : s.col * s.sizeOf .u + s.sizeOf .u ≤ 2048 := x0_add_sizeOf_le hp hi .u
  have hlmLeft := (sizeOf_le hs .u).2
  simp only [SpansInside, histUpdateWrites, List.forall_mem_append, List.forall_mem_flatMap]
  refine ⟨⟨fun c _ => historyWrites_inside hp hi c, ?_⟩, ?_⟩
  · split
    · simp
    · simp only [List.forall_mem_cons, Arr.size]
      exact ⟨hlmTop, by omega, by simp⟩
  · simp only [List.forall_mem_cons, Arr.size]
    exact ⟨by omega, by omega, by simp⟩

/-- A command that passes its checks writes inside its arrays. -/
theorem storageWrites_inside {i : Instr} (h : s.check i = none) : SpansInside (storageWrites s i) := by
  obtain ⟨-, -, hsize, hpic, hpos, -⟩ := check_eq_none.mp h
  have hblock : ∀ b c, s.sizeLegal = true → SpansInside (blockSpans (.buf b c) (s.sizeOf c)) :=
    fun b c hs => blockSpans_inside (sizeOf_le hs c).2
  cases i with
  | nop => exact fun sp hsp => absurd hsp List.not_mem_nil
  | frameInit => simp [SpansInside, storageWrites, frameInitWrites, Arr.size]
  | refbuild c aovr => exact refbuildWrites_inside (hsize rfl) c
  | pred c mode => exact hblock .pred _ (hsize rfl)
  | resid c => exact hblock .resi _ (hsize rfl)
  | fdct c mode tt dsth dstv => exact hblock .coef _ (hsize rfl)
  | quant c => exact hblock .qcoef _ (hsize rfl)
  | dequant c => exact hblock .dq _ (hsize rfl)
  | idct c mode tt dsth dstv => exact hblock .rres _ (hsize rfl)
  | recon c => exact hblock .reco _ (hsize rfl)
  | mpm => exact fun sp hsp => absurd hsp List.not_mem_nil
  | histUpdate mode => exact histUpdateWrites_inside (hpic rfl) (hpos rfl)

/-! ### Which commands write which array -/

/-- Of the mode histories `HIST_UPDATE` writes the entry of its own column and the upper left entry; every other array it
writes is its own. -/
theorem mem_histUpdateWrites {sp : Span} (h : sp ∈ histUpdateWrites s) :
    sp = ⟨.topMode, s.col, 1⟩ ∨ sp = ⟨.leftMode, 0, 1⟩
      ∨ sp.arr ≠ .topMode ∧ sp.arr ≠ .leftMode ∧ ∀ mode, writer sp.arr (.histUpdate mode) = true := by
  simp only [histUpdateWrites, State.historyWrites, List.mem_append, List.mem_flatMap, List.mem_cons,
    List.not_mem_nil, or_false] at h
  rcases h with (⟨c, -, hc⟩ | hlm) | htop | hleft
  · rcases hc with rfl | rfl | rfl <;> simp [writer]
  · split at hlm
    · exact absurd hlm List.not_mem_nil
    · simp only [List.mem_cons, List.not_mem_nil, or_false] at hlm
      rcases hlm with rfl | rfl <;> simp [writer]
  · exact .inl htop
  · exact .inr (.inl hleft)

/-- A command is a writer of every array it writes (10_state.md R40, R49-R54). -/
theorem writer_of_mem {i : Instr} {sp : Span} (h : sp ∈ storageWrites s i) : writer sp.arr i = true := by
  have hblock : ∀ b c, sp ∈ blockSpans (.buf b c) (s.sizeOf c) → sp.arr = .buf b c := by
    intro b c hsp
    obtain ⟨y, -, rfl⟩ := List.mem_map.mp hsp
    rfl
  cases i with
  | nop => exact absurd h List.not_mem_nil
  | frameInit =>
    simp only [storageWrites, frameInitWrites, List.mem_cons, List.not_mem_nil, or_false] at h
    rcases h with rfl | rfl <;> rfl
  | refbuild c aovr =>
    simp only [storageWrites, refbuildWrites] at h
    split at h <;> rename_i hc <;> simp only [List.mem_cons, List.not_mem_nil, or_false] at h <;>
      rcases h with rfl | rfl <;> simp [writer, hc]
  | pred c mode => rw [hblock .pred _ h]; exact decide_eq_true rfl
  | resid c => rw [hblock .resi _ h]; exact decide_eq_true rfl
  | fdct c mode tt dsth dstv => rw [hblock .coef _ h]; exact decide_eq_true rfl
  | quant c => rw [hblock .qcoef _ h]; exact decide_eq_true rfl
  | dequant c => rw [hblock .dq _ h]; exact decide_eq_true rfl
  | idct c mode tt dsth dstv => rw [hblock .rres _ h]; exact decide_eq_true rfl
  | recon c => rw [hblock .reco _ h]; exact decide_eq_true rfl
  | mpm => exact absurd h List.not_mem_nil
  | histUpdate mode =>
    rcases mem_histUpdateWrites h with rfl | rfl | ⟨-, -, hw⟩
    · rfl
    · rfl
    · exact hw mode

theorem not_within_of_not_writer {i : Instr} (h : writer a i = false) : ¬ Within (storageWrites s i) a e := by
  rintro ⟨sp, hsp, rfl, -⟩
  exact absurd (writer_of_mem hsp) (by simp [h])

/-- Where a command that answered a next state writes nothing, the element is as before: a failed check writes no
storage, and a passed one writes only the command's spans. -/
theorem exec_elem?_eq {i : Instr} (h : exec i s = .next t) (he : e < a.size)
    (hout : s.check i = none → ¬ Within (storageWrites s i) a e) : t.elem? a e = s.elem? a e := by
  rcases exec_cases h with ⟨code, -, rfl⟩ | ⟨hc, -, rfl⟩
  · rfl
  · exact (writesSpans_effect i s).elem?_eq (storageWrites_inside hc) he (hout hc)

/-- Settles O56: a command that is no writer of the array has no span in it. -/
theorem onlyNamedCommandsWriteStorage : Obligations.OnlyNamedCommandsWriteStorage :=
  fun _ _ _ _ _ h he hw => exec_elem?_eq h he fun _ => not_within_of_not_writer hw

/-! ### The edge entries of the mode histories (10_state.md R49) -/

theorem pictureValid_of_not_bad (h : pictureBad s = false) : s.pictureValid = true := by
  simp only [pictureBad, PredictorProofs.sizeBad_eq, dimensionBad, Bool.or_eq_false_iff, decide_eq_false_iff_not,
    Bool.not_eq_false', not_or, not_lt, not_not] at h
  obtain ⟨⟨hs, hw1, hw2, hw3⟩, hh1, hh2, hh3⟩ := h
  simp only [State.pictureValid, Bool.and_eq_true, dimLegal, decide_eq_true_eq]
  exact ⟨⟨hs, ⟨hw1, hw2⟩, hw3⟩, ⟨hh1, hh2⟩, hh3⟩

theorem numCols_le (h : s.pictureValid = true) : s.numCols ≤ 1024 := by
  simp only [State.pictureValid, Bool.and_eq_true, dimLegal, decide_eq_true_eq] at h
  obtain ⟨⟨hs, ⟨-, hw⟩, -⟩, -⟩ := h
  have hpow : 2 ^ 2 ≤ 2 ^ s.cuLog2 := Nat.pow_le_pow_right (by norm_num) (sizeLegal_iff.mp hs).1
  exact (Nat.div_le_div hw hpow (by norm_num)).trans (by norm_num)

/-- No command but `FRAME_INIT` has a span at an edge entry: the position is left of column `numCols`. -/
theorem edgeModes_not_within {i : Instr} (h : s.check i = none) (hi : i ≠ .frameInit) :
    ¬ Within (storageWrites s i) .topMode s.numCols ∧ ¬ Within (storageWrites s i) .leftMode 1 := by
  by_cases hm : ∃ mode, i = .histUpdate mode
  · obtain ⟨mode, rfl⟩ := hm
    obtain ⟨-, -, -, -, hpos, -⟩ := check_eq_none.mp h
    have hcol : s.col < s.numCols := by
      have hin := hpos rfl
      simp only [State.positionInside, Bool.and_eq_true, decide_eq_true_eq] at hin
      exact hin.1
    constructor
    · rintro ⟨sp, hsp, harr, -, hhi⟩
      rcases mem_histUpdateWrites hsp with rfl | rfl | ⟨hne, -⟩
      · exact absurd hhi (show ¬ s.numCols < s.col + 1 by omega)
      · cases harr
      · exact hne harr
    · rintro ⟨sp, hsp, harr, -, hhi⟩
      rcases mem_histUpdateWrites hsp with rfl | rfl | ⟨-, hne, -⟩
      · cases harr
      · simp at hhi
      · exact hne harr
  · have hw : writer .topMode i = false ∧ writer .leftMode i = false := by
      cases i <;> first | exact ⟨rfl, rfl⟩ | exact absurd rfl hi | exact absurd ⟨_, rfl⟩ hm
    exact ⟨not_within_of_not_writer hw.1, not_within_of_not_writer hw.2⟩

/-- Settles O58: a valid picture has at most 1024 columns, so both entries are elements, and no span holds them. -/
theorem edgeModeEntriesKept : Obligations.EdgeModeEntriesKept := by
  intro i s t hp h hi
  have hcols := numCols_le (pictureValid_of_not_bad hp)
  exact ⟨exec_elem?_eq h (show s.numCols < 1025 by omega) fun hc => (edgeModes_not_within hc hi).1,
    exec_elem?_eq h (by decide) fun hc => (edgeModes_not_within hc hi).2⟩

end Sys2Proof.Machine.StorageProofs
end

section
/-! PROOFS. The invariants of a step. A step is made of a few events (a register write, a lane write, an acceptance, a soft
reset, a completion); a predicate that each of them keeps is kept by every step, so each invariant is shown event by
event. -/

namespace Sys2Proof.Machine.InvariantProofs

open ArithLaws CommandLaws StepLaws StorageProofs

variable {s t : State} {i : Instr} {P : State → Prop}

/-! ### The events of a step -/

/-- Everything a write of a register can do: change the host's registers or nothing, clear bits of `STATUS`, have a command
accepted, or reset the block. -/
theorem writeReg_cases (s : State) (p : BuildParams) (v : Word) (r : Reg) :
    (∃ cfg cuPos, s.writeReg p v r = { s with cfg := cfg, cuPos := cuPos })
      ∨ s.writeReg p v r = { s with status := s.status.writeOneToClear v }
      ∨ s.writeReg p v r = s.accept v
      ∨ s.writeReg p v r = s.softReset p := by
  cases r with
  | status => exact .inr (.inl rfl)
  | cmd => exact .inr (.inr (.inl rfl))
  | ctrl =>
    by_cases h : v.getLsbD 31 = true
    · exact .inr (.inr (.inr (if_pos h)))
    · exact .inl ⟨_, _, if_neg h⟩
  | _ => exact .inl ⟨_, _, rfl⟩

/-- Each event a step is made of keeps `P`. The first one is of the fields that no invariant below speaks of. -/
structure EventsKeep (P : State → Prop) : Prop where
  plain : ∀ (s : State) (cfg : ConfigRegs) (cuPos : Word) (latency draws : Nat) (bus : List HostAccess)
    (response : Option BusResponse), P s → P { s with cfg, cuPos, latency, draws, bus, response }
  clear : ∀ (s : State) (v : Word), P s → P { s with status := s.status.writeOneToClear v }
  accept : ∀ (s : State) (w : Word), P s → P (s.accept w)
  softReset : ∀ s : State, P s → P (s.softReset defaultBuild)
  lane : ∀ (s : State) (a : Arr) (e : Nat) (u : BitVec 16), P s → P (s.writeLane a e u)
  error : ∀ (s : State) (code : ErrCode) (w : Word), P s → P (s.completeError code w)
  command : ∀ (s : State) (i : Instr), s.check i = none → P s → P (effect i s).completeOk

theorem EventsKeep.response (hP : EventsKeep P) (r : Option BusResponse) (h : P s) : P { s with response := r } :=
  hP.plain s s.cfg s.cuPos s.latency s.draws s.bus r h

theorem EventsKeep.writeReg (hP : EventsKeep P) (v : Word) (r : Reg) (h : P s) : P (s.writeReg defaultBuild v r) := by
  obtain ⟨cfg, cuPos, e⟩ | e | e | e := writeReg_cases s defaultBuild v r <;> rw [e]
  · exact hP.plain s cfg cuPos s.latency s.draws s.bus s.response h
  · exact hP.clear s v h
  · exact hP.accept s v h
  · exact hP.softReset s h

theorem EventsKeep.perform (hP : EventsKeep P) (a : HostAccess) (h : P s) : P (s.perform defaultBuild a) := by
  cases a with
  | read addr bits =>
    obtain e | ⟨d, e⟩ := hostRead_cases s addr bits <;> rw [State.perform, e]
    · exact hP.response _ h
    · exact hP.plain s s.cfg s.cuPos s.latency _ s.bus _ h
  | write addr bits v =>
    obtain e | ⟨r, -, e⟩ | ⟨a, e', -, e⟩ := hostWrite_cases defaultBuild s addr bits v <;> rw [State.perform, e]
    · exact hP.response _ h
    · exact hP.response _ (hP.writeReg v r h)
    · exact hP.response _ (hP.lane _ _ _ _ (hP.lane _ _ _ _ h))

theorem EventsKeep.hostMove (hP : EventsKeep P) (h : P s) : P (s.hostMove defaultBuild) := by
  obtain ⟨-, e⟩ | ⟨a, rest, -, e⟩ := hostMove_cases defaultBuild s <;> rw [e]
  · exact h
  · exact hP.perform a (hP.plain s s.cfg s.cuPos s.latency s.draws rest s.response h)

/-- What every event keeps, every step keeps. -/
theorem EventsKeep.step (hP : EventsKeep P) (h : P s) (hs : step s = .next t) : P t := by
  obtain ⟨-, rfl⟩ | ⟨w, -, -, rfl⟩ | ⟨w, code, -, -, -, rfl⟩ | ⟨w, i, -, -, -, he⟩ := step_cases hs
  · exact hP.hostMove h
  · exact hP.hostMove (hP.plain s s.cfg s.cuPos _ s.draws s.bus s.response h)
  · exact hP.error s code w h
  · obtain ⟨code, -, rfl⟩ | ⟨hc, -, rfl⟩ := exec_cases he
    · exact hP.error s code _ h
    · exact hP.command s i hc h

/-! ### The storage's canonical form -/

theorem eventsKeep_wf : EventsKeep fun s => s.mem.wf = true where
  plain _ _ _ _ _ _ _ h := h
  clear _ _ h := h
  accept _ _ h := h
  softReset s h := (writesSpans_softResetMem s).elim fun _ hw => hw.wf h
  lane _ a e u h := wf_writeLane a e u h
  error _ _ _ h := h
  command s i _ h := (writesSpans_effect i s).wf h

/-- Settles O51: every event writes storage by rows, which keep the addresses rising. -/
theorem storageStaysCanonical : Obligations.StorageStaysCanonical := fun _ _ h hs => eventsKeep_wf.step h hs

/-! ### `ERR`, `ERR_MULTI` and `ERRCODE` -/

theorem statusConsistent_recordError {st : Status} (h : StatusConsistent st) (code : ErrCode) :
    StatusConsistent (st.recordError code) := by
  obtain ⟨-, herr⟩ := h
  refine ⟨fun h => absurd h (by simp), fun _ => ?_⟩
  rw [recordError_errcode]
  split
  · exact herr ‹_›
  · exact number_range code

/-- Bit 2 clears all three fields; without it `ERR` and `ERRCODE` stay, and bit 3 only clears `ERR_MULTI`. -/
theorem statusConsistent_writeOneToClear {st : Status} (h : StatusConsistent st) (v : Word) :
    StatusConsistent (st.writeOneToClear v) := by
  obtain ⟨hclear, herr⟩ := h
  unfold StatusConsistent Status.writeOneToClear
  generalize v.getLsbD 2 = bit2
  cases bit2 with
  | true => simp
  | false =>
    simp only [Bool.not_false, Bool.and_true, Bool.false_eq_true, if_false]
    exact ⟨fun he => ⟨(hclear he).1, by rw [(hclear he).2, Bool.false_and]⟩, herr⟩

theorem statusConsistent_reset : StatusConsistent Status.reset := by
  unfold StatusConsistent
  decide

theorem eventsKeep_statusConsistent : EventsKeep fun s => StatusConsistent s.status where
  plain _ _ _ _ _ _ _ h := h
  clear _ v h := statusConsistent_writeOneToClear h v
  accept _ _ h := h
  softReset _ _ := statusConsistent_reset
  lane s a e u h := by rwa [writeLane_state]
  error _ code _ h := statusConsistent_recordError h code
  command s i _ h := by
    rw [completeOk_status, effect_status]
    exact h

/-- Settles O53: a command without an error leaves the three fields, and the others set or clear them together. -/
theorem errorStatusStaysConsistent : Obligations.ErrorStatusStaysConsistent :=
  fun _ _ h hs => eventsKeep_statusConsistent.step h hs

/-! ### The pending word -/

theorem pendingIsCmd_of_none (h : s.pending = none) : PendingIsCmd s :=
  fun _ hw => absurd (h.symm.trans hw) (by simp)

theorem eventsKeep_pendingIsCmd : EventsKeep PendingIsCmd where
  plain _ _ _ _ _ _ _ h := h
  clear _ _ h := h
  accept _ _ _ _ hw := Option.some.inj hw
  softReset _ _ := pendingIsCmd_of_none rfl
  lane s a e u h := by rwa [writeLane_state]
  error _ _ _ _ := pendingIsCmd_of_none rfl
  command _ _ _ _ := pendingIsCmd_of_none rfl

/-- Settles O54: an acceptance sets `CMD` and the slot to one word, and nothing else fills the slot or writes `CMD`. -/
theorem pendingWordStaysInCmd : Obligations.PendingWordStaysInCmd := fun _ _ h hs => eventsKeep_pendingIsCmd.step h hs

/-! ### The result registers -/

theorem sumTo_range {n : Nat} {f : Nat → Int} {b : Int} (h : ∀ i < n, 0 ≤ f i ∧ f i ≤ b) :
    0 ≤ sumTo n f ∧ sumTo n f ≤ n * b := by
  induction n with
  | zero => simp [sumTo]
  | succ n ih =>
    have hn := h n n.lt_succ_self
    have ih := ih fun i hi => h i (Nat.lt_succ_of_lt hi)
    rw [sumTo, Nat.cast_succ, add_mul]
    omega

theorem quantScale_range (k : Nat) : 0 ≤ quantScale.getD k 0 ∧ quantScale.getD k 0 ≤ 26214 := by
  by_cases hk : k < 6
  · interval_cases k <;> decide
  · simp [quantScale, List.getD_eq_getElem?_getD, show 6 ≤ k by omega]

/-- A level is at most 13107 (41_quant.md R180): the scaled coefficient is at most `13107 · 2^16`, and the rounding is less
than one level. -/
theorem quantLevel_range {v : Int} {lg : Nat} (slice : BitVec 2) (qp : Nat) (hlg : lg ≤ 5)
    (hv : -32768 ≤ v ∧ v ≤ 32767) : 0 ≤ quantLevel v slice qp lg ∧ quantLevel v slice qp lg ≤ 13107 := by
  obtain ⟨hscale0, hscale⟩ := quantScale_range (qp % 6)
  obtain ⟨k, hk⟩ : ∃ k, quantBits qp lg = k + 16 := ⟨quantBits qp lg - 16, by unfold quantBits; omega⟩
  have hpow : (0 : Int) < 2 ^ k := by positivity
  have hadd : 0 ≤ quantAdd slice qp lg ∧ quantAdd slice qp lg < 2 ^ k * 2 ^ 16 := by
    have hshift : k + 16 - 9 = k + 7 := by omega
    unfold quantAdd shl
    rw [hk, hshift, pow_add]
    split <;> omega
  have hmul : (v.natAbs : Int) * quantScale.getD (qp % 6) 0 ≤ 32768 * 26214 :=
    Int.mul_le_mul (by omega) hscale hscale0 (by norm_num)
  have hmul0 : 0 ≤ (v.natAbs : Int) * quantScale.getD (qp % 6) 0 := Int.mul_nonneg (by omega) hscale0
  unfold quantLevel asr
  rw [hk, pow_add]
  refine ⟨Int.ediv_nonneg (by omega) (by positivity), Int.lt_add_one_iff.mp ?_⟩
  rw [Int.ediv_lt_iff_lt_mul (by positivity)]
  omega

/-- The sum of a block of at most 32 × 32 levels is below 2^24 (41_quant.md R175). -/
theorem quantSum_range {y : Block} {n lg : Nat} (slice : BitVec 2) (qp : Nat) (hn : n ≤ 32) (hlg : lg ≤ 5)
    (hy : ∀ v < n, ∀ u < n, -32768 ≤ y.get v u ∧ y.get v u ≤ 32767) :
    0 ≤ quantSum y n slice qp lg ∧ quantSum y n slice qp lg < 2 ^ 24 := by
  have h : 0 ≤ quantSum y n slice qp lg ∧ quantSum y n slice qp lg ≤ n * (n * 13107) :=
    sumTo_range fun v hv => sumTo_range fun u hu => quantLevel_range slice qp hlg (hy v hv u hu)
  have hn : (n : Int) ≤ 32 := by omega
  have hsq : (n : Int) * (n * 13107) ≤ 32 * (32 * 13107) :=
    Int.mul_le_mul hn (by omega) (by positivity) (by norm_num)
  omega

theorem mpmSet_range (left top : Nat) :
    (mpmSet left top).1 ≤ 34 ∧ (mpmSet left top).2.1 ≤ 34 ∧ (mpmSet left top).2.2 ≤ 34 := by
  have hdc : ∀ m, modeOrDc m ≤ 34 := fun m => by unfold modeOrDc; split <;> omega
  have hl := hdc left
  have ht := hdc top
  unfold mpmSet
  simp only
  split_ifs <;> simp only <;> omega

/-- The shift of the default fit is 13 less the normalisation of at most 9 (43_intrapred.md R243). -/
theorem lmParamsDefault_shift (n : Nat) (m r : List Int) :
    4 ≤ (lmParamsDefault n m r).2.2 ∧ (lmParamsDefault n m r).2.2 ≤ 13 := by
  simp only [lmParamsDefault]
  split <;> omega

theorem resultsInRange_reset : ResultsInRange Results.reset := by
  simp [ResultsInRange, Results.reset]

theorem resultsInRange_setCbf {r : Results} (h : ResultsInRange r) (k : Comp) (b : Option Bool) :
    ResultsInRange (r.setCbf k b) := by
  cases k <;> exact h

theorem resultsInRange_nzsum {r : Results} {sum : Int} (h : ResultsInRange r) (hsum : 0 ≤ sum ∧ sum < 2 ^ 24) :
    ResultsInRange { r with nzsum := some (BitVec.ofInt 32 sum) } := by
  obtain ⟨hmpm, -, hshift⟩ := h
  refine ⟨hmpm, fun v hv => ?_, hshift⟩
  cases hv
  rw [BitVec.toNat_ofInt]
  omega

/-- Leaving a register without a value keeps the ranges of the values. -/
theorem resultsInRange_abandon {r : Results} (h : ResultsInRange r) (i : Instr) : ResultsInRange (r.abandon i) := by
  obtain ⟨hmpm, hnzsum, hshift⟩ := h
  cases i with
  | pred c mode =>
    unfold Results.abandon
    simp only
    split
    · exact ⟨hmpm, hnzsum, hshift⟩
    · exact ⟨hmpm, hnzsum, by simp⟩
  | quant c =>
    exact resultsInRange_setCbf (r := { r with nzsum := none }) ⟨hmpm, by simp, hshift⟩ _ _
  | mpm => exact ⟨by simp [Results.abandon], hnzsum, hshift⟩
  | _ => exact ⟨hmpm, hnzsum, hshift⟩

theorem resultsInRange_softResetRes (s : State) : ResultsInRange s.softResetRes := by
  unfold State.softResetRes
  split
  · exact resultsInRange_reset
  · exact resultsInRange_abandon resultsInRange_reset _

theorem resultsInRange_pred (c : BitVec 2) (mode : BitVec 6) (h : ResultsInRange s.res) :
    ResultsInRange (predEffect defaultBuild c mode s).res := by
  by_cases h34 : mode.toNat ≤ 34
  · rwa [PredictorProofs.predEffect_of_le defaultBuild s h34]
  · obtain ⟨hmpm, hnzsum, -⟩ := h
    rw [PredictorProofs.predEffect_lm defaultBuild s h34]
    refine ⟨hmpm, hnzsum, fun v hv => .inr ?_⟩
    obtain ⟨hlo, hhi⟩ := lmParamsDefault_shift (s.sizeOf (compOf c))
      ((List.range (2 * s.sizeOf (compOf c))).map fun i => s.val .lmref i)
      ((List.range (4 * s.sizeOf (compOf c) + 1)).map fun i => s.val (.ref (compOf c)) i)
    cases hv
    rw [BitVec.toNat_ofNat, Nat.mod_eq_of_lt]
    · exact ⟨hlo, hhi⟩
    · exact Nat.lt_of_le_of_lt hhi (by norm_num)

theorem resultsInRange_quant (c : BitVec 2) (hs : s.sizeLegal = true) (h : ResultsInRange s.res) :
    ResultsInRange (quantEffect c s).res := by
  have hsum := quantSum_range (y := s.block (.buf .coef (compOf c)) (s.sizeOf (compOf c))) s.cfg.slice
    (s.qpOf (compOf c)) (sizeOf_le hs (compOf c)).2 (lgOf_le hs (compOf c)).2 fun v hv u hu => by
      rw [ElementLaws.block_get hv hu]
      exact RuleLaws.val_coefficient rfl _
  exact resultsInRange_setCbf (resultsInRange_nzsum h hsum) _ _

theorem resultsInRange_mpm (h : ResultsInRange s.res) : ResultsInRange (mpmEffect s).res := by
  obtain ⟨-, hnzsum, hshift⟩ := h
  refine ⟨fun m hm => ?_, hnzsum, hshift⟩
  obtain ⟨h0, h1, h2⟩ := mpmSet_range (s.val .leftMode 0).toNat (s.val .topMode s.col).toNat
  cases hm
  simp only [State.mpmResult, BitVec.toNat_ofNat]
  omega

/-- Only `PRED`, `QUANT` and `MPM` write a register that has a range. -/
theorem resultsInRange_effect (hc : s.check i = none) (h : ResultsInRange s.res) : ResultsInRange (effect i s).res := by
  cases i with
  | nop => exact h
  | frameInit => exact h
  | refbuild c aovr =>
    simp only [effect, refbuildEffect]
    exact h
  | pred c mode => exact resultsInRange_pred c mode h
  | resid c => simpa only [effect, residEffect, putBlock_res] using h
  | fdct c mode tt dsth dstv => simpa only [effect, fdctEffect, putBlock_res] using h
  | quant c =>
    obtain ⟨-, -, hsize, -⟩ := check_eq_none.mp hc
    exact resultsInRange_quant c (hsize rfl) h
  | dequant c => simpa only [effect, dequantEffect, putBlock_res] using h
  | idct c mode tt dsth dstv => simpa only [effect, idctEffect, putBlock_res] using h
  | recon c => simpa only [effect, reconEffect, putBlock_res] using h
  | mpm => exact resultsInRange_mpm h
  | histUpdate mode =>
    rw [effect, histUpdate_state]
    exact h

theorem eventsKeep_resultsInRange : EventsKeep fun s => ResultsInRange s.res where
  plain _ _ _ _ _ _ _ h := h
  clear _ _ h := h
  accept _ _ h := h
  softReset s _ := resultsInRange_softResetRes s
  lane s a e u h := by rwa [writeLane_state]
  error _ _ _ h := h
  command _ _ hc h := resultsInRange_effect hc h

/-- Settles O55: a command that writes a result register writes a value in its range, and a reset leaves the reset values
or none. -/
theorem resultRegistersStayInRange : Obligations.ResultRegistersStayInRange :=
  fun _ _ h hs => eventsKeep_resultsInRange.step h hs

end Sys2Proof.Machine.InvariantProofs
end

section
/-! PROOFS. The registers as the host sees them: a 32-bit access at a register's offset is a read or a write of that
register, so each statement about addresses is one about `State.readReg` and `State.writeReg`, field by field. -/

namespace Sys2Proof.Machine.RegisterProofs

open Claims

variable {s : State} {p : BuildParams}

/-! ### Accesses at a register's offset -/

theorem targetOf_offset (r : Reg) : targetOf (BitVec.ofNat 17 r.offset).toNat = .reg r := by
  cases r <;> rfl

theorem servedForm_offset (r : Reg) : servedForm (BitVec.ofNat 17 r.offset) 32 = true := by
  cases r <;> rfl

/-- A host read at a register's offset answers the register's word. -/
theorem wordAt_offset (s : State) (r : Reg) :
    wordAt s r.offset = some (s.readReg (Config.freeBits s.draws) r) := by
  simp only [wordAt, State.hostRead, servedForm_offset, targetOf_offset, if_true, State.readTarget, Option.map_some]

theorem wordAt_of_readReg {r : Reg} {w : Word} (h : s.readReg (Config.freeBits s.draws) r = w) :
    wordAt s r.offset = some w :=
  h ▸ wordAt_offset s r

/-- A host write at a register's offset writes the register. -/
theorem hostWrite_offset (p : BuildParams) (s : State) (r : Reg) (v : Word) :
    s.hostWrite p (BitVec.ofNat 17 r.offset) 32 v = { s.writeReg p v r with response := some ⟨false, 0#32⟩ } := by
  simp only [State.hostWrite, servedForm_offset, targetOf_offset, if_true, State.writeTarget]

/-- The word a register reads as does not depend on the response. -/
theorem readReg_response (s : State) (resp : Option BusResponse) (free : Word) (r : Reg) :
    State.readReg { s with response := resp } free r = s.readReg free r := by
  cases r <;> rfl

/-! ### Fields of a word -/

theorem toNat_append_add {m n : Nat} (x : BitVec m) (y : BitVec n) : (x ++ y).toNat = x.toNat * 2 ^ n + y.toNat := by
  rw [BitVec.toNat_append, ← Nat.shiftLeft_add_eq_or_of_lt y.isLt, Nat.shiftLeft_eq]

theorem getLsbD_eq_decide (v : Word) (i : Nat) : v.getLsbD i = decide (v.toNat / 2 ^ i % 2 = 1) :=
  Nat.testBit_eq_decide_div_mod_eq

theorem not_getLsbD_eq_decide (v : Word) (i : Nat) : (!v.getLsbD i) = decide (v.toNat / 2 ^ i % 2 = 0) := by
  rw [getLsbD_eq_decide, ← decide_not, decide_eq_decide]
  omega

/-- The field of `n` bits from bit `k` on. -/
theorem extractLsb'_eq_ofNat {w : Nat} (v : BitVec w) (k n : Nat) :
    v.extractLsb' k n = BitVec.ofNat n (v.toNat / 2 ^ k) := by
  rw [BitVec.extractLsb', Nat.shiftRight_eq_div_pow]

/-- The low `n` bits of a word alone, beside the mask of those bits. -/
theorem setWidth_extractLsb' (v : Word) {n : Nat} (hn : n ≤ 32) :
    (v.extractLsb' 0 n).setWidth 32 = v &&& BitVec.ofNat 32 (2 ^ n - 1) := by
  apply BitVec.eq_of_toNat_eq
  have hpow : 2 ^ n ≤ 2 ^ 32 := Nat.pow_le_pow_right (by norm_num) hn
  rw [BitVec.toNat_setWidth, BitVec.extractLsb'_toNat, BitVec.toNat_and, BitVec.toNat_ofNat, Nat.shiftRight_zero,
    Nat.mod_eq_of_lt (b := 2 ^ 32) (Nat.sub_one_lt_of_le (by positivity) hpow), Nat.and_two_pow_sub_one_eq_mod]
  exact Nat.mod_eq_of_lt ((Nat.mod_lt _ (by positivity)).trans_le hpow)

/-- A field of the low `n` bits has none of the bits above them. -/
theorem setWidth_and_high {n : Nat} (x : BitVec n) {mask : Word} (hn : n ≤ 32)
    (hmask : BitVec.ofNat 32 (2 ^ n - 1) &&& mask = 0#32) : x.setWidth 32 &&& mask = 0#32 := by
  have hlow : x.setWidth 32 = ((x.setWidth 32).extractLsb' 0 n).setWidth 32 := by
    rw [← BitVec.setWidth_eq_extractLsb' hn, BitVec.setWidth_setWidth_of_le _ hn, BitVec.setWidth_eq]
  rw [hlow, setWidth_extractLsb' _ hn, BitVec.and_assoc, hmask, BitVec.and_zero]

theorem maskHigh_of_append (hi : BitVec 3) (lo : Word) : BitVec.extractLsb' 32 3 (hi ++ lo : BitVec 35) = hi :=
  BitVec.extractLsb'_append_eq_left

theorem maskLow_of_append (hi : BitVec 3) (lo : Word) : BitVec.extractLsb' 0 32 (hi ++ lo : BitVec 35) = lo :=
  BitVec.extractLsb'_append_eq_right

/-- A DST mask with its low 32 bits written. -/
theorem maskHigh_append (m : BitVec 35) (v : Word) :
    m.extractLsb' 32 3 ++ v = BitVec.ofNat 35 (2 ^ 32 * (m.toNat / 2 ^ 32) + v.toNat) := by
  apply BitVec.eq_of_toNat_eq
  rw [toNat_append_add, extractLsb'_eq_ofNat, BitVec.toNat_ofNat, BitVec.toNat_ofNat]
  omega

/-- A DST mask with its high 3 bits written. -/
theorem append_maskLow (m : BitVec 35) (v : Word) :
    v.extractLsb' 0 3 ++ m.extractLsb' 0 32 = BitVec.ofNat 35 (2 ^ 32 * (v.toNat % 8) + m.toNat % 2 ^ 32) := by
  apply BitVec.eq_of_toNat_eq
  rw [toNat_append_add, extractLsb'_eq_ofNat, extractLsb'_eq_ofNat, BitVec.toNat_ofNat, BitVec.toNat_ofNat,
    BitVec.toNat_ofNat]
  omega

/-! ### The word of each register -/

theorem statusWord_eq (s : State) :
    s.statusWord = BitVec.ofNat 32 (s.pending.isSome.toNat + 2 * s.status.done.toNat + 4 * s.status.err.toNat
      + 8 * s.status.errMulti.toNat + 16 * s.status.frameEnd.toNat + 256 * s.status.errcode.toNat) := by
  apply BitVec.eq_of_toNat_eq
  simp only [State.statusWord, State.busy, toNat_append_add, BitVec.toNat_ofBool, BitVec.toNat_ofNat]
  have hbusy := Bool.toNat_le s.pending.isSome
  have hdone := Bool.toNat_le s.status.done
  have herr := Bool.toNat_le s.status.err
  have hmulti := Bool.toNat_le s.status.errMulti
  have hend := Bool.toNat_le s.status.frameEnd
  omega

theorem ctrlWord_eq (b : Bool) : 0#31 ++ BitVec.ofBool b = BitVec.ofNat 32 b.toNat := by
  cases b <;> rfl

theorem ctrlWord_lowBit (v : Word) : 0#31 ++ BitVec.ofBool (decide (v.toNat % 2 = 1)) = v &&& 1#32 := by
  apply BitVec.eq_of_toNat_eq
  rw [toNat_append_add, BitVec.toNat_ofBool, BitVec.toNat_and, BitVec.toNat_ofNat, BitVec.toNat_ofNat,
    Nat.and_one_is_mod]
  rcases Nat.mod_two_eq_zero_or_one v.toNat with h | h <;> simp [h]

theorem qpWord_eq (qpY qpC : BitVec 6) :
    0#18 ++ qpC ++ 0#2 ++ qpY = BitVec.ofNat 32 (qpY.toNat + 256 * qpC.toNat) := by
  apply BitVec.eq_of_toNat_eq
  simp only [toNat_append_add, BitVec.toNat_ofNat]
  omega

theorem mpmWord_eq (m : MpmReg) :
    mpmWord m = BitVec.ofNat 32 (m.mpm0.toNat + 256 * m.mpm1.toNat + 65536 * m.mpm2.toNat) := by
  apply BitVec.eq_of_toNat_eq
  simp only [mpmWord, toNat_append_add, BitVec.toNat_ofNat]
  omega

/-- The two registers of a DST mask. -/
theorem maskWords_eq (m : BitVec 35) :
    m.extractLsb' 0 32 = (maskWords m).1 ∧ (m.extractLsb' 32 3).setWidth 32 = (maskWords m).2 := by
  constructor <;> apply BitVec.eq_of_toNat_eq
  · simp [maskWords]
  · simp [maskWords, Nat.shiftRight_eq_div_pow]
    omega

theorem cbfWord_bits (v u y : BitVec 1) :
    (0#29 ++ v ++ u ++ y).getLsbD 0 = y.getLsbD 0 ∧ (0#29 ++ v ++ u ++ y).getLsbD 1 = u.getLsbD 0
      ∧ (0#29 ++ v ++ u ++ y).getLsbD 2 = v.getLsbD 0 := by
  simp only [BitVec.getLsbD_append]
  exact ⟨rfl, rfl, rfl⟩

theorem cbfBit_of_some {b : Option Bool} {v : Bool} (free : Bool) (h : b = some v) :
    (cbfBit b free).getLsbD 0 = v := by
  simp [cbfBit, h]

/-- The `CBF` word's bits where they have values; the others are free. -/
theorem wordAt_cbf (s : State) : ∃ w, wordAt s 0x048 = some w ∧ (∀ v, s.res.cbfY = some v → w.getLsbD 0 = v)
    ∧ (∀ v, s.res.cbfU = some v → w.getLsbD 1 = v) ∧ ∀ v, s.res.cbfV = some v → w.getLsbD 2 = v := by
  refine ⟨_, wordAt_offset s .cbf, ?_⟩
  obtain ⟨hy, hu, hv⟩ := cbfWord_bits (cbfBit s.res.cbfV ((Config.freeBits s.draws).getLsbD 2))
    (cbfBit s.res.cbfU ((Config.freeBits s.draws).getLsbD 1)) (cbfBit s.res.cbfY ((Config.freeBits s.draws).getLsbD 0))
  exact ⟨fun _ h => hy.trans (cbfBit_of_some _ h), fun _ h => hu.trans (cbfBit_of_some _ h),
    fun _ h => hv.trans (cbfBit_of_some _ h)⟩

theorem fieldOr_of_some {n : Nat} {x : Option (BitVec n)} {v : BitVec n} (free : BitVec n) (h : x = some v) :
    fieldOr x free = v := by
  rw [h, fieldOr, Option.getD_some]

theorem setWidth_eq_ofNat {n : Nat} (x : BitVec n) : x.setWidth 32 = BitVec.ofNat 32 x.toNat :=
  (BitVec.ofNat_toNat 32 x).symm

/-- Settles O40: each address is a register's offset, and the register's word is its fields at their bits. -/
theorem hostReadsAnswerRegisters : Obligations.HostReadsAnswerRegisters := fun s =>
  ⟨wordAt_offset s .id, wordAt_offset s .version,
    wordAt_of_readReg (r := .status) (statusWord_eq s),
    wordAt_of_readReg (r := .ctrl) (ctrlWord_eq s.cfg.irqEn),
    wordAt_offset s .cmd, wordAt_offset s .errinfo, wordAt_offset s .picSize,
    wordAt_of_readReg (r := .cuCfg) (setWidth_eq_ofNat s.cfg.cuLog2),
    wordAt_offset s .cuPos,
    wordAt_of_readReg (r := .qp) (qpWord_eq s.cfg.qpY s.cfg.qpC),
    wordAt_of_readReg (r := .slice) (setWidth_eq_ofNat s.cfg.slice),
    wordAt_of_readReg (r := .dstHLo) (maskWords_eq s.cfg.dstH).1,
    wordAt_of_readReg (r := .dstHHi) (maskWords_eq s.cfg.dstH).2,
    wordAt_of_readReg (r := .dstVLo) (maskWords_eq s.cfg.dstV).1,
    wordAt_of_readReg (r := .dstVHi) (maskWords_eq s.cfg.dstV).2,
    wordAt_of_readReg (r := .availOvr) (setWidth_eq_ofNat s.cfg.availOvr),
    fun v h => wordAt_of_readReg (r := .avail) (by rw [State.readReg, fieldOr_of_some _ h, setWidth_eq_ofNat]),
    fun v h => wordAt_of_readReg (r := .nzsum) (fieldOr_of_some _ h),
    wordAt_cbf s,
    fun m h => wordAt_of_readReg (r := .mpm) (by rw [State.readReg, h, Option.getD_some, mpmWord_eq]),
    fun v h => wordAt_of_readReg (r := .lmA) (fieldOr_of_some _ h),
    fun v h => wordAt_of_readReg (r := .lmB) (fieldOr_of_some _ h),
    fun v h => wordAt_of_readReg (r := .lmShift) (by rw [State.readReg, fieldOr_of_some _ h, setWidth_eq_ofNat])⟩

/-! ### Writes of `STATUS` -/

theorem writeOneToClear_eq (st : Status) (v : Word) :
    st.writeOneToClear v =
      { done := st.done && decide (v.toNat / 2 % 2 = 0)
        err := st.err && decide (v.toNat / 4 % 2 = 0)
        errMulti := st.errMulti && decide (v.toNat / 4 % 2 = 0 ∧ v.toNat / 8 % 2 = 0)
        frameEnd := st.frameEnd
        errcode := if v.toNat / 4 % 2 = 0 then st.errcode else 0#4 } := by
  have h1 : (!v.getLsbD 1) = decide (v.toNat / 2 % 2 = 0) := not_getLsbD_eq_decide v 1
  have h2 : (!v.getLsbD 2) = decide (v.toNat / 4 % 2 = 0) := not_getLsbD_eq_decide v 2
  have h3 : (!v.getLsbD 3) = decide (v.toNat / 8 % 2 = 0) := not_getLsbD_eq_decide v 3
  have hcode : (if v.getLsbD 2 = true then 0#4 else st.errcode)
      = if v.toNat / 4 % 2 = 0 then st.errcode else 0#4 := by
    have hset : v.getLsbD 2 = true ↔ ¬ v.toNat / 4 % 2 = 0 := by
      rw [getLsbD_eq_decide, decide_eq_true_eq]
      omega
    simp only [hset, ite_not]
  rw [Status.writeOneToClear, h1, h2, h3, hcode, Bool.and_assoc, ← Bool.decide_and]

/-- Settles O43: the write is a write of the register `STATUS`. -/
theorem statusWriteClearsBits : Obligations.StatusWriteClearsBits := fun p s v =>
  ⟨_, (hostWrite_offset p s .status v).trans (by rw [State.writeReg, writeOneToClear_eq])⟩

/-! ### The read-write registers that hold what is written -/

/-- The registers that hold what is written, each with the bits it has. -/
def heldBits : List (Reg × Word) :=
  [(.picSize, 0xFFFFFFFF#32), (.cuCfg, 0x00000007#32), (.cuPos, 0xFFFFFFFF#32), (.qp, 0x00003F3F#32),
    (.slice, 0x00000003#32), (.dstHLo, 0xFFFFFFFF#32), (.dstHHi, 0x00000007#32), (.dstVLo, 0xFFFFFFFF#32),
    (.dstVHi, 0x00000007#32), (.availOvr, 0x0000001F#32)]

theorem heldRegisters_eq : heldRegisters = heldBits.map fun b => (b.1.offset, b.2) := rfl

/-- A write of a held register leaves the counter of the free values. -/
theorem writeReg_draws {b : Reg × Word} (hb : b ∈ heldBits) (v : Word) : (s.writeReg p v b.1).draws = s.draws := by
  revert b
  simp only [heldBits, List.forall_mem_cons, State.writeReg, true_and]
  simp

/-- A mask that keeps every other one of four fields. -/
theorem append_and_fields {a b c d : Nat} (w : BitVec a) (x : BitVec b) (y : BitVec c) (z : BitVec d) :
    (w ++ x ++ y ++ z) &&& (0#a ++ BitVec.allOnes b ++ 0#c ++ BitVec.allOnes d) = 0#a ++ x ++ 0#c ++ z := by
  simp only [BitVec.and_append, BitVec.and_zero, BitVec.and_allOnes]

theorem qp_and (v : Word) :
    0#18 ++ v.extractLsb' 8 6 ++ 0#2 ++ v.extractLsb' 0 6 = v &&& 0x00003F3F#32 := by
  have hv : v = v.extractLsb' 14 18 ++ v.extractLsb' 8 6 ++ v.extractLsb' 6 2 ++ v.extractLsb' 0 6 := by
    rw [BitVec.extractLsb'_append_extractLsb'_eq_extractLsb' (by norm_num),
      BitVec.extractLsb'_append_extractLsb'_eq_extractLsb' (by norm_num),
      BitVec.extractLsb'_append_extractLsb'_eq_extractLsb' (by norm_num), BitVec.extractLsb'_eq_self]
  conv_rhs => rw [hv]
  exact (append_and_fields (v.extractLsb' 14 18) (v.extractLsb' 8 6) (v.extractLsb' 6 2) (v.extractLsb' 0 6)).symm

/-- A held register reads back the bits written to it. -/
theorem readReg_writeReg_same {b : Reg × Word} (hb : b ∈ heldBits) (v free : Word) :
    (s.writeReg p v b.1).readReg free b.1 = v &&& b.2 := by
  have hall : v &&& 0xFFFFFFFF#32 = v := BitVec.and_allOnes
  revert b
  simp only [heldBits, List.forall_mem_cons, State.writeReg, State.readReg, hall, maskHigh_of_append, maskLow_of_append,
    true_and]
  exact ⟨setWidth_extractLsb' v (n := 3) (by norm_num), qp_and v, setWidth_extractLsb' v (n := 2) (by norm_num),
    setWidth_extractLsb' v (n := 3) (by norm_num), setWidth_extractLsb' v (n := 3) (by norm_num),
    setWidth_extractLsb' v (n := 5) (by norm_num), by simp⟩

/-- A write of a held register shows in no other one: only the two registers of a DST mask share a field, and each keeps
the other's half. -/
theorem readReg_writeReg_other {b b' : Reg × Word} (hb : b ∈ heldBits) (hb' : b' ∈ heldBits) (hne : b'.1 ≠ b.1)
    (v free : Word) : (s.writeReg p v b.1).readReg free b'.1 = s.readReg free b'.1 := by
  simp only [heldBits, List.mem_cons, List.not_mem_nil, or_false] at hb hb'
  rcases hb with rfl | rfl | rfl | rfl | rfl | rfl | rfl | rfl | rfl | rfl <;>
    rcases hb' with rfl | rfl | rfl | rfl | rfl | rfl | rfl | rfl | rfl | rfl <;>
    simp [State.writeReg, State.readReg, maskHigh_of_append, maskLow_of_append] at hne ⊢

/-- What a write of each held register leaves is the state with its field written. -/
theorem fieldWritten_eq (s : State) (p : BuildParams) (v : Word) :
    fieldWritten s v = heldBits.map fun b => (b.1.offset, s.writeReg p v b.1) := by
  simp only [fieldWritten, heldBits, List.map_cons, List.map_nil, State.writeReg, maskHigh_append, append_maskLow]
  simp only [extractLsb'_eq_ofNat, pow_zero, Nat.div_one]
  rfl

/-! ### Reserved bits -/

theorem append_and_eq_zero {m n : Nat} {x x' : BitVec m} {y y' : BitVec n} (hx : x &&& x' = 0#m)
    (hy : y &&& y' = 0#n) : (x ++ y) &&& (x' ++ y') = 0#(m + n) := by
  rw [BitVec.and_append, hx, hy, BitVec.zero_append_zero]

theorem statusWord_reserved (s : State) : s.statusWord &&& 0xFFFFF0E0#32 = 0#32 :=
  (show _ &&& (0xFFFFF#20 ++ 0#4 ++ 7#3 ++ 0#1 ++ 0#1 ++ 0#1 ++ 0#1 ++ 0#1) = _ from
    append_and_eq_zero (append_and_eq_zero (append_and_eq_zero (append_and_eq_zero (append_and_eq_zero
      (append_and_eq_zero (append_and_eq_zero BitVec.zero_and BitVec.and_zero) BitVec.zero_and) BitVec.and_zero)
        BitVec.and_zero) BitVec.and_zero) BitVec.and_zero) BitVec.and_zero)

theorem ctrlWord_reserved (b : Bool) : (0#31 ++ BitVec.ofBool b) &&& 0xFFFFFFFE#32 = 0#32 :=
  (show _ &&& (0x7FFFFFFF#31 ++ 0#1) = _ from append_and_eq_zero BitVec.zero_and BitVec.and_zero)

theorem qpWord_reserved (qpC qpY : BitVec 6) : (0#18 ++ qpC ++ 0#2 ++ qpY) &&& 0xFFFFC0C0#32 = 0#32 :=
  (show _ &&& (0x3FFFF#18 ++ 0#6 ++ 3#2 ++ 0#6) = _ from
    append_and_eq_zero (append_and_eq_zero (append_and_eq_zero BitVec.zero_and BitVec.and_zero) BitVec.zero_and)
      BitVec.and_zero)

theorem cbfWord_reserved (v u y : BitVec 1) : (0#29 ++ v ++ u ++ y) &&& 0xFFFFFFF8#32 = 0#32 :=
  (show _ &&& (0x1FFFFFFF#29 ++ 0#1 ++ 0#1 ++ 0#1) = _ from
    append_and_eq_zero (append_and_eq_zero (append_and_eq_zero BitVec.zero_and BitVec.and_zero) BitVec.and_zero)
      BitVec.and_zero)

theorem mpmWord_reserved (m : MpmReg) : mpmWord m &&& 0xFFC0C0C0#32 = 0#32 :=
  (show _ &&& (0x3FF#10 ++ 0#6 ++ 3#2 ++ 0#6 ++ 3#2 ++ 0#6) = _ from
    append_and_eq_zero (append_and_eq_zero (append_and_eq_zero (append_and_eq_zero (append_and_eq_zero
      BitVec.zero_and BitVec.and_zero) BitVec.zero_and) BitVec.and_zero) BitVec.zero_and) BitVec.and_zero)

/-- Reserved bits read 0 at a register's offset when the register's word has none of them. -/
theorem wordAt_reserved {r : Reg} {mask : Word} (h : ∀ free, s.readReg free r &&& mask = 0#32) :
    (wordAt s r.offset).map (· &&& mask) = some 0#32 := by
  rw [wordAt_offset, Option.map_some, h]

theorem reservedBits_read_zero (s : State) :
    ∀ reg ∈ reservedBits, (wordAt s reg.1).map (· &&& reg.2) = some 0#32 := by
  simp only [reservedBits, List.forall_mem_cons]
  exact ⟨wordAt_reserved (r := .status) fun _ => statusWord_reserved s,
    wordAt_reserved (r := .ctrl) fun _ => ctrlWord_reserved _,
    wordAt_reserved (r := .cuCfg) fun _ => setWidth_and_high _ (by norm_num) (by decide),
    wordAt_reserved (r := .qp) fun _ => qpWord_reserved _ _,
    wordAt_reserved (r := .slice) fun _ => setWidth_and_high _ (by norm_num) (by decide),
    wordAt_reserved (r := .dstHHi) fun _ => setWidth_and_high _ (by norm_num) (by decide),
    wordAt_reserved (r := .dstVHi) fun _ => setWidth_and_high _ (by norm_num) (by decide),
    wordAt_reserved (r := .availOvr) fun _ => setWidth_and_high _ (by norm_num) (by decide), by simp⟩

/-! ### What the host's writes leave -/

theorem held_reads_back : ∀ reg ∈ heldRegisters, ∀ (p : BuildParams) (s : State) (v : Word),
    let t := s.hostWrite p (BitVec.ofNat 17 reg.1) 32 v
    wordAt t reg.1 = some (v &&& reg.2)
      ∧ ∀ other ∈ heldRegisters, other.1 ≠ reg.1 → wordAt t other.1 = wordAt s other.1 := by
  rw [heldRegisters_eq]
  simp only [List.forall_mem_map]
  intro b hb p s v
  rw [hostWrite_offset]
  refine ⟨?_, fun b' hb' hne => ?_⟩
  · rw [wordAt_offset, readReg_response, readReg_writeReg_same hb]
  · rw [wordAt_offset, wordAt_offset, readReg_response, readReg_writeReg_other hb hb' fun h => hne (congrArg _ h),
      writeReg_draws hb]

/-- A `CTRL` write with bit 31 clear. -/
theorem hostWrite_ctrl (p : BuildParams) (s : State) {v : Word} (h : v.getLsbD 31 = false) :
    s.hostWrite p 0x0000C#17 32 v
      = { s with cfg := { s.cfg with irqEn := decide (v.toNat % 2 = 1) }, response := some ⟨false, 0#32⟩ } := by
  have hbit : v.getLsbD 0 = decide (v.toNat % 2 = 1) := by rw [getLsbD_eq_decide, pow_zero, Nat.div_one]
  refine (hostWrite_offset p s .ctrl v).trans ?_
  rw [State.writeReg, h, hbit]
  rfl

theorem ctrl_reads_back (p : BuildParams) (s : State) {v : Word} (h : v.getLsbD 31 = false) :
    wordAt (s.hostWrite p 0x0000C#17 32 v) 0x00C = some (v &&& 1#32) := by
  rw [hostWrite_ctrl p s h]
  exact wordAt_of_readReg (r := .ctrl) (ctrlWord_lowBit v)

/-- A write of a read-only register changes nothing but the response. -/
theorem readOnly_ignore_writes : ∀ reg ∈ readOnlyRegisters, ∀ (p : BuildParams) (s : State) (v : Word),
    ∃ r, s.hostWrite p (BitVec.ofNat 17 reg) 32 v = { s with response := some r } := by
  simp only [readOnlyRegisters, List.forall_mem_cons]
  exact ⟨fun p s v => ⟨_, hostWrite_offset p s .id v⟩, fun p s v => ⟨_, hostWrite_offset p s .version v⟩,
    fun p s v => ⟨_, hostWrite_offset p s .errinfo v⟩, fun p s v => ⟨_, hostWrite_offset p s .avail v⟩,
    fun p s v => ⟨_, hostWrite_offset p s .nzsum v⟩, fun p s v => ⟨_, hostWrite_offset p s .cbf v⟩,
    fun p s v => ⟨_, hostWrite_offset p s .mpm v⟩, fun p s v => ⟨_, hostWrite_offset p s .lmA v⟩,
    fun p s v => ⟨_, hostWrite_offset p s .lmB v⟩, fun p s v => ⟨_, hostWrite_offset p s .lmShift v⟩, by simp⟩

/-- Settles O42: every address is a register's offset. Reserved bits read 0 whether the result register has a value or
not. -/
theorem registersHoldWrittenBits : Obligations.RegistersHoldWrittenBits := by
  refine ⟨held_reads_back, fun p s v => ?_, fun p s v h => ⟨ctrl_reads_back p s h, _, hostWrite_ctrl p s h⟩,
    readOnly_ignore_writes, fun reg hreg s => reservedBits_read_zero s reg hreg,
    fun s _ => wordAt_reserved (r := .avail) fun _ => setWidth_and_high _ (by norm_num) (by decide),
    fun s _ _ _ => wordAt_reserved (r := .cbf) fun _ => cbfWord_reserved _ _ _,
    fun s _ => wordAt_reserved (r := .mpm) fun _ => mpmWord_reserved _,
    fun s _ => wordAt_reserved (r := .lmShift) fun _ => setWidth_and_high _ (by norm_num) (by decide)⟩
  rw [fieldWritten_eq s p v]
  simp only [List.forall_mem_map]
  exact fun b _ => ⟨_, hostWrite_offset p s b.1 v⟩

/-! ### Power-on reset (70_reset_and_hazards.md R320) -/

/-- Every register has a value at reset, so no free bits show. -/
theorem resetIn_readReg_free (p : BuildParams) (free : Word) (r : Reg) :
    (State.resetIn p).readReg free r = (State.resetIn p).readReg 0#32 r := by
  cases r <;> rfl

/-- Of the registers only the DST masks differ between builds. -/
theorem resetIn_readReg_build (p : BuildParams) {r : Reg} (hr : r.offset ∉ dstMaskRegisters) :
    (State.resetIn p).readReg 0#32 r = State.reset.readReg 0#32 r := by
  cases r with
  | dstHLo => exact absurd (by decide) hr
  | dstHHi => exact absurd (by decide) hr
  | dstVLo => exact absurd (by decide) hr
  | dstVHi => exact absurd (by decide) hr
  | _ => rfl

theorem resetWords_eq : resetWords = Reg.all.map fun r => (r.offset, State.reset.readReg 0#32 r) := by decide

theorem elem?_of_mem_nil (h : s.mem = []) (a : Arr) (e : Nat) : s.elem? a e = none := by
  rw [State.elem?, h]
  cases a.kind <;> rfl

/-- Settles O48: a register reads at reset what the table lists, and the masks what their build holds. -/
theorem powerOnResetState : Obligations.PowerOnResetState := by
  rw [Obligations.PowerOnResetState, resetWords_eq]
  simp only [List.forall_mem_map]
  refine ⟨fun r _ => wordAt_of_readReg (resetIn_readReg_free defaultBuild _ r), fun p =>
    ⟨fun r _ hr => wordAt_of_readReg ((resetIn_readReg_free p _ r).trans (resetIn_readReg_build p hr)),
      wordAt_of_readReg (r := .dstHLo) (maskWords_eq p.dstHReset).1,
      wordAt_of_readReg (r := .dstHHi) (maskWords_eq p.dstHReset).2,
      wordAt_of_readReg (r := .dstVLo) (maskWords_eq p.dstVReset).1,
      wordAt_of_readReg (r := .dstVHi) (maskWords_eq p.dstVReset).2, rfl, rfl, elem?_of_mem_nil rfl⟩⟩

end Sys2Proof.Machine.RegisterProofs
end

section
/-! PROOFS. What a command and a build leave alone: the host's registers, `CU_POS` and `FRAME_END` under a command, and
every step of another build that neither executes a `PRED` nor resets. -/

namespace Sys2Proof.Machine.FrameProofs

open CommandLaws StepLaws Claims

variable {s t : State} {i : Instr}

/-! ### Commands -/

/-- Only two commands write `CU_POS` or `FRAME_END`. -/
theorem effect_position (i : Instr) (s : State) : i = .frameInit ∨ (∃ mode, i = .histUpdate mode)
    ∨ ((effect i s).cuPos = s.cuPos ∧ (effect i s).status = s.status) := by
  cases i with
  | nop => exact .inr (.inr ⟨rfl, rfl⟩)
  | frameInit => exact .inl rfl
  | refbuild c aovr =>
    refine .inr (.inr ?_)
    simp only [effect, refbuildEffect]
    cases compOf c <;> exact ⟨rfl, rfl⟩
  | pred c mode =>
    refine .inr (.inr ?_)
    simp only [effect, predEffect]
    split <;> simp [lmPredEffect]
  | resid c => exact .inr (.inr ⟨putBlock_cuPos .., putBlock_status ..⟩)
  | fdct c mode tt dsth dstv => exact .inr (.inr ⟨putBlock_cuPos .., putBlock_status ..⟩)
  | quant c => exact .inr (.inr ⟨putBlock_cuPos .., putBlock_status ..⟩)
  | dequant c => exact .inr (.inr ⟨putBlock_cuPos .., putBlock_status ..⟩)
  | idct c mode tt dsth dstv => exact .inr (.inr ⟨putBlock_cuPos .., putBlock_status ..⟩)
  | recon c => exact .inr (.inr ⟨putBlock_cuPos .., putBlock_status ..⟩)
  | mpm => exact .inr (.inr ⟨rfl, rfl⟩)
  | histUpdate mode => exact .inr (.inl ⟨mode, rfl⟩)

/-- `HIST_UPDATE` sets `FRAME_END` at the last CU of the picture and never clears it (44_mpm_control.md R273). -/
theorem histUpdate_frameEnd (mode : BitVec 6) (s : State) :
    (histUpdateEffect mode s).status.frameEnd = (s.status.frameEnd || (lastInRow s && inLastRow s)) := by
  rw [histUpdate_state]
  rfl

/-- A command that answers a next state, whether it failed a check or not, leaves the host's registers, `CMD` and the
bus. -/
theorem exec_host_frame (h : exec i s = .next t) :
    t.cfg = s.cfg ∧ t.cmd = s.cmd ∧ t.bus = s.bus ∧ t.response = s.response := by
  rcases exec_cases h with ⟨code, -, rfl⟩ | ⟨-, -, rfl⟩
  · exact ⟨rfl, rfl, rfl, rfl⟩
  · obtain ⟨hcfg, hcmd, -, -, -, hbus, hresp, -⟩ := effect_frame i s
    exact ⟨hcfg, hcmd, hbus, hresp⟩

/-- Where `CU_POS` and `FRAME_END` of a next state come from. -/
theorem exec_position (h : exec i s = .next t) : (i = .frameInit ∧ t.status.frameEnd = false)
    ∨ (∃ mode, i = .histUpdate mode ∧ t.status.frameEnd = (s.status.frameEnd || (lastInRow s && inLastRow s)))
    ∨ (t.cuPos = s.cuPos ∧ t.status.frameEnd = s.status.frameEnd) := by
  rcases exec_cases h with ⟨code, -, rfl⟩ | ⟨-, -, rfl⟩
  · exact .inr (.inr ⟨rfl, recordError_frameEnd ..⟩)
  · rcases effect_position i s with rfl | ⟨mode, rfl⟩ | ⟨hpos, hst⟩
    · exact .inl ⟨rfl, rfl⟩
    · exact .inr (.inl ⟨mode, rfl, histUpdate_frameEnd mode s⟩)
    · exact .inr (.inr ⟨hpos, by rw [completeOk_status, hst]⟩)

/-- Settles O57, by what the command does to `CU_POS` and `FRAME_END`. -/
theorem commandsLeaveHostRegisters : Obligations.CommandsLeaveHostRegisters := by
  intro i s t h
  obtain ⟨hcfg, hcmd, hbus, hresp⟩ := exec_host_frame h
  refine ⟨hcfg, hcmd, hbus, hresp, ?_⟩
  rcases exec_position h with ⟨rfl, hend⟩ | ⟨mode, rfl, hend⟩ | ⟨hpos, hend⟩
  · exact ⟨fun _ => .inl rfl, fun _ _ => rfl, fun _ ht => absurd (hend.symm.trans ht) (by simp)⟩
  · refine ⟨fun _ => .inr ⟨mode, rfl⟩, fun hs ht => ?_, fun hs ht => ?_⟩
    · simp [hend, hs] at ht
    · rw [hend, hs, Bool.false_or, Bool.and_eq_true] at ht
      exact ⟨⟨mode, rfl⟩, ht⟩
  · exact ⟨fun hne => absurd hpos hne, fun hs ht => absurd (hend.symm.trans ht) (by simp [hs]),
      fun hs ht => absurd (hend.symm.trans ht) (by simp [hs])⟩

/-! ### Builds -/

theorem perform_build (p q : BuildParams) (s : State) (a : HostAccess)
    (h : ∀ v, a = .write 0x0000C#17 32 v → v.getLsbD 31 = false) : s.perform p a = s.perform q a := by
  cases a with
  | read addr bits => rfl
  | write addr bits v =>
    refine hostWrite_build p q s addr bits v fun haddr hbits => ?_
    subst haddr hbits
    exact h v rfl

/-- A host move depends on the build only where it performs the soft reset. -/
theorem hostMove_build (p q : BuildParams) (s : State)
    (h : ∀ v rest, s.bus = .write 0x0000C#17 32 v :: rest → v.getLsbD 31 = false) : s.hostMove p = s.hostMove q := by
  unfold State.hostMove
  split
  · rfl
  · rename_i a rest hbus
    exact perform_build p q _ a fun v ha => h v rest (by rw [hbus, ha])

/-- The engine depends on the build only where the word is a `PRED`. -/
theorem engineMove_build (p q : BuildParams) (s : State) {w : Word} (h : ∀ c mode, decodeWord w ≠ .ok (.pred c mode)) :
    s.engineMove p w = s.engineMove q w := by
  unfold State.engineMove
  split
  · rename_i i hi
    have hne : ∀ c mode, i ≠ .pred c mode := fun c mode hp => h c mode (by rw [hi, hp])
    rw [execIn_of_ne_pred p s hne, execIn_of_ne_pred q s hne]
  · rfl

/-- Settles O49, by who moves: the host, the host before the engine, or the engine. -/
theorem buildsDifferOnlyInPredAndResets : Obligations.BuildsDifferOnlyInPredAndResets := by
  intro p s hpred hreset
  show s.move p = s.move defaultBuild
  unfold State.move
  cases hp : s.pending with
  | none => exact congrArg Host.Outcome.next (hostMove_build p _ s (hreset (.inl hp)))
  | some w =>
    cases ho : s.hostOvertakes with
    | true => exact congrArg Host.Outcome.next (hostMove_build p _ _ (hreset (.inr ho)))
    | false => exact engineMove_build p _ s fun c mode => hpred w c mode hp ho

end Sys2Proof.Machine.FrameProofs
end

section
/-! PROOFS. Every step keeps the storage to bytes of storage elements (20_memory.md R81, R85): whatever writes storage writes
rows of elements to spans inside their arrays, and a lane of an element lists its upper byte only for a coefficient. -/

namespace Sys2Proof.Machine.StorageElementProofs

open MemoryLaws ElementLaws CommandLaws StorageProofs InvariantProofs

variable {s : State} {m m' : Memory} {l : List Span} {a : Arr}

/-! ### The bytes of a written row -/

/-- The two places of a lane: its low byte belongs to every element, its high byte to a coefficient. -/
theorem isElementByte_of_lane {e j : Nat} (he : e < a.size) (hj : j < 2) (hhigh : j = 1 → a.kind = .coefficient) :
    isElementByte (a.laneAddr e + j) = true := by
  refine List.any_eq_true.mpr ⟨a, mem_all a, ?_⟩
  simp only [laneAddr_def, Bool.and_eq_true, Bool.or_eq_true, beq_iff_eq]
  refine ⟨⟨decide_eq_true (by omega), decide_eq_true (by omega)⟩, ?_⟩
  by_cases hj1 : j = 1
  · exact .inl (hhigh hj1)
  · exact .inr (by omega)

/-- A lane lists its high byte only for a coefficient. -/
theorem kind_of_laneBytes_high {k : ElemKind} {v : Option Int} {b : Byte} (h : (laneBytes k v)[1]? = some (some b)) :
    k = .coefficient := by
  cases k with
  | coefficient => rfl
  | sample => simp [laneBytes] at h
  | mode => simp [laneBytes] at h

/-- A byte listed in a row of lanes is in the lane of one of its elements. -/
theorem lane_of_rowBytes {k : ElemKind} {vs : List (Option Int)} {n : Nat} {b : Byte}
    (h : (vs.flatMap (laneBytes k))[n]? = some (some b)) :
    n / 2 < vs.length ∧ (n % 2 = 1 → k = .coefficient) := by
  rw [← Nat.div_add_mod n 2, flatMap_laneBytes_getElem? k _ _ (Nat.mod_lt n two_pos), Option.bind_eq_some_iff] at h
  obtain ⟨v, hv, hb⟩ := h
  refine ⟨(List.getElem?_eq_some_iff.mp hv).1, fun hodd => ?_⟩
  rw [hodd] at hb
  exact kind_of_laneBytes_high hb

/-! ### The invariant event by event -/

/-- A row written inside its array lists bytes of its elements only. -/
theorem holdsOnlyElements_putBytes {sp : Span} {vs : List (Option Int)} (hlen : vs.length = sp.len)
    (hin : sp.start + sp.len ≤ sp.arr.size) (hm : HoldsOnlyElements m) :
    HoldsOnlyElements (m.putBytes (sp.arr.laneAddr sp.start) (vs.flatMap (laneBytes sp.arr.kind))) := by
  intro cell hcell
  obtain hold | ⟨hlo, -, hbyte⟩ := mem_putBytes hcell
  · exact hm cell hold
  · obtain ⟨hlt, hhigh⟩ := lane_of_rowBytes hbyte
    have haddr : cell.1 = sp.arr.laneAddr (sp.start + (cell.1 - sp.arr.laneAddr sp.start) / 2)
        + (cell.1 - sp.arr.laneAddr sp.start) % 2 := by
      simp only [laneAddr_def] at hlo ⊢
      omega
    rw [haddr]
    exact isElementByte_of_lane (by omega) (by omega) hhigh

theorem holdsOnlyElements_of_writesSpans (h : WritesSpans m l m') (hin : SpansInside l) (hm : HoldsOnlyElements m) :
    HoldsOnlyElements m' := by
  induction h with
  | nil => exact hm
  | cons sp vs hlen _ ih =>
    obtain ⟨hsp, hrest⟩ := List.forall_mem_cons.mp hin
    exact ih hrest (holdsOnlyElements_putBytes hlen hsp hm)

/-- An abandoned command would have passed its checks. -/
theorem check_of_abandoned {i : Instr} (h : s.abandoned = some i) : s.check i = none := by
  unfold State.abandoned at h
  split at h
  · cases h
  · split at h
    · cases h
    · split at h
      · cases h
        assumption
      · cases h

theorem holdsOnlyElements_softResetMem (h : HoldsOnlyElements s.mem) : HoldsOnlyElements s.softResetMem := by
  unfold State.softResetMem
  split
  · exact h
  · next i hi =>
    exact holdsOnlyElements_of_writesSpans (writesSpans_foldl_clearSpan s _)
      (storageWrites_inside (check_of_abandoned hi)) h

theorem holdsOnlyElements_writeLane (e : Nat) (u : BitVec 16) (h : HoldsOnlyElements s.mem) :
    HoldsOnlyElements (s.writeLane a e u).mem := by
  unfold State.writeLane
  split
  · next he => exact holdsOnlyElements_putBytes (sp := ⟨a, e, 1⟩) (vs := [some (laneValue a.kind u)]) rfl he h
  · exact h

theorem eventsKeep_holdsOnlyElements : EventsKeep fun s => HoldsOnlyElements s.mem where
  plain _ _ _ _ _ _ _ h := h
  clear _ _ h := h
  accept _ _ h := h
  softReset _ h := holdsOnlyElements_softResetMem h
  lane _ _ e u h := holdsOnlyElements_writeLane e u h
  error _ _ _ h := h
  command s i hc h := holdsOnlyElements_of_writesSpans (writesSpans_effect i s) (storageWrites_inside hc) h

/-- Settles O52: every event of a step writes only rows inside their arrays. -/
theorem storageHoldsOnlyElements : Obligations.StorageHoldsOnlyElements :=
  fun _ _ h hs => eventsKeep_holdsOnlyElements.step h hs

end Sys2Proof.Machine.StorageElementProofs
end

section
/-! PROOFS. Who moves (20_memory.md R93, R94): what performing an access and executing a command do to the queue and to the
pending slot, and the work a step leaves to do. -/

namespace Sys2Proof.Machine.HostMoveProofs

open CommandLaws StepLaws InvariantProofs

variable {s t : State} {p : BuildParams} {i : Instr}

/-! ### The queue and the pending slot -/

/-- Performing an access does not touch those that wait behind it. -/
@[simp] theorem perform_bus (s : State) (p : BuildParams) (a : HostAccess) : (s.perform p a).bus = s.bus := by
  cases a with
  | read addr bits => obtain e | ⟨d, e⟩ := hostRead_cases s addr bits <;> rw [State.perform, e]
  | write addr bits v =>
    obtain e | ⟨r, -, e⟩ | ⟨a, e', -, e⟩ := hostWrite_cases p s addr bits v <;> rw [State.perform, e]
    · obtain ⟨cfg, cuPos, e⟩ | e | e | e := writeReg_cases s p v r <;> rw [e] <;> rfl
    · rw [writeLane_state, writeLane_state]

theorem runCommand_bus_pending {reads : List Span} {eff : State → State} (heff : (eff s).bus = s.bus)
    (h : runCommand i reads eff s = .next t) : t.bus = s.bus ∧ t.pending = none := by
  obtain ⟨code, -, rfl⟩ | ⟨-, -, rfl⟩ := run_cases h
  · exact ⟨rfl, rfl⟩
  · exact ⟨heff, rfl⟩

theorem predEffect_bus (p : BuildParams) (c : BitVec 2) (mode : BitVec 6) (s : State) :
    (predEffect p c mode s).bus = s.bus := by
  simp only [predEffect]
  split <;> simp [lmPredEffect]

/-- A command of any build that answers a next state has completed and leaves the queue. -/
theorem execIn_bus_pending (h : execIn p i s = .next t) : t.bus = s.bus ∧ t.pending = none := by
  by_cases hpred : ∃ c mode, i = .pred c mode
  · obtain ⟨c, mode, rfl⟩ := hpred
    exact runCommand_bus_pending (predEffect_bus p c mode s) h
  · rw [execIn_of_ne_pred p s fun c mode hi => hpred ⟨c, mode, hi⟩, exec_eq] at h
    obtain ⟨-, -, -, -, -, hbus, -⟩ := effect_frame i s
    exact runCommand_bus_pending hbus h

/-! ### Who moves -/

theorem stepIn_of_idle (hp : s.pending = none) : stepIn p s = .next (s.hostMove p) := by
  rw [stepIn, State.move, hp]

theorem stepIn_of_overtakes {w : Word} (hp : s.pending = some w) (ho : s.hostOvertakes = true) :
    stepIn p s = .next (State.hostMove { s with latency := s.latency - 1 } p) := by
  simp only [stepIn, State.move, hp, ho, if_true]

theorem hostMove_of_nil (hb : s.bus = []) : s.hostMove p = s := by
  rw [State.hostMove, hb]

theorem hostMove_of_cons {a : HostAccess} {rest : List HostAccess} (hb : s.bus = a :: rest) :
    s.hostMove p = State.perform { s with bus := rest } p a := by
  rw [State.hostMove, hb]

theorem hostOvertakes_of_cons {a : HostAccess} {rest : List HostAccess} (hb : s.bus = a :: rest) :
    s.hostOvertakes = true ↔ a.address.toNat ∈ [0x000, 0x004, 0x008, 0x00C] ∧ s.latency ≠ 0 := by
  simp only [State.hostOvertakes, hb, HostAccess.neverHeld, Bool.and_eq_true, decide_eq_true_eq, Nat.pos_iff_ne_zero]

/-- A step that no access overtakes has completed the pending command and left the queue. -/
theorem stepIn_of_held {w : Word} (hp : s.pending = some w) (ho : s.hostOvertakes = false)
    (h : stepIn p s = .next t) : t.bus = s.bus ∧ t.pending = none := by
  obtain ⟨hn, -⟩ | ⟨_, -, ho', -⟩ | ⟨_, code, -, -, -, rfl⟩ | ⟨_, i, -, -, -, he⟩ := stepIn_cases h
  · simp [hp] at hn
  · simp [ho] at ho'
  · exact ⟨rfl, rfl⟩
  · exact execIn_bus_pending he

/-- Settles O8, by the pending slot, then the address of the oldest access, then the latency. -/
theorem hostAccessesHeldWhileBusy : Obligations.HostAccessesHeldWhileBusy := by
  intro p s
  refine ⟨fun hp hb => ?_, fun a rest hp hb => ?_, fun w a rest t hp hb haddr h => ?_,
    fun w a rest hp hb haddr hlat => ?_⟩
  · rw [stepIn_of_idle hp, hostMove_of_nil hb]
  · rw [stepIn_of_idle hp, hostMove_of_cons hb]
  · refine stepIn_of_held hp ?_ h
    rw [← Bool.not_eq_true, hostOvertakes_of_cons hb]
    exact fun ho => haddr ho.1
  · rw [stepIn_of_overtakes hp ((hostOvertakes_of_cons hb).mpr ⟨haddr, hlat⟩),
      hostMove_of_cons (s := { s with latency := s.latency - 1 }) hb]

/-! ### The work left to do -/

/-- Two steps for each waiting access, which may be a command's acceptance, and one for a pending command. -/
def workLeft (s : State) : Nat := 2 * s.bus.length + s.pending.isSome.toNat

theorem workLeft_eq_zero : workLeft s = 0 ↔ s.bus = [] ∧ s.pending = none := by
  unfold workLeft
  cases s.pending <;> simp

/-- Performing the oldest access leaves at most one pending command more. -/
theorem workLeft_perform_le (s : State) (p : BuildParams) (a : HostAccess) :
    workLeft (s.perform p a) ≤ 2 * s.bus.length + 1 := by
  have := Bool.toNat_le (s.perform p a).pending.isSome
  rw [workLeft, perform_bus]
  omega

theorem workLeft_hostMove_lt (p : BuildParams) (hb : s.bus ≠ []) : workLeft (s.hostMove p) < 2 * s.bus.length := by
  obtain ⟨hn, -⟩ | ⟨a, rest, hc, e⟩ := hostMove_cases p s
  · exact absurd hn hb
  · rw [e, hc, List.length_cons]
    exact Nat.lt_succ_of_le (workLeft_perform_le { s with bus := rest } p a)

/-- Each step leaves less work, until there is none. -/
theorem workLeft_step_le (h : step s = .next t) : workLeft t ≤ workLeft s - 1 := by
  cases hp : s.pending with
  | none =>
    have ht : t = s.hostMove defaultBuild := Host.Outcome.next.inj (h.symm.trans (stepIn_of_idle hp))
    by_cases hb : s.bus = []
    · rw [ht, hostMove_of_nil hb, workLeft_eq_zero.mpr ⟨hb, hp⟩]
    · have hlt := workLeft_hostMove_lt defaultBuild hb
      rw [ht]
      unfold workLeft at hlt ⊢
      omega
  | some w =>
    have hs : workLeft s = 2 * s.bus.length + 1 := by rw [workLeft, hp]; rfl
    cases ho : s.hostOvertakes with
    | true =>
      have hb : s.bus ≠ [] := fun hb => by simp [State.hostOvertakes, hb] at ho
      have ht := Host.Outcome.next.inj (h.symm.trans (stepIn_of_overtakes hp ho))
      have hlt := workLeft_hostMove_lt (s := { s with latency := s.latency - 1 }) defaultBuild hb
      rw [← ht] at hlt
      exact hs ▸ Nat.le_of_lt hlt
    | false =>
      obtain ⟨hbus, hpend⟩ := stepIn_of_held hp ho h
      rw [hs, workLeft, hbus, hpend]
      exact le_rfl

/-! ### Runs -/

/-- No command and no step is refused. -/
theorem exec_next_or_fault (i : Instr) (s : State) : (∃ t, exec i s = .next t) ∨ ∃ f, exec i s = .fault f := by
  rw [exec_eq, runCommand]
  split
  · exact .inl ⟨_, rfl⟩
  · split
    · exact .inr ⟨_, rfl⟩
    · exact .inl ⟨_, rfl⟩

theorem step_next_or_fault (s : State) : (∃ t, step s = .next t) ∨ ∃ f, step s = .fault f := by
  unfold step stepIn State.move State.engineMove
  split
  · exact .inl ⟨_, rfl⟩
  · split
    · exact .inl ⟨_, rfl⟩
    · split
      · rw [execIn_default]
        exact exec_next_or_fault _ s
      · exact .inl ⟨_, rfl⟩

theorem run_succ_of_next (h : step s = .next t) (k : Nat) : Host.Core.run core (k + 1) s = Host.Core.run core k t := by
  have hcore : core.step s = .next t := h
  simp only [Host.Core.run, hcore]

theorem run_succ_of_fault {f : Fault} (h : step s = .fault f) (k : Nat) :
    Host.Core.run core (k + 1) s = .fault f := by
  have hcore : core.step s = .fault f := h
  simp only [Host.Core.run, hcore]

/-- As many steps as there is work leave none, unless the model faults. -/
theorem run_finishes_work (k : Nat) (s : State) (hk : workLeft s ≤ k) :
    (∃ t : State, Host.Core.run core k s = .next t ∧ workLeft t = 0)
      ∨ ∃ f : Fault, Host.Core.run core k s = .fault f := by
  induction k generalizing s with
  | zero => exact .inl ⟨s, rfl, Nat.le_zero.mp hk⟩
  | succ k ih =>
    obtain ⟨t, ht⟩ | ⟨f, hf⟩ := step_next_or_fault s
    · rw [run_succ_of_next ht]
      exact ih t ((workLeft_step_le ht).trans (by omega))
    · exact .inr ⟨f, run_succ_of_fault hf k⟩

/-- Settles O10: the steps of the statement are at least the work left to do. -/
theorem everyHostAccessIsPerformed : Obligations.EveryHostAccessIsPerformed := by
  intro s
  have hk : workLeft s ≤ 2 * s.bus.length + 1 := Nat.add_le_add_left (Bool.toNat_le _) _
  obtain ⟨t, ht, hw⟩ | hf := run_finishes_work _ s hk
  · exact .inl ⟨t, ht, workLeft_eq_zero.mp hw⟩
  · exact .inr hf

/-! ### The platform (20_memory.md R98) -/

theorem blockAddress_platformAddress (p : BuildParams) (addr : BitVec 17) :
    blockAddress p (p.xicBase + addr.toNat) = some addr :=
  blockAddress_eq_some.mpr rfl

theorem blockAddress_eq_none {a : Nat} (h : ∀ b : BitVec 17, a ≠ p.xicBase + b.toNat) : blockAddress p a = none :=
  Option.eq_none_iff_forall_ne_some.mpr fun b hb => h b (blockAddress_eq_some.mp hb)

theorem issue_of_route {a : PlatformAccess} {b : HostAccess} (h : a.route p = some b) :
    s.issue p a = { s with bus := s.bus ++ [b] } := by
  rw [State.issue, h]

theorem issue_of_not_routed {a : PlatformAccess} (h : a.route p = none) : s.issue p a = s := by
  rw [State.issue, h]

/-- An idle block performs an access issued to it in the next step. -/
theorem stepIn_issue {a : PlatformAccess} {b : HostAccess} (h : a.route p = some b) (hp : s.pending = none)
    (hb : s.bus = []) : stepIn p (s.issue p a) = .next (s.perform p b) := by
  have hself : { s with bus := [] } = s := by rw [← hb]
  have hq : (s.issue p a).bus = [b] := by rw [issue_of_route h, hb]; rfl
  have hq' : (s.issue p a).pending = none := by rw [issue_of_route h]; exact hp
  rw [stepIn_of_idle hq', hostMove_of_cons hq, issue_of_route h, hself]

/-- Settles O60, by where the platform routes an access. -/
theorem platformAddsBaseToEveryAddress : Obligations.PlatformAddsBaseToEveryAddress := by
  intro p s addr bits v
  have hread : (PlatformAccess.read (p.xicBase + addr.toNat) bits).route p = some (.read addr bits) := by
    rw [PlatformAccess.route, blockAddress_platformAddress, Option.map_some]
  have hwrite : (PlatformAccess.write (p.xicBase + addr.toNat) bits v).route p = some (.write addr bits v) := by
    rw [PlatformAccess.route, blockAddress_platformAddress, Option.map_some]
  refine ⟨issue_of_route hread, issue_of_route hwrite,
    fun hp hb => ⟨stepIn_issue hread hp hb, stepIn_issue hwrite hp hb⟩, fun a ha => ⟨?_, ?_⟩⟩ <;>
  · apply issue_of_not_routed
    rw [PlatformAccess.route, blockAddress_eq_none ha, Option.map_none]

end Sys2Proof.Machine.HostMoveProofs
end

section
/-! PROOFS. The engine against the host's side of the state (20_memory.md R80, R91): the queue, the response, the latency and
the draw counter may be replaced before a command or after it. -/

namespace Sys2Proof.Machine.HostFieldProofs

open CommandLaws

/-- `s` with the queue, the response and the model's own counters of `h`. -/
def withHost (h s : State) : State :=
  { s with bus := h.bus, response := h.response, latency := h.latency, draws := h.draws }

variable (h s : State)

theorem check_withHost (i : Instr) : (withHost h s).check i = s.check i := by
  cases i <;> rfl

theorem reads_withHost (i : Instr) : reads (withHost h s) i = reads s i := by
  cases i <;> rfl

theorem firstMissing_withHost (spans : List Span) : (withHost h s).firstMissing spans = s.firstMissing spans := rfl

/-! ### Effects -/

theorem putRows_withHost (a : Arr) (y : Nat) (blk : Block) (s : State) :
    State.putRows a y blk (withHost h s) = withHost h (State.putRows a y blk s) := by
  induction blk generalizing y s with
  | nil => rfl
  | cons r rs ih => exact ih (y + 1) (s.putRow a (32 * y) r)

theorem putBlock_withHost (a : Arr) (blk : Block) : (withHost h s).putBlock a blk = withHost h (s.putBlock a blk) :=
  putRows_withHost h a 0 blk s

theorem foldl_copyHistories_withHost (t : State) (cs : List Comp) :
    cs.foldl (copyHistories (withHost h s)) (withHost h t) = withHost h (cs.foldl (copyHistories s) t) := by
  induction cs generalizing t with
  | nil => rfl
  | cons c cs ih => exact ih (copyHistories s t c)

theorem updateLm_withHost (t : State) : updateLm (withHost h s) (withHost h t) = withHost h (updateLm s t) := by
  by_cases hlg : s.cuLog2 = 2
  · rw [updateLm, updateLm, if_pos hlg]
    exact if_pos hlg
  · rw [updateLm, updateLm, if_neg hlg]
    exact if_neg hlg

theorem advance_withHost (t : State) : advance (withHost h s) (withHost h t) = withHost h (advance s t) := by
  unfold advance
  show (if s.rowEnds then _ else _) = withHost h (if s.rowEnds then _ else _)
  split <;> rfl

theorem histUpdate_withHost (mode : BitVec 6) :
    histUpdateEffect mode (withHost h s) = withHost h (histUpdateEffect mode s) := by
  have hcopies := foldl_copyHistories_withHost h s s s.updatedComps
  have hcomps : (withHost h s).updatedComps = s.updatedComps := rfl
  unfold histUpdateEffect
  rw [hcomps, hcopies, updateLm_withHost]
  exact advance_withHost h s (updateModes mode s (updateLm s (s.updatedComps.foldl (copyHistories s) s)))

theorem lmPred_withHost (c : BitVec 2) (r : List Int) :
    lmPredEffect defaultBuild c r (withHost h s) = withHost h (lmPredEffect defaultBuild c r s) :=
  congrArg (fun t : State => { t with res := (lmPredEffect defaultBuild c r s).res }) (putBlock_withHost h s _ _)

theorem pred_withHost (c : BitVec 2) (mode : BitVec 6) :
    predEffect defaultBuild c mode (withHost h s) = withHost h (predEffect defaultBuild c mode s) := by
  unfold predEffect
  split
  · exact putBlock_withHost h s _ _
  · exact lmPred_withHost h s c _

theorem quant_withHost (c : BitVec 2) : quantEffect c (withHost h s) = withHost h (quantEffect c s) :=
  congrArg (fun t : State => { t with res := (quantEffect c s).res }) (putBlock_withHost h s _ _)

theorem refbuild_withHost (c : BitVec 2) (aovr : Bool) :
    refbuildEffect c aovr (withHost h s) = withHost h (refbuildEffect c aovr s) := by
  unfold refbuildEffect
  cases compOf c <;> rfl

theorem effect_withHost (i : Instr) : effect i (withHost h s) = withHost h (effect i s) := by
  cases i with
  | nop => rfl
  | frameInit => rfl
  | refbuild c aovr => exact refbuild_withHost h s c aovr
  | pred c mode => exact pred_withHost h s c mode
  | resid c => exact putBlock_withHost h s _ _
  | fdct c mode tt dsth dstv => exact putBlock_withHost h s _ _
  | quant c => exact quant_withHost h s c
  | dequant c => exact putBlock_withHost h s _ _
  | idct c mode tt dsth dstv => exact putBlock_withHost h s _ _
  | recon c => exact putBlock_withHost h s _ _
  | mpm => rfl
  | histUpdate mode => exact histUpdate_withHost h s mode

/-! ### Commands -/

/-- A command on other host fields answers as before, its next state with those fields. -/
theorem exec_withHost (i : Instr) :
    (∀ t, exec i s = .next t → exec i (withHost h s) = .next (withHost h t))
      ∧ ∀ f, exec i s = .fault f → exec i (withHost h s) = .fault f := by
  rw [exec_eq, exec_eq, reads_withHost]
  cases hc : s.check i with
  | some code =>
    rw [run_error hc, run_error ((check_withHost h s i).trans hc)]
    exact ⟨fun t ht => by cases ht; rfl, fun f hf => by cases hf⟩
  | none =>
    have hc' := (check_withHost h s i).trans hc
    cases hm : s.firstMissing (reads s i) with
    | some m =>
      rw [run_fault hc hm, run_fault hc' ((firstMissing_withHost h s _).trans hm)]
      exact ⟨fun t ht => (nomatch ht), fun f hf => hf⟩
    | none =>
      rw [run_next hc hm, run_next hc' ((firstMissing_withHost h s _).trans hm), effect_withHost]
      exact ⟨fun t ht => by cases ht; rfl, fun f hf => by cases hf⟩

/-- Settles O59: checks, reads and effect of a command do not depend on the host's fields. -/
theorem engineIgnoresBusState : Obligations.EngineIgnoresBusState :=
  fun i s bus response latency draws => exec_withHost { s with bus, response, latency, draws } s i

end Sys2Proof.Machine.HostFieldProofs
end

section
/-! PROOFS. The address map and the lanes as the host sees them (20_memory.md R81-R90): a word address is a register's, is in
the window of one array, or is unmapped; an access to a lane pair reads or writes its two elements. -/

namespace Sys2Proof.Machine.LaneProofs

open ElementLaws StepLaws RuleLaws Claims

variable {s : State} {p : BuildParams} {a b : Arr} {e f n : Nat} {addr : BitVec 17} {bits : Nat}

/-! ### The windows -/

/-- The byte address is in the array's window (20_memory.md R81). -/
def InWindow (a : Arr) (n : Nat) : Prop := a.base ≤ n ∧ n < a.base + a.windowBytes

theorem windowBase_eq (a : Arr) : windowBase a = a.base := by
  cases a with
  | buf b c => cases b <;> cases c <;> rfl
  | ref c => cases c <;> rfl
  | topPix c => cases c <;> rfl
  | corner c => cases c <;> rfl
  | leftPix c => cases c <;> rfl
  | _ => rfl

/-- The windows lie above the registers and in the address space, on word boundaries. -/
theorem window_bounds (a : Arr) : 0x1000 ≤ a.base ∧ a.base + a.windowBytes < 2 ^ 17 ∧ a.base % 4 = 0 := by
  have h : ∀ a ∈ Arr.all, 0x1000 ≤ a.base ∧ a.base + a.windowBytes < 2 ^ 17 ∧ a.base % 4 = 0 := by decide
  exact h a (mem_all a)

theorem inWindow_unique (ha : InWindow a n) (hb : InWindow b n) : a = b := by
  by_contra hne
  have hd := disjoint hne
  simp only [InWindow, Arr.windowBytes] at ha hb
  simp only [laneAddr_def] at hd
  omega

theorem find?_eq_some_of_unique {l : List Arr} {q : Arr → Bool} (ha : a ∈ l) (hq : q a = true)
    (huniq : ∀ b, q b = true → b = a) : l.find? q = some a := by
  obtain ⟨b, hb⟩ := Option.isSome_iff_exists.mp (List.find?_isSome.mpr ⟨a, ha, hq⟩)
  rw [hb, huniq b (List.find?_some hb)]

theorem offset_lt (r : Reg) : r.offset < 0x5C := by
  cases r <;> decide

theorem targetOf_offset (r : Reg) : targetOf r.offset = .reg r := by
  cases r <;> rfl

/-- An address in a window names the lanes of its word: no register and no other array is there. -/
theorem targetOf_of_inWindow (h : InWindow a n) : targetOf n = .lanes a ((n - a.base) / 2) := by
  have hreg : Reg.all.find? (fun r => r.offset == n) = none := by
    refine List.find?_eq_none.mpr fun r _ hr => ?_
    have hoff := offset_lt r
    have hbase := (window_bounds a).1
    have hlo := h.1
    rw [beq_iff_eq] at hr
    omega
  have harr : Arr.all.find? (fun b => decide (b.base ≤ n) && decide (n < b.base + b.windowBytes)) = some a := by
    have hq : ∀ b : Arr, (decide (b.base ≤ n) && decide (n < b.base + b.windowBytes)) = true ↔ InWindow b n := by
      simp [InWindow]
    exact find?_eq_some_of_unique (mem_all a) ((hq a).mpr h) fun b hb => inWindow_unique ((hq b).mp hb) h
  rw [targetOf, hreg, harr]

/-- An address that is no register's and in no window names nothing. -/
theorem targetOf_unmapped (hreg : ∀ r : Reg, r.offset ≠ n) (harr : ∀ a, ¬ InWindow a n) :
    targetOf n = .unmapped := by
  have hr : Reg.all.find? (fun r => r.offset == n) = none := List.find?_eq_none.mpr fun r _ => by simp [hreg r]
  have ha : Arr.all.find? (fun b => decide (b.base ≤ n) && decide (n < b.base + b.windowBytes)) = none :=
    List.find?_eq_none.mpr fun a _ => by simpa [InWindow] using harr a
  rw [targetOf, hr, ha]

/-! ### The mapped addresses -/

/-- The windows of the arrays, one after the other, fill the addresses from `lo` to `hi`. -/
def fillsRange (hi : Nat) : Nat → List Arr → Bool
  | lo, [] => decide (hi ≤ lo)
  | lo, a :: l => a.base == lo && fillsRange hi (lo + a.windowBytes) l

theorem inWindow_of_fillsRange {l : List Arr} {lo hi : Nat} (h : fillsRange hi lo l = true) (hlo : lo ≤ n)
    (hhi : n < hi) : ∃ a, InWindow a n := by
  induction l generalizing lo with
  | nil =>
    have hle : hi ≤ lo := of_decide_eq_true h
    omega
  | cons a l ih =>
    rw [fillsRange, Bool.and_eq_true, beq_iff_eq] at h
    obtain ⟨hbase, hrest⟩ := h
    by_cases hn : n < lo + a.windowBytes
    · exact ⟨a, by rw [InWindow, hbase]; exact ⟨hlo, hn⟩⟩
    · exact ih hrest (Nat.le_of_not_lt hn)

/-- The buffers of the three components, one after the other. -/
def allBuffers : List Arr := Comp.all.flatMap fun c => Buf.all.map fun b => .buf b c

theorem inWindow_of_mapped (h : mapped n = true) (hreg : ¬ n < 0x5C) : ∃ a, InWindow a n := by
  obtain hr | ⟨hlo, hhi⟩ | ⟨hlo, hhi⟩ | ⟨hlo, hhi⟩ | ⟨hlo, hhi⟩
    | ⟨hlo, hhi⟩ | ⟨hlo, hhi⟩ | ⟨hlo, hhi⟩ | ⟨hlo, hhi⟩ := of_decide_eq_true h
  · exact absurd hr hreg
  · exact inWindow_of_fillsRange (l := allBuffers) (by decide) hlo hhi
  · exact ⟨.ref .y, hlo, hhi⟩
  · exact ⟨.ref .u, hlo, hhi⟩
  · exact ⟨.ref .v, hlo, hhi⟩
  · exact ⟨.reff0, hlo, hhi⟩
  · exact ⟨.lmref, hlo, hhi⟩
  · exact inWindow_of_fillsRange (l := [.topPix .y, .topPix .u, .topPix .v, .lmTop, .corner .y, .corner .u, .corner .v,
      .topMode]) (by decide) hlo hhi
  · exact inWindow_of_fillsRange (l := [.leftPix .y, .leftPix .u, .leftPix .v, .lmLeft, .leftMode]) (by decide) hlo hhi

theorem mapped_of_inWindow (h : InWindow a n) : mapped n = true := by
  obtain ⟨hlo, hhi⟩ := h
  refine decide_eq_true ?_
  cases a with
  | buf b c =>
    have hb : b.index ≤ 7 := by cases b <;> decide
    have hc : c.index ≤ 2 := by cases c <;> decide
    simp only [Arr.base, Arr.windowBytes, Arr.size] at hlo hhi
    omega
  | ref c => cases c <;> simp only [Arr.base, Arr.windowBytes, Arr.size] at hlo hhi <;> omega
  | topPix c => cases c <;> simp only [Arr.base, Arr.windowBytes, Arr.size] at hlo hhi <;> omega
  | corner c => cases c <;> simp only [Arr.base, Arr.windowBytes, Arr.size] at hlo hhi <;> omega
  | leftPix c => cases c <;> simp only [Arr.base, Arr.windowBytes, Arr.size] at hlo hhi <;> omega
  | _ => simp only [Arr.base, Arr.windowBytes, Arr.size] at hlo hhi; omega

theorem exists_offset (h4 : n % 4 = 0) (hn : n < 0x5C) : ∃ r : Reg, r.offset = n := by
  have h : ∀ k < 23, ∃ r ∈ Reg.all, r.offset = 4 * k := by decide
  obtain ⟨r, -, hr⟩ := h (n / 4) (by omega)
  exact ⟨r, by omega⟩

/-- The word addresses of the map are those of the registers and the windows (20_memory.md R81, R88). -/
theorem targetOf_eq_unmapped_iff (h4 : n % 4 = 0) : targetOf n = .unmapped ↔ mapped n = false := by
  by_cases hreg : n < 0x5C
  · obtain ⟨r, rfl⟩ := exists_offset h4 hreg
    rw [targetOf_offset, mapped, decide_eq_true (.inl hreg)]
    simp
  · by_cases harr : ∃ a, InWindow a n
    · obtain ⟨a, ha⟩ := harr
      rw [targetOf_of_inWindow ha, mapped_of_inWindow ha]
      simp
    · have hm : mapped n = false := Bool.eq_false_iff.mpr fun hm => harr (inWindow_of_mapped hm hreg)
      have hoff : ∀ r : Reg, r.offset ≠ n := fun r hr => hreg (hr ▸ offset_lt r)
      simp [hm, targetOf_unmapped hoff fun a ha => harr ⟨a, ha⟩]

/-! ### Bus errors -/

/-- The access is served exactly when its form is and its address names something. -/
theorem served_eq_true_iff :
    served addr bits = true ↔ servedForm addr bits = true ∧ targetOf addr.toNat ≠ .unmapped := by
  simp only [served, servedForm, Bool.and_eq_true, decide_eq_true_eq, beq_iff_eq]
  refine and_congr_right fun ⟨_, h4⟩ => ?_
  rw [Ne, targetOf_eq_unmapped_iff h4, Bool.not_eq_false]

theorem served_eq_false_iff :
    served addr bits = false ↔ servedForm addr bits = false ∨ targetOf addr.toNat = .unmapped := by
  rw [← Bool.not_eq_true, served_eq_true_iff, not_and_or, Bool.not_eq_true, not_not]

/-- An access that is not served does not reach what it would do at its target. -/
theorem target_of_not_served {α : Type} {act : Target → Option α} (hact : act .unmapped = none)
    (h : served addr bits = false) : (if servedForm addr bits then act (targetOf addr.toNat) else none) = none := by
  obtain hf | ht := served_eq_false_iff.mp h
  · rw [hf]
    rfl
  · rw [ht, hact, ite_self]

theorem hostRead_of_not_served (h : served addr bits = false) :
    s.hostRead addr bits = { s with response := some busError } := by
  rw [State.hostRead, target_of_not_served rfl h]

theorem hostWrite_of_not_served (v : Word) (h : served addr bits = false) :
    s.hostWrite p addr bits v = { s with response := some busError } := by
  rw [State.hostWrite, target_of_not_served rfl h]

theorem hostRead_of_served (h : served addr bits = true) :
    ∃ d, (s.hostRead addr bits).response = some ⟨false, d⟩ := by
  obtain ⟨hf, ht⟩ := served_eq_true_iff.mp h
  unfold State.hostRead
  rw [hf]
  cases hta : targetOf addr.toNat with
  | reg r => exact ⟨_, rfl⟩
  | lanes a e => exact ⟨_, rfl⟩
  | unmapped => exact absurd hta ht

theorem hostWrite_of_served (v : Word) (h : served addr bits = true) :
    (s.hostWrite p addr bits v).response = some ⟨false, 0#32⟩ := by
  obtain ⟨hf, ht⟩ := served_eq_true_iff.mp h
  unfold State.hostWrite
  rw [hf]
  cases hta : targetOf addr.toNat with
  | reg r => rfl
  | lanes a e => rfl
  | unmapped => exact absurd hta ht

/-- Settles O38: an access is served exactly when it reaches a register or a lane pair. -/
theorem busErrorsExactlyOutsideMap : Obligations.BusErrorsExactlyOutsideMap := fun _ _ _ _ v =>
  ⟨fun h => ⟨hostRead_of_not_served h, 0#32, hostWrite_of_not_served v h⟩,
    fun h => ⟨hostRead_of_served h, 0#32, hostWrite_of_served v h⟩⟩

/-- Settles O39: a read answers a bus error or draws the free bits of one word. -/
theorem hostReadsChangeNothing : Obligations.HostReadsChangeNothing := by
  intro s addr bits
  obtain h | ⟨d, h⟩ := hostRead_cases s addr bits
  · exact ⟨busError, s.draws, h⟩
  · exact ⟨⟨false, d⟩, s.draws + 1, h⟩

/-! ### The word of a lane pair -/

/-- The host address of the word that holds lanes `e` and `e + 1` of the array, for an even `e`. -/
def pairAddr (a : Arr) (e : Nat) : BitVec 17 := BitVec.ofNat 17 (windowBase a + 2 * e)

theorem inWindow_lane (he : e < a.size) : InWindow a (a.base + 2 * e) := by
  unfold InWindow Arr.windowBytes
  omega

theorem pairAddr_toNat (he : e < a.size) : (pairAddr a e).toNat = a.base + 2 * e := by
  have hhi := (inWindow_lane he).2
  have hspace := (window_bounds a).2.1
  rw [pairAddr, windowBase_eq, BitVec.toNat_ofNat, Nat.mod_eq_of_lt (by omega)]

theorem targetOf_pairAddr (he : e < a.size) : targetOf (pairAddr a e).toNat = .lanes a e := by
  rw [pairAddr_toNat he, targetOf_of_inWindow (inWindow_lane he)]
  congr 1
  omega

theorem servedForm_pairAddr (he2 : e % 2 = 0) (he : e < a.size) : servedForm (pairAddr a e) 32 = true := by
  have hbase := (window_bounds a).2.2
  rw [servedForm, pairAddr_toNat he, Bool.and_eq_true, beq_iff_eq, beq_iff_eq]
  exact ⟨rfl, by omega⟩

theorem hostRead_pairAddr_response (s : State) (he2 : e % 2 = 0) (he : e < a.size) :
    ∃ free : Word, (s.hostRead (pairAddr a e) 32).response
      = some ⟨false, s.readLane (free.extractLsb' 16 16) a (e + 1) ++ s.readLane (free.extractLsb' 0 16) a e⟩ := by
  refine ⟨Config.freeBits s.draws, ?_⟩
  rw [State.hostRead, servedForm_pairAddr he2 he, targetOf_pairAddr he]
  rfl

theorem hostWrite_pairAddr (s : State) (p : BuildParams) (v : Word) (he2 : e % 2 = 0) (he : e < a.size) :
    s.hostWrite p (pairAddr a e) 32 v
      = { (s.writeLane a e (v.extractLsb' 0 16)).writeLane a (e + 1) (v.extractLsb' 16 16) with
          response := some ⟨false, 0#32⟩ } := by
  rw [State.hostWrite, servedForm_pairAddr he2 he, targetOf_pairAddr he]
  rfl

/-! ### Reading a lane -/

theorem readLane_of_elem? {free : BitVec 16} {v : Int} (he : e < a.size) (h : s.elem? a e = some v) :
    s.readLane free a e = BitVec.ofInt 16 v := by
  rw [State.readLane, if_pos he, h]

theorem readLane_reserved (free : BitVec 16) (he : a.size ≤ e) : s.readLane free a e = 0#16 := by
  rw [State.readLane, if_neg (Nat.not_lt.mpr he)]

/-- A sample or a mode is a byte. -/
theorem elem?_range {v : Int} (hk : a.kind ≠ .coefficient) (h : s.elem? a e = some v) : 0 ≤ v ∧ v ≤ 255 := by
  have hv : s.val a e = v := by rw [State.val, h, Option.getD_some]
  rw [← hv]
  cases hkind : a.kind with
  | sample => exact val_sample hkind e
  | mode => exact val_mode hkind e
  | coefficient => exact absurd hkind hk

/-- Settles O41: a lane below the array's size reads its element, the one above it is reserved. -/
theorem hostReadsAnswerLanes : Obligations.HostReadsAnswerLanes := by
  intro s a e he2 he
  obtain ⟨free, hread⟩ := hostRead_pairAddr_response s he2 he
  exact ⟨_, _, hread, fun v hv => ⟨readLane_of_elem? he hv, fun hk => elem?_range hk hv⟩,
    fun he' v hv => ⟨readLane_of_elem? he' hv, fun hk => elem?_range hk hv⟩, fun he' => readLane_reserved _ he'⟩

/-! ### Writing a lane -/

/-- The value a lane write stores is the element's. -/
theorem stored_laneValue (a : Arr) (u : BitVec 16) : stored a.kind (laneValue a.kind u) = laneElement a u := by
  cases hk : a.kind with
  | sample => simp [stored, laneValue, laneElement, hk]
  | mode => simp [stored, laneValue, laneElement, hk]
  | coefficient =>
    have hlo := BitVec.le_toInt u
    have hhi := BitVec.toInt_lt (x := u)
    rw [laneElement, if_pos hk, laneValue, stored_coefficient (by omega), BitVec.toInt_eq_toNat_cond]
    split <;> split <;> omega

/-- A lane write gives its element the value and no other element of any array a new one. -/
theorem elem?_writeLane (s : State) (a : Arr) (e : Nat) (u : BitVec 16) (hf : f < b.size) :
    (s.writeLane a e u).elem? b f = if b = a ∧ f = e then some (laneElement a u) else s.elem? b f := by
  unfold State.writeLane
  by_cases he : e < a.size
  · rw [if_pos he, State.putRow, elem?_putRow? hf (by simpa using he)]
    by_cases hbf : b = a ∧ f = e
    · obtain ⟨rfl, rfl⟩ := hbf
      simp [stored_laneValue]
    · rw [if_neg hbf, if_neg]
      rintro ⟨hb, hlo, hhi⟩
      exact hbf ⟨hb, by simp at hhi; omega⟩
  · rw [if_neg he, if_neg]
    rintro ⟨rfl, rfl⟩
    exact he hf

/-- Storing 16 bits to a lane and reading them back. -/
theorem ofInt_laneElement (a : Arr) (u : BitVec 16) :
    BitVec.ofInt 16 (laneElement a u) = if a.kind = .coefficient then u else BitVec.ofNat 16 (u.toNat % 256) := by
  unfold laneElement
  split
  · rw [← BitVec.toInt_inj, BitVec.toInt_ofInt, BitVec.toInt_eq_toNat_bmod]
    split
    · rfl
    · simp [Int.bmod_def]
  · rw [BitVec.ofInt_natCast]

theorem readLane_of_laneElement {free u : BitVec 16} (h : e < a.size → s.elem? a e = some (laneElement a u)) :
    s.readLane free a e = laneBack a e u := by
  unfold laneBack
  by_cases he : a.size ≤ e
  · rw [if_pos he, readLane_reserved free he]
  · have he' := Nat.lt_of_not_le he
    rw [if_neg he, readLane_of_elem? he' (h he'), ofInt_laneElement]

/-- Settles O37, by what the two lane writes leave in each element. -/
theorem laneWriteReadsBack : Obligations.LaneWriteReadsBack := by
  intro p s a e v he2 he t
  have ht : t = _ := hostWrite_pairAddr s p v he2 he
  have helem : ∀ b f, f < b.size → t.elem? b f
      = if b = a ∧ f = e + 1 then some (laneElement a (v.extractLsb' 16 16))
        else if b = a ∧ f = e then some (laneElement a (v.extractLsb' 0 16)) else s.elem? b f := by
    intro b f hf
    rw [← elem?_writeLane s a e _ hf, ← elem?_writeLane _ a (e + 1) _ hf, ht]
    rfl
  have hlow : t.elem? a e = some (laneElement a (v.extractLsb' 0 16)) := by
    rw [helem a e he, if_neg (by omega), if_pos ⟨rfl, rfl⟩]
  have hhigh : e + 1 < a.size → t.elem? a (e + 1) = some (laneElement a (v.extractLsb' 16 16)) := fun he' => by
    rw [helem a (e + 1) he', if_pos ⟨rfl, rfl⟩]
  obtain ⟨free, hread⟩ := hostRead_pairAddr_response t he2 he
  refine ⟨?_, hlow, hhigh, fun b f hf hne => ?_, ⟨false, 0#32⟩, ?_⟩
  · rw [readLane_of_laneElement hhigh, readLane_of_laneElement fun _ => hlow] at hread
    exact hread
  · rw [helem b f hf, if_neg fun h => hne ⟨h.1, .inr h.2⟩, if_neg fun h => hne ⟨h.1, .inl h.2⟩]
  · rw [ht, writeLane_state, writeLane_state]

end Sys2Proof.Machine.LaneProofs
end

section
/-! PROOFS. The decoder (30_encoding.md R110-R120): a word decodes to a command exactly when its fields are the command's
and the command is well formed. The round trips and the opcode table's rows follow from that; the order of the checks
follows from reading the fields as numbers. -/

namespace Sys2Proof.Machine.EncodingProofs

open EncodingLaws RegisterProofs Claims Laws

variable {w : Word} {f : CmdFields} {fmt : Format} {i : Instr}

/-! ### Fields and commands -/

/-- The format of a command (30_encoding.md R112). -/
def format : Instr → Format
  | .nop | .frameInit | .mpm => .n
  | .refbuild _ _ => .ca
  | .pred _ _ => .cm
  | .resid _ | .quant _ | .dequant _ | .recon _ => .c
  | .fdct _ _ _ _ _ | .idct _ _ _ _ _ => .ct
  | .histUpdate _ => .m

@[simp] theorem opcodeMap_fields (i : Instr) : opcodeMap i.fields = some (format i, i) := by
  cases i <;> rfl

/-- The fields of a command fail no check but the two constraints inside format CT. -/
@[simp] theorem reservedFieldSet_fields (i : Instr) : reservedFieldSet (format i) i.fields = !i.wellFormed := by
  cases i <;> simp [reservedFieldSet, format, Instr.fields, opOnly, Instr.wellFormed, Format.usesC, Format.usesMode,
    Format.usesTt, Format.usesAovr]

/-- The fields with 0 in every field outside the format. -/
def keep (fmt : Format) (f : CmdFields) : CmdFields where
  op := f.op
  c := if fmt.usesC then f.c else 0#2
  mode := if fmt.usesMode then f.mode else 0#6
  tt := if fmt.usesTt then f.tt else 0#2
  dsth := if fmt.usesTt then f.dsth else false
  dstv := if fmt.usesTt then f.dstv else false
  aovr := if fmt.usesAovr then f.aovr else false
  low := 0#13

/-- The opcode map takes the fields of the command's format. -/
theorem fields_of_opcodeMap (h : opcodeMap f = some (fmt, i)) : i.fields = keep fmt f := by
  have hop : i.fields.op = f.op := by
    apply BitVec.eq_of_toNat_eq
    unfold opcodeMap at h
    split at h <;> cases h <;> exact Eq.symm ‹_›
  have hkeep : keep fmt f = { keep fmt f with op := i.fields.op } := by rw [hop]; rfl
  rw [hkeep]
  unfold opcodeMap at h
  split at h <;> cases h <;> rfl

theorem ite_eq_of_or {α : Type} {b : Bool} {x z : α} (h : b = true ∨ x = z) : (if b then x else z) = x :=
  ite_eq_left_iff.mpr fun hb => (h.resolve_left hb).symm

/-- Fields that pass the field checks are 0 outside the format. -/
theorem keep_of_not_reserved (h : reservedFieldSet fmt f = false) : keep fmt f = f := by
  obtain ⟨op, c, mode, tt, dsth, dstv, aovr, low⟩ := f
  simp only [reservedFieldSet, Bool.or_eq_false_iff, Bool.and_eq_false_iff, Bool.not_eq_false', bne_eq_false_iff_eq]
    at h
  obtain ⟨⟨⟨⟨⟨hlow, hc⟩, hmode⟩, htt⟩, haovr⟩, -⟩ := h
  rw [keep, CmdFields.mk.injEq]
  exact ⟨rfl, ite_eq_of_or hc, ite_eq_of_or hmode, ite_eq_of_or (htt.imp_right fun ⟨⟨hz, _⟩, _⟩ => hz),
    ite_eq_of_or (htt.imp_right fun ⟨⟨_, hz⟩, _⟩ => hz), ite_eq_of_or (htt.imp_right fun ⟨_, hz⟩ => hz),
    ite_eq_of_or haovr, hlow.symm⟩

/-- What the decoder accepts. -/
theorem decodeWord_eq_ok_iff : decodeWord w = .ok i ↔ splitWord w = i.fields ∧ i.wellFormed = true := by
  constructor
  · intro h
    unfold decodeWord at h
    split at h
    · cases h
    next fmt j hmap =>
      split at h
      · cases h
      next hfree =>
        cases h
        have hfields : splitWord w = i.fields := by
          rw [fields_of_opcodeMap hmap, keep_of_not_reserved (Bool.eq_false_of_not_eq_true hfree)]
        rw [hfields, opcodeMap_fields] at hmap
        cases hmap
        rw [hfields, reservedFieldSet_fields] at hfree
        exact ⟨hfields, by simpa using hfree⟩
  · rintro ⟨hfields, hwf⟩
    simp [decodeWord, hfields, hwf]

/-- Settles O1: splitting the command's word gives its fields back. -/
theorem decodeOfEncodeIsIdentity : Obligations.DecodeOfEncodeIsIdentity :=
  fun i hwf => decodeWord_eq_ok_iff.mpr ⟨splitWord_encode i, hwf⟩

/-- Settles O2: a word is the joining of its fields. -/
theorem encodeOfDecodeIsIdentity : Obligations.EncodeOfDecodeIsIdentity := by
  intro w i h
  obtain ⟨hfields, hwf⟩ := decodeWord_eq_ok_iff.mp h
  exact ⟨((eq_joinWord_iff w i.fields).mpr hfields).symm, hwf⟩

/-- Settles O4, by evaluating the decoder on the fixed words. -/
theorem sampleWordsDecode : Obligations.SampleWordsDecode := by
  unfold Obligations.SampleWordsDecode
  decide

/-! ### The checks on the bits of the word -/

theorem ofNat_mod (n x : Nat) : BitVec.ofNat n x = BitVec.ofNat n (x % 2 ^ n) := by
  apply BitVec.eq_of_toNat_eq
  rw [BitVec.toNat_ofNat, BitVec.toNat_ofNat, Nat.mod_mod]

/-- A field of `n` bits read as a number. -/
theorem ofNat_mod_eq_iff {n x k : Nat} (hk : k < 2 ^ n) :
    BitVec.ofNat n (x % 2 ^ n) = BitVec.ofNat n k ↔ x % 2 ^ n = k := by
  rw [← BitVec.toNat_inj, BitVec.toNat_ofNat, BitVec.toNat_ofNat, Nat.mod_mod, Nat.mod_eq_of_lt hk]

theorem splitWord_eq (w : Word) :
    splitWord w
      = { op := BitVec.ofNat 6 (opOf w), c := BitVec.ofNat 2 (cOf w), mode := BitVec.ofNat 6 (modeOf w)
          tt := BitVec.ofNat 2 (ttOf w), dsth := decide (2 ≤ dstOf w), dstv := decide (dstOf w % 2 = 1)
          aovr := decide (aovrOf w = 1), low := BitVec.ofNat 13 w.toNat } := by
  simp only [splitWord, extractLsb'_eq_ofNat, getLsbD_eq_decide, CmdFields.mk.injEq, decide_eq_decide]
  refine ⟨rfl, ?_, ?_, ?_, ?_, ?_, Iff.rfl, by simp⟩
  · exact ofNat_mod 2 _
  · exact ofNat_mod 6 _
  · exact ofNat_mod 2 _
  · unfold dstOf; omega
  · unfold dstOf; omega

/-- The command and the format the decoder reads are those of the word's bits. -/
theorem opcodeMap_splitWord (w : Word) : opcodeMap (splitWord w) = (commandOf w).map fun i => (format i, i) := by
  have hop : opOf w % 64 = opOf w := Nat.mod_eq_of_lt (by unfold opOf; omega)
  simp only [splitWord_eq, opcodeMap, commandOf, BitVec.toNat_ofNat, hop]
  match opOf w with
  | 0 | 1 | 2 | 3 | 4 | 5 | 6 | 7 | 8 | 9 | 10 | 11 => rfl
  | _ + 12 => rfl

theorem commandOf_eq_none_iff : commandOf w = none ↔ 0x0B < opOf w := by
  simp only [commandOf, List.getElem?_eq_none_iff, List.length_cons, List.length_nil]
  omega

/-- The fields a command's format uses, by the opcode (R111, R112). -/
theorem format_uses (h : commandOf w = some i) :
    (format i).usesC = decide (opOf w ∈ [2, 3, 4, 5, 6, 7, 8, 9])
      ∧ (format i).usesMode = decide (opOf w ∈ [3, 5, 8, 11])
      ∧ (format i).usesTt = decide (opOf w ∈ [5, 8]) ∧ (format i).usesAovr = decide (opOf w = 2) := by
  unfold commandOf at h
  match opOf w, h with
  | 0, h | 1, h | 2, h | 3, h | 4, h | 5, h | 6, h | 7, h | 8, h | 9, h | 10, h | 11, h =>
    cases h
    exact ⟨rfl, rfl, rfl, rfl⟩
  | _ + 12, h => cases h

/-- The field checks are those on the word's bits. -/
theorem reservedFieldSet_splitWord (h : commandOf w = some i) :
    reservedFieldSet (format i) (splitWord w) = reservedBad w := by
  obtain ⟨hc, hmode, htt, haovr⟩ := format_uses h
  have hc0 : BitVec.ofNat 2 (cOf w) = 0#2 ↔ cOf w = 0 := ofNat_mod_eq_iff (by decide)
  have hmode0 : BitVec.ofNat 6 (modeOf w) = 0#6 ↔ modeOf w = 0 := ofNat_mod_eq_iff (by decide)
  have htt0 : BitVec.ofNat 2 (ttOf w) = 0#2 ↔ ttOf w = 0 := ofNat_mod_eq_iff (by decide)
  have htt2 : BitVec.ofNat 2 (ttOf w) = 2#2 ↔ ttOf w = 2 := ofNat_mod_eq_iff (by decide)
  have hlow0 : BitVec.ofNat 13 w.toNat = 0#13 ↔ w.toNat % 2 ^ 13 = 0 := by
    rw [ofNat_mod]; exact ofNat_mod_eq_iff (by decide)
  have haovr1 : aovrOf w = 1 ↔ aovrOf w ≠ 0 := by unfold aovrOf; omega
  have hdst0 : dstOf w ≠ 0 ↔ 2 ≤ dstOf w ∨ dstOf w % 2 = 1 := by omega
  rw [Bool.eq_iff_iff]
  simp only [reservedFieldSet, hc, hmode, htt, haovr, reservedBad, splitWord_eq, ctFieldsOk, hc0, hmode0, htt0,
    htt2, hlow0, haovr1, hdst0, bne_iff_ne, Bool.or_eq_true, Bool.and_eq_true, Bool.not_eq_true',
    Bool.and_eq_false_iff, Bool.or_eq_false_iff, beq_eq_false_iff_ne, Bool.not_eq_false', decide_eq_true_eq,
    decide_eq_false_iff_not, ne_eq, or_assoc, and_or_left]

theorem decodeWord_of_commandOf_eq_none (h : commandOf w = none) : decodeWord w = .error .illegalOpcode := by
  rw [decodeWord, opcodeMap_splitWord, h]
  rfl

theorem decodeWord_of_commandOf_eq_some (h : commandOf w = some i) :
    decodeWord w = if reservedBad w then .error .reservedField else .ok i := by
  rw [decodeWord, opcodeMap_splitWord, h, ← reservedFieldSet_splitWord h]
  rfl

/-- Settles O3: the word's opcode has a command or is above 0x0B, and a command's field checks are those on the bits. -/
theorem decodeChecksFollowFormats : Obligations.DecodeChecksFollowFormats := by
  intro w
  cases h : commandOf w with
  | none =>
    have hop : 0x0B < opOf w := commandOf_eq_none_iff.mp h
    exact ⟨fun _ => decodeWord_of_commandOf_eq_none h, fun hle => by omega, fun hle => by omega⟩
  | some i =>
    have hop : ¬ 0x0B < opOf w := fun hlt => by simp [commandOf_eq_none_iff.mpr hlt] at h
    rw [decodeWord_of_commandOf_eq_some h]
    exact ⟨fun hlt => absurd hlt hop, fun _ hbad => if_pos hbad, fun _ hfree => ⟨i, rfl, by rw [hfree]; rfl⟩⟩

/-! ### The opcode table -/

/-- The top six bits of a row's match, which its mask fixes. -/
def rowOp (row : Word × Word) : BitVec 6 := row.2.extractLsb' 26 6

/-- A word that matches a row has its opcode. -/
theorem opcode_of_row_matches {row : Word × Word} (hrow : row ∈ opcodeRows) (h : w &&& row.1 = row.2) :
    w.extractLsb' 26 6 = rowOp row := by
  have hmask : ∀ row ∈ opcodeRows, row.1.extractLsb' 26 6 = BitVec.allOnes 6 := by
    simp [opcodeRows, BitVec.allOnes]
  rw [rowOp, ← h, BitVec.extractLsb'_and, hmask row hrow, BitVec.and_allOnes]

/-- No two rows have one opcode. -/
theorem rowOp_nodup : (opcodeRows.map rowOp).Nodup := by decide

theorem tableRow_mem (i : Instr) : (TableRow.mask i, TableRow.pattern i) ∈ opcodeRows := by
  cases i <;> simp [TableRow.mask, TableRow.pattern, opcodeRows]

/-- Every command's word matches its row. -/
theorem encode_and_mask (i : Instr) : encode i &&& TableRow.mask i = TableRow.pattern i :=
  match i with
  | .nop => TableRow.nop
  | .frameInit => TableRow.frameInit
  | .refbuild c aovr => TableRow.refbuild c aovr
  | .pred c mode => TableRow.pred c mode
  | .resid c => TableRow.resid c
  | .fdct c mode tt dsth dstv => TableRow.fdct c mode tt dsth dstv
  | .quant c => TableRow.quant c
  | .dequant c => TableRow.dequant c
  | .idct c mode tt dsth dstv => TableRow.idct c mode tt dsth dstv
  | .recon c => TableRow.recon c
  | .mpm => TableRow.mpm
  | .histUpdate mode => TableRow.histUpdate mode

/-- The rows a command's word matches: its own row, since another row has another opcode. -/
theorem encode_matches_iff {row : Word × Word} (hrow : row ∈ opcodeRows) :
    encode i &&& row.1 = row.2 ↔ row = (TableRow.mask i, TableRow.pattern i) := by
  constructor
  · intro h
    exact List.inj_on_of_nodup_map rowOp_nodup hrow (tableRow_mem i)
      ((opcode_of_row_matches hrow h).symm.trans (opcode_of_row_matches (tableRow_mem i) (encode_and_mask i)))
  · rintro rfl
    exact encode_and_mask i

/-- Settles O5: the word is its command's, and no two rows are equal. -/
theorem legalWordMatchesOneRow : Obligations.LegalWordMatchesOneRow := by
  intro w i h
  obtain ⟨rfl, -⟩ := encodeOfDecodeIsIdentity w i h
  calc (opcodeRows.filter fun row => encode i &&& row.1 == row.2).length
      = opcodeRows.count (TableRow.mask i, TableRow.pattern i) := by
        rw [← List.countP_eq_length_filter, List.count]
        exact List.countP_congr fun row hrow => by
          rw [beq_iff_eq, beq_iff_eq, encode_matches_iff hrow]
    _ = 1 := List.count_eq_one_of_mem (List.Nodup.of_map _ rowOp_nodup) (tableRow_mem i)

end Sys2Proof.Machine.EncodingProofs
end

section
/-! PROOFS. The transform engine (40_transform.md): its checks and pass types, the two transforms as the sums of R146 and
R148, the written-out matrices, and the bounds of R151 from the absolute row sums of the matrices. -/

namespace Sys2Proof.Machine.TransformProofs

open ArithLaws ElementLaws CommandLaws RuleLaws PredictorProofs Claims

/-! ### Commands whose only write is one block -/

/-- The rule of a command that computes from what the rule reads and writes one block of storable values, and no result
register. -/
theorem rule_of_putBlock {i : Instr} {s : State} {a : Arr} {n : Nat} {f : Nat → Nat → Int}
    (hcheck : s.check i = firstFailing (checks s i)) (hreads : readsOf s i = reads s i)
    (hwrites : writesOf s i = blockSpans a n) (hn : s.check i = none → n ≤ 32)
    (heffect : s.check i = none → effect i s = s.putBlock a (Block.tabulate n n f))
    (hstored : ∀ y < n, ∀ x < n, stored a.kind (f y x) = f y x) :
    Rule i s fun t => WroteBlock s t a n s.res f := by
  refine commandRule_of hcheck (fun _ => by rw [hreads]) fun hc _ => ?_
  have hres : s.putBlock a (Block.tabulate n n f) = { s.putBlock a (Block.tabulate n n f) with res := s.res } := by
    rw [putBlock_state]
  rw [heffect hc, hwrites, hres]
  exact wroteBlock_of_putBlock s.res (hn hc) hstored

/-! ### The checks of `FDCT` and `IDCT` -/

variable {s : State} {c : BitVec 2} {mode : BitVec 6} {tt : BitVec 2} {dsth dstv : Bool}

theorem ctFieldsOk_eq (mode : BitVec 6) (tt : BitVec 2) (dsth dstv : Bool) :
    ctFieldsOk mode tt dsth dstv = !ctBad mode tt dsth dstv := by
  revert mode tt dsth dstv
  decide +kernel

theorem beq_eq_decide_toNat {w : Nat} (v u : BitVec w) : (v == u) = decide (v.toNat = u.toNat) := by
  rw [beq_eq_decide]
  exact decide_eq_decide.mpr BitVec.toNat_eq

theorem badTransformType_eq (s : State) (c tt : BitVec 2) (dsth dstv : Bool) :
    s.badTransformType c tt dsth dstv = typeBad s c tt dsth dstv := by
  unfold State.badTransformType typeBad
  simp only [beq_eq_decide_toNat, Bool.decide_or, Bool.decide_and, Bool.decide_eq_true, Bool.and_assoc]
  rfl

/-- `CHECK` of a `FDCT` is the "Errors" line of its rule (R147). -/
theorem check_fdct (s : State) (c : BitVec 2) (mode : BitVec 6) (tt : BitVec 2) (dsth dstv : Bool) :
    s.check (.fdct c mode tt dsth dstv) = firstFailing (transformChecks s c mode tt dsth dstv) := by
  have htt : (tt == 0#2) = decide (tt.toNat = 0) := beq_eq_decide_toNat tt 0#2
  simp only [State.check, transformChecks, Instr.wellFormed, Instr.checkedComp, Instr.checksSize, Instr.checksPicture,
    Instr.checksPosition, Instr.modeIllegal, State.ttIllegal, State.qpIllegal, State.sliceIllegal, Option.any_some,
    ctFieldsOk_eq, badComponent_eq, badIntraMode_eq, sizeBad_eq, badTransformType_eq, htt]
  cases ctBad mode tt dsth dstv <;> cases componentBad s c <;> cases s.sizeLegal
    <;> cases decide (tt.toNat = 0) && intraModeBad c mode <;> cases typeBad s c tt dsth dstv <;> rfl

/-- `IDCT` makes the checks of `FDCT` (R149). -/
theorem check_idct (s : State) (c : BitVec 2) (mode : BitVec 6) (tt : BitVec 2) (dsth dstv : Bool) :
    s.check (.idct c mode tt dsth dstv) = s.check (.fdct c mode tt dsth dstv) := rfl

/-- A transform that passes its checks has at least 4 points: chroma is legal only from `CU_LOG2` = 3 on. -/
theorem fdct_checked (h : s.check (.fdct c mode tt dsth dstv) = none) :
    2 ≤ s.lgOf (compOf c) ∧ s.sizeOf (compOf c) ≤ 32 := by
  obtain ⟨-, hcomp, hsize, -⟩ := check_eq_none.mp h
  obtain ⟨h2, -⟩ := sizeLegal_iff.mp (hsize rfl)
  obtain ⟨-, hchroma⟩ := badComponent_false (s := s) (c := c) hcomp
  refine ⟨?_, (sizeOf_le (hsize rfl) _).2⟩
  cases hk : compOf c with
  | y => exact h2
  | u => have := hchroma (by simp [hk]); simp only [State.lgOf]; omega
  | v => have := hchroma (by simp [hk]); simp only [State.lgOf]; omega

/-! ### The pass types (R145) -/

theorem passTypes_eq (s : State) (k : Comp) (mode : BitVec 6) (tt : BitVec 2) (dsth dstv : Bool) :
    s.passTypes k mode tt dsth dstv
      = ⟨isDst s k s.cfg.dstH mode tt dsth, isDst s k s.cfg.dstV mode tt dstv⟩ := by
  unfold State.passTypes isDst
  split
  · rename_i h0
    have hk : (decide (k = .y) && decide (s.sizeOf k = 4)) = decide (k = .y ∧ s.sizeOf k = 4) :=
      (Bool.decide_and ..).symm
    rw [hk]
    cases decide (k = .y ∧ s.sizeOf k = 4) <;> simp [h0]
  · rename_i h2
    simp [h2]
  · rename_i h0 h2
    simp [show tt.toNat ≠ 0 from h0, show tt.toNat ≠ 2 from h2]

/-! ### The two transforms -/

/-- The two rounding shifts of `FWD` divide by `n / 2` and by `64n` (R146). -/
theorem asr_forward {lg : Nat} (hlg : 2 ≤ lg) (v : Int) :
    asr (v + shl 1 (lg - 2)) (lg - 1) = (v + ((2 ^ lg : Nat) : Int) / 4) / (((2 ^ lg : Nat) : Int) / 2)
      ∧ asr (v + shl 1 (lg + 5)) (lg + 6) = (v + 32 * ((2 ^ lg : Nat) : Int)) / (64 * ((2 ^ lg : Nat) : Int)) := by
  obtain ⟨k, rfl⟩ := Nat.exists_eq_add_of_le' hlg
  have e4 : ((2 ^ (k + 2) : Nat) : Int) / 4 = 2 ^ k := by push_cast; rw [pow_add]; omega
  have e2 : ((2 ^ (k + 2) : Nat) : Int) / 2 = 2 ^ (k + 1) := by push_cast; rw [pow_add, pow_succ]; omega
  refine ⟨?_, ?_⟩
  · rw [e4, e2]
    simp [asr, shl]
  · simp only [asr, shl]
    push_cast
    congr 1 <;> ring

theorem wrap16_eq_wrap (v : Int) : wrap16 v = wrap v := wrap16_eq v

theorem sat16_eq (v : Int) : sat16 v = saturate v := by
  unfold sat16 clip3 saturate
  omega

/-- `FWD` on a block given by its elements. -/
theorem forward_eq {x : Block} {f ah av : Nat → Nat → Int} {lg : Nat} (hlg : 2 ≤ lg)
    (hx : ∀ y < 2 ^ lg, ∀ i < 2 ^ lg, x.get y i = f y i) :
    forward x (2 ^ lg) lg ah av = Block.tabulate (2 ^ lg) (2 ^ lg) (forwardAt (2 ^ lg) ah av f) := by
  have row : ∀ y < 2 ^ lg, ∀ u < 2 ^ lg,
      (forwardPass1 x (2 ^ lg) lg ah).get y u = wrap (rowSum (2 ^ lg) ah f y u) := fun y hy u hu => by
    rw [forwardPass1, tabulate_get hy hu, wrap16_eq_wrap, (asr_forward hlg _).1,
      sumTo_congr fun i hi => by rw [hx y hy i hi], sumTo_eq, rowSum]
  refine tabulate_congr fun v _ u hu => ?_
  rw [wrap16_eq_wrap, (asr_forward hlg _).2, sumTo_congr fun i hi => by rw [row i hi u hu], sumTo_eq]
  rfl

/-- `INV` on a block given by its elements. -/
theorem inverse_eq {coef : Block} {f ah av : Nat → Nat → Int} {n : Nat}
    (hc : ∀ v < n, ∀ u < n, coef.get v u = f v u) :
    inverse coef n ah av = Block.tabulate n n (inverseAt n ah av f) := by
  have column : ∀ y < n, ∀ u < n, (inversePass1 coef n av).get y u
      = saturate ((∑ v ∈ Finset.range n, av v y * f v u + 64) / 128) := fun y hy u hu => by
    rw [inversePass1, tabulate_get hy hu, sat16_eq, sumTo_congr fun v hv => by rw [hc v hv u hu], sumTo_eq]
    rfl
  refine tabulate_congr fun y hy x _ => ?_
  rw [sat16_eq, sumTo_congr fun u hu => by rw [column y hy u hu], sumTo_eq]
  rfl

theorem wrap_stored (v : Int) : stored .coefficient (wrap v) = wrap v :=
  stored_coefficient (wrap16_eq_wrap v ▸ wrap16_range v)

theorem saturate_stored (v : Int) : stored .coefficient (saturate v) = saturate v :=
  stored_coefficient (sat16_eq v ▸ sat16_range v)

/-- Settles O21: `FDCT` writes the block of `FWD`, whose elements are truncated to 16 bits and so storable. -/
theorem fdctResult : Obligations.FdctResult := by
  intro c mode tt dsth dstv s
  refine rule_of_putBlock (check_fdct s c mode tt dsth dstv) rfl rfl (fun h => (fdct_checked h).2) (fun h => ?_)
    fun _ _ _ _ => wrap_stored _
  simp only [effect, fdctEffect, passTypes_eq]
  exact congrArg _ (forward_eq (fdct_checked h).1 fun _ hy _ hx => block_get hy hx)

/-- Settles O22: `IDCT` writes the block of `INV`, whose elements are saturated to 16 bits and so storable. -/
theorem idctResult : Obligations.IdctResult := by
  intro c mode tt dsth dstv s
  refine rule_of_putBlock ((check_idct s c mode tt dsth dstv).trans (check_fdct s c mode tt dsth dstv)) rfl rfl
    (fun h => (fdct_checked (check_idct s c mode tt dsth dstv ▸ h)).2) (fun _ => ?_) fun _ _ _ _ => saturate_stored _
  simp only [effect, idctEffect, passTypes_eq]
  exact congrArg _ (inverse_eq fun _ hy _ hx => block_get hy hx)

/-! ### The matrices (R141-R143) -/

/-- Settles O35: each matrix entry by entry. -/
theorem basisMatricesMatchTables : Obligations.BasisMatricesMatchTables := by
  refine ⟨?_, ?_, ?_, ?_, ?_⟩
  · decide +kernel
  · decide +kernel
  · decide +kernel
  · decide +kernel
  · decide +kernel

/-- The absolute sums of the matrices' rows: the largest is row 0's of a DCT matrix, `64n`, and 242 of the DST matrix. -/
theorem rowAbsSum_le {dst : Bool} {lg k : Nat} (h2 : 2 ≤ lg) (h5 : lg ≤ 5) (hd : dst = true → lg = 2) (hk : k < 2 ^ lg) :
    ∑ i ∈ Finset.range (2 ^ lg), |passMatrix dst (2 ^ lg) k i|
      ≤ if dst then 242 else 64 * ((2 ^ lg : Nat) : Int) := by
  have h : ∀ dst : Bool, ∀ lg ≤ 5, 2 ≤ lg → (dst = true → lg = 2) → ∀ k < 2 ^ lg,
      sumTo (2 ^ lg) (fun i => |passMatrix dst (2 ^ lg) k i|) ≤ if dst then 242 else 64 * ((2 ^ lg : Nat) : Int) := by
    decide +kernel
  exact sumTo_eq _ _ ▸ h dst lg h5 h2 hd k hk

theorem dctMatrix_row_zero (n i : Nat) : passMatrix false n 0 i = 64 := by
  have h : ((2 * i + 1) * (0 * (32 / n))) = 0 := by rw [Nat.zero_mul, Nat.mul_zero]
  show cosv _ = 64
  rw [h]
  rfl

/-! ### No value of the forward transform wraps (R151) -/

/-- A weighted sum of values of magnitude at most `b`, by the absolute sum `w` of its weights. -/
theorem abs_weightedSum_le {n : Nat} {m f : Nat → Int} {w b : Int} (hb : 0 ≤ b)
    (hm : ∑ i ∈ Finset.range n, |m i| ≤ w) (hf : ∀ i < n, |f i| ≤ b) :
    |∑ i ∈ Finset.range n, m i * f i| ≤ w * b := calc
  |∑ i ∈ Finset.range n, m i * f i| ≤ ∑ i ∈ Finset.range n, |m i * f i| := Finset.abs_sum_le_sum_abs _ _
  _ ≤ ∑ i ∈ Finset.range n, |m i| * b := Finset.sum_le_sum fun i hi => by
    rw [abs_mul]
    exact mul_le_mul_of_nonneg_left (hf i (Finset.mem_range.mp hi)) (abs_nonneg _)
  _ = (∑ i ∈ Finset.range n, |m i|) * b := (Finset.sum_mul _ _ _).symm
  _ ≤ w * b := mul_le_mul_of_nonneg_right hm hb

/-- Division by `d` with a rounding term below `d` keeps a magnitude of at most `b * d` to at most `b`. -/
theorem abs_rounded_le {v b d h : Int} (h0 : 0 ≤ h) (hd : h < d) (hv : |v| ≤ b * d) : |(v + h) / d| ≤ b := by
  obtain ⟨hlo, hhi⟩ := abs_le.mp hv
  have hd0 : 0 < d := by omega
  exact abs_le.mpr ⟨Int.le_ediv_of_mul_le hd0 (by linarith),
    Int.lt_add_one_iff.mp (Int.ediv_lt_of_lt_mul hd0 (by linarith))⟩

/-- A horizontal pass on values of magnitude at most `b`, with a matrix whose row has the absolute sum `w`. -/
theorem abs_rowSum_le {n y u : Nat} {m x : Nat → Nat → Int} {w b r : Int} (hn : 4 ≤ n) (hb : 0 ≤ b)
    (hm : ∑ i ∈ Finset.range n, |m u i| ≤ w) (hx : ∀ i < n, |x y i| ≤ b) (hw : w * b ≤ r * ((n : Int) / 2)) :
    |rowSum n m x y u| ≤ r :=
  abs_rounded_le (by omega) (by omega) ((abs_weightedSum_le hb hm hx).trans hw)

/-- The same of a vertical pass. -/
theorem abs_columnSum_le {n v u : Nat} {m e : Nat → Nat → Int} {w b r : Int} (hn : 4 ≤ n) (hb : 0 ≤ b)
    (hm : ∑ i ∈ Finset.range n, |m v i| ≤ w) (he : ∀ i < n, |e i u| ≤ b) (hw : w * b ≤ r * (64 * (n : Int))) :
    |columnSum n m e v u| ≤ r :=
  abs_rounded_le (by omega) (by omega) ((abs_weightedSum_le hb hm he).trans hw)

section Bounds

variable {lg : Nat} {dst dstH dstV : Bool} {x e : Nat → Nat → Int} {y v u : Nat}

theorem four_le_size (h2 : 2 ≤ lg) : 4 ≤ 2 ^ lg := Nat.pow_le_pow_right (n := 2) (by omega) h2

/-- Pass 1 on residuals. -/
theorem abs_rowSum_residual_le (h2 : 2 ≤ lg) (h5 : lg ≤ 5) (hd : dst = true → lg = 2)
    (hx : ∀ i < 2 ^ lg, |x y i| ≤ 255) (hu : u < 2 ^ lg) :
    |rowSum (2 ^ lg) (passMatrix dst (2 ^ lg)) x y u| ≤ if dst then 30855 else 32640 := by
  refine abs_rowSum_le (four_le_size h2) (by omega) (rowAbsSum_le h2 h5 hd hu) hx ?_
  cases dst with
  | true => simp [hd rfl]
  | false => interval_cases lg <;> decide

/-- Pass 2 on the values of pass 1. -/
theorem abs_columnSum_residual_le (h2 : 2 ≤ lg) (h5 : lg ≤ 5) (hd : dstV = true → lg = 2)
    (he : ∀ i < 2 ^ lg, |e i u| ≤ if dstH then 30855 else 32640) (hv : v < 2 ^ lg) :
    |columnSum (2 ^ lg) (passMatrix dstV (2 ^ lg)) e v u| ≤ if dstH ∧ dstV then 29168 else 32640 := by
  refine abs_columnSum_le (four_le_size h2) (by split <;> omega) (rowAbsSum_le h2 h5 hd hv) he ?_
  cases dstV with
  | true => cases dstH <;> simp [hd rfl]
  | false =>
    have h0 : (0 : Int) ≤ ((2 ^ lg : Nat) : Int) := Int.natCast_nonneg _
    cases dstH <;> simp only [reduceIte, and_false, Bool.false_eq_true] <;> omega

end Bounds

theorem wrap_of_abs_le {v : Int} (h : |v| ≤ 32640) : wrap v = v :=
  wrap16_eq_wrap v ▸ wrap16_of_range (by rw [abs_le] at h; omega)

/-- Where no value of pass 1 or 2 exceeds 32640, `FWD` is its untruncated sums. -/
theorem forwardAt_eq_columnSum {n v u : Nat} {ah av x : Nat → Nat → Int} (hrow : ∀ y < n, |rowSum n ah x y u| ≤ 32640)
    (hcol : |columnSum n av (rowSum n ah x) v u| ≤ 32640) :
    forwardAt n ah av x v u = columnSum n av (rowSum n ah x) v u := by
  have h : columnSum n av (fun y u => wrap (rowSum n ah x y u)) v u = columnSum n av (rowSum n ah x) v u := by
    have hsum : ∀ i ∈ Finset.range n, av v i * wrap (rowSum n ah x i u) = av v i * rowSum n ah x i u :=
      fun i hi => by rw [wrap_of_abs_le (hrow i (Finset.mem_range.mp hi))]
    rw [columnSum, columnSum, Finset.sum_congr rfl hsum]
  rw [forwardAt, h, wrap_of_abs_le hcol]

/-- The DC coefficient of a constant block at `n` = 32. -/
theorem forwardAt_const {a : Int} (ha : |a| ≤ 255) :
    forwardAt 32 (passMatrix false 32) (passMatrix false 32) (fun _ _ => a) 0 0 = 128 * a := by
  have hrow : ∀ y, rowSum 32 (passMatrix false 32) (fun _ _ => a) y 0 = 128 * a := fun y => by
    simp only [rowSum, dctMatrix_row_zero, Finset.sum_const, Finset.card_range, nsmul_eq_mul, Nat.cast_ofNat]
    omega
  have hcol : columnSum 32 (passMatrix false 32) (rowSum 32 (passMatrix false 32) fun _ _ => a) 0 0 = 128 * a := by
    simp only [columnSum, hrow, dctMatrix_row_zero, Finset.sum_const, Finset.card_range, nsmul_eq_mul, Nat.cast_ofNat]
    omega
  have hbound : |128 * a| ≤ 32640 := by rw [abs_le] at ha ⊢; omega
  rw [forwardAt_eq_columnSum (fun y _ => (hrow y).symm ▸ hbound) (hcol.symm ▸ hbound), hcol]

/-- Settles O36: each pass is bounded by the absolute row sums of its matrix, and the constant blocks reach the bound. -/
theorem forwardNeverWrapsOnResiduals : Obligations.ForwardNeverWrapsOnResiduals := by
  refine ⟨fun lg dstH dstV x h2 h5 hd hx v hv u hu => ?_, forwardAt_const (by decide), forwardAt_const (by decide)⟩
  have hrow : ∀ y < 2 ^ lg, |rowSum (2 ^ lg) (passMatrix dstH (2 ^ lg)) x y u| ≤ if dstH then 30855 else 32640 :=
    fun y hy => abs_rowSum_residual_le h2 h5 (fun h => hd (.inl h)) (fun i hi => abs_le.mpr (hx y hy i hi)) hu
  have hcol := abs_columnSum_residual_le h2 h5 (fun h => hd (.inr h)) hrow hv
  refine ⟨hrow v hv, hcol, forwardAt_eq_columnSum (fun y hy => (hrow y hy).trans ?_) (hcol.trans ?_)⟩
  · split <;> omega
  · split <;> omega

end Sys2Proof.Machine.TransformProofs
end

section
/-! PROOFS. The quantizer (41_quant.md): the checks of `QUANT` and `DEQUANT`, the levels and the scaled levels as the rules'
arithmetic, and the bounds of R180, by which the saturation of R173 changes nothing. -/

namespace Sys2Proof.Machine.QuantizerProofs

open ArithLaws ElementLaws CommandLaws RuleLaws PredictorProofs InvariantProofs TransformProofs Claims

variable {s : State} {c : BitVec 2}

/-! ### The component's QP, and the checks -/

theorem qpOf_eq (s : State) (k : Comp) : s.qpOf k = qpFor s k := by
  cases k <;> rfl

theorem compOf_eq_y_iff (c : BitVec 2) : compOf c = .y ↔ c.toNat = 0 := by
  revert c
  decide

theorem badQp_eq (s : State) (c : BitVec 2) : s.badQp c = qpBad s c := by
  simp only [State.badQp, qpBad, qpOf_eq, qpFor, compOf_eq_y_iff]

theorem sliceBad_eq (s : State) : (s.cfg.slice == 3#2) = sliceBad s := beq_eq_decide_toNat _ _

/-- `CHECK` of a `QUANT` is the "Errors" line of its rule (R174, R177). -/
theorem check_quant (s : State) (c : BitVec 2) : s.check (.quant c) = firstFailing (checks s (.quant c)) := by
  simp only [State.check, checks, Instr.wellFormed, Instr.checkedComp, Instr.checksSize, Instr.checksPicture,
    Instr.checksPosition, Instr.modeIllegal, State.ttIllegal, State.qpIllegal, State.sliceIllegal, Option.any_some,
    badComponent_eq, sizeBad_eq, badQp_eq, sliceBad_eq]
  cases componentBad s c <;> cases s.sizeLegal <;> cases qpBad s c <;> cases sliceBad s <;> rfl

/-- `CHECK` of a `DEQUANT` is the "Errors" line of its rule (R177, R178). -/
theorem check_dequant (s : State) (c : BitVec 2) : s.check (.dequant c) = firstFailing (checks s (.dequant c)) := by
  simp only [State.check, checks, Instr.wellFormed, Instr.checkedComp, Instr.checksSize, Instr.checksPicture,
    Instr.checksPosition, Instr.modeIllegal, State.ttIllegal, State.qpIllegal, State.sliceIllegal, Option.any_some,
    badComponent_eq, sizeBad_eq, badQp_eq]
  cases componentBad s c <;> cases s.sizeLegal <;> cases qpBad s c <;> rfl

theorem quant_checked (h : s.check (.quant c) = none) : c ≠ 3#2 ∧ s.sizeLegal = true := by
  obtain ⟨-, hcomp, hsize, -⟩ := check_eq_none.mp h
  exact ⟨(badComponent_false (s := s) hcomp).1, hsize rfl⟩

theorem dequant_checked (h : s.check (.dequant c) = none) : s.sizeLegal = true := by
  obtain ⟨-, -, hsize, -⟩ := check_eq_none.mp h
  exact hsize rfl

/-! ### Levels (R173) -/

/-- The level of the model is the rule's, a natural number. -/
theorem quantLevel_eq_levelOf (v : Int) (slice : BitVec 2) (qp lg : Nat) :
    quantLevel v slice qp lg = levelOf v slice.toNat qp lg := by
  have hscale : ∀ i < 6, quantScale.getD i 0 = (([26214, 23302, 20560, 18396, 16384, 14564].getD i 0 : Nat) : Int) := by
    decide
  have hslice : slice = 2#2 ↔ slice.toNat = 2 := BitVec.toNat_eq
  simp only [quantLevel, quantAdd, quantBits, levelOf, asr, shl, hslice, hscale _ (Nat.mod_lt qp (by norm_num))]
  push_cast
  rfl

/-- The rounding of a level is less than one level. -/
theorem quantAdd_range (slice : BitVec 2) (qp lg : Nat) :
    0 ≤ quantAdd slice qp lg ∧ quantAdd slice qp lg < 2 ^ quantBits qp lg := by
  obtain ⟨k, hk⟩ : ∃ k, quantBits qp lg = k + 9 := ⟨quantBits qp lg - 9, by unfold quantBits; omega⟩
  have hpow : (0 : Int) < 2 ^ k := by positivity
  rw [quantAdd, shl, hk, Nat.add_sub_cancel, pow_add]
  split <;> omega

/-- A zero coefficient is rounded to level 0. -/
theorem quantLevel_zero (slice : BitVec 2) (qp lg : Nat) : quantLevel 0 slice qp lg = 0 := by
  obtain ⟨h0, hlt⟩ := quantAdd_range slice qp lg
  rw [quantLevel, Int.natAbs_zero, Nat.cast_zero, zero_mul, zero_add]
  exact Int.ediv_eq_zero_of_lt h0 hlt

/-- A level with its coefficient's sign (R173). -/
def signedLevel (v : Int) (slice : BitVec 2) (qp lg : Nat) : Int :=
  if v < 0 then -quantLevel v slice qp lg else quantLevel v slice qp lg

theorem signedLevel_zero (slice : BitVec 2) (qp lg : Nat) : signedLevel 0 slice qp lg = 0 :=
  (if_neg (lt_irrefl 0)).trans (quantLevel_zero slice qp lg)

theorem signedLevel_range {v : Int} {lg : Nat} (slice : BitVec 2) (qp : Nat) (hlg : lg ≤ 5)
    (hv : -32768 ≤ v ∧ v ≤ 32767) : -32768 ≤ signedLevel v slice qp lg ∧ signedLevel v slice qp lg ≤ 32767 := by
  obtain ⟨h0, hmax⟩ := quantLevel_range slice qp hlg hv
  unfold signedLevel
  split <;> omega

/-- `QUANTIZE` of a block of 16-bit coefficients is its signed levels: no saturation (R180). -/
theorem quantize_eq {y : Block} {n lg : Nat} (slice : BitVec 2) (qp : Nat) (hlg : lg ≤ 5)
    (hy : ∀ v < n, ∀ u < n, -32768 ≤ y.get v u ∧ y.get v u ≤ 32767) :
    quantize y n slice qp lg = Block.tabulate n n fun v u => signedLevel (y.get v u) slice qp lg :=
  tabulate_congr fun v hv u hu => sat16_of_range (signedLevel_range slice qp hlg (hy v hv u hu))

/-! ### Scaled levels (R176) -/

/-- The scaled level of the model is the rule's: the inner saturation does not change a 16-bit level. -/
theorem dequantLevel_eq_scaledAt {q : Int} {lg : Nat} (qp : Nat) (hlg : lg ≤ 5) (hq : -32768 ≤ q ∧ q ≤ 32767) :
    dequantLevel q qp lg = scaledAt q qp lg := by
  have hshift : dequantShift lg = lg - 1 := by unfold dequantShift; omega
  rw [dequantLevel, sat16_of_range hq, sat16_eq, hshift, Nat.sub_sub, scaledAt]
  simp only [asr, shl, invQuantScale, mul_assoc, one_mul]

/-- A zero level is rounded to 0, from 4 points on. -/
theorem scaledAt_zero {lg : Nat} (qp : Nat) (hlg : 2 ≤ lg) : scaledAt 0 qp lg = 0 := by
  have hlt : (2 : Int) ^ (lg - 2) < 2 ^ (lg - 1) := pow_lt_pow_right₀ (by norm_num) (by omega)
  rw [scaledAt, zero_mul, zero_mul, zero_add, Int.ediv_eq_zero_of_lt (by positivity) hlt]
  rfl

theorem dequantLevel_zero {lg : Nat} (qp : Nat) (h2 : 2 ≤ lg) (h5 : lg ≤ 5) : dequantLevel 0 qp lg = 0 :=
  (dequantLevel_eq_scaledAt qp h5 (by norm_num)).trans (scaledAt_zero qp h2)

/-! ### The bounds (R180) -/

theorem quantSum_of_zero {y : Block} {n : Nat} (slice : BitVec 2) (qp lg : Nat)
    (hy : ∀ v < n, ∀ u < n, y.get v u = 0) : quantSum y n slice qp lg = 0 := by
  have h : quantSum y n slice qp lg = sumTo n fun _ => sumTo n fun _ => 0 :=
    sumTo_congr fun v hv => sumTo_congr fun u hu => by rw [hy v hv u hu, quantLevel_zero]
  simp [h, sumTo_eq]

theorem size_le {lg : Nat} (h5 : lg ≤ 5) : 2 ^ lg ≤ 32 := Nat.pow_le_pow_right (n := 2) (by omega) h5

/-- Settles O34: the levels and their sum by the range of a level, and a zero is rounded to 0 both ways. -/
theorem quantizerBounds : Obligations.QuantizerBounds := by
  refine ⟨fun y slice qp lg _ h5 _ hy => ⟨fun v hv u hu => ?_, quantSum_range slice qp (size_le h5) h5 hy⟩,
    fun y slice qp lg h2 h5 _ hy => ⟨quantSum_of_zero slice qp lg hy, fun v hv u hu => ⟨?_, ?_⟩⟩⟩
  · obtain ⟨h0, hmax⟩ := quantLevel_range slice qp h5 (hy v hv u hu)
    refine ⟨h0, hmax, ?_⟩
    rw [quantize_eq slice qp h5 hy, tabulate_get hv hu, signedLevel]
  · rw [quantize_eq slice qp h5 fun v hv u hu => by rw [hy v hv u hu]; norm_num, tabulate_get hv hu, hy v hv u hu,
      signedLevel_zero]
  · rw [dequantize, tabulate_get hv hu, hy v hv u hu, dequantLevel_zero qp h2 h5]

/-! ### `QUANT` -/

/-- The signed level of coefficient `[v][u]` of a component, from the rule's level. -/
def signedLevelAt (s : State) (k : Comp) (v u : Nat) : Int :=
  if s.val (.buf .coef k) (at2 v u) < 0 then -(levelAt s k v u : Int) else (levelAt s k v u : Int)

/-- A coefficient's level as the model computes it is the rule's. -/
theorem quantLevel_val (s : State) (k : Comp) (v u : Nat) :
    quantLevel (s.val (.buf .coef k) (at2 v u)) s.cfg.slice (s.qpOf k) (s.lgOf k) = levelAt s k v u := by
  rw [quantLevel_eq_levelOf, qpOf_eq]
  rfl

theorem signedLevel_val (s : State) (k : Comp) (v u : Nat) :
    signedLevel (s.val (.buf .coef k) (at2 v u)) s.cfg.slice (s.qpOf k) (s.lgOf k) = signedLevelAt s k v u := by
  rw [signedLevel, quantLevel_val, signedLevelAt]

theorem signedLevelAt_range (hs : s.sizeLegal = true) (k : Comp) (v u : Nat) :
    -32768 ≤ signedLevelAt s k v u ∧ signedLevelAt s k v u ≤ 32767 :=
  signedLevel_val s k v u ▸ signedLevel_range s.cfg.slice (s.qpOf k) (lgOf_le hs k).2 (val_coefficient rfl _)

/-- Element `[v][u]` of the block `QUANT` reads. -/
theorem coefBlock_get {k : Comp} {v u : Nat} (hv : v < s.sizeOf k) (hu : u < s.sizeOf k) :
    (s.block (.buf .coef k) (s.sizeOf k)).get v u = s.val (.buf .coef k) (at2 v u) :=
  block_get hv hu

/-- `QUANTIZE` of a component's coefficients. -/
theorem quantize_block (hs : s.sizeLegal = true) (k : Comp) :
    quantize (s.block (.buf .coef k) (s.sizeOf k)) (s.sizeOf k) s.cfg.slice (s.qpOf k) (s.lgOf k)
      = Block.tabulate (s.sizeOf k) (s.sizeOf k) (signedLevelAt s k) := by
  refine (quantize_eq s.cfg.slice (s.qpOf k) (lgOf_le hs k).2 fun v hv u hu => ?_).trans
    (tabulate_congr fun v hv u hu => ?_)
  · rw [coefBlock_get hv hu]
    exact val_coefficient rfl _
  · rw [coefBlock_get hv hu, signedLevel_val]

/-- `sum` of a component's coefficients (R175). -/
theorem quantSum_block (s : State) (k : Comp) :
    quantSum (s.block (.buf .coef k) (s.sizeOf k)) (s.sizeOf k) s.cfg.slice (s.qpOf k) (s.lgOf k) = levelTotal s k := by
  rw [quantSum, sumTo_congr fun v hv => sumTo_congr fun u hu => by rw [coefBlock_get hv hu, quantLevel_val]]
  simp only [sumTo_eq, levelTotal]
  push_cast
  rfl

/-- A legal `C` field names the one bit of `CBF` that is set. -/
theorem setCbf_compOf (hc : c ≠ 3#2) (r : Results) (b : Option Bool) :
    r.setCbf (compOf c) b
      = { r with
          cbfY := if c.toNat = 0 then b else r.cbfY
          cbfU := if c.toNat = 1 then b else r.cbfU
          cbfV := if c.toNat = 2 then b else r.cbfV } := by
  have h : ∀ c : BitVec 2, c ≠ 3#2 → c = 0#2 ∨ c = 1#2 ∨ c = 2#2 := by decide
  rcases h c hc with rfl | rfl | rfl <;> rfl

/-- The result registers after a `QUANT` (R175). -/
def quantResults (s : State) (c : BitVec 2) : Results :=
  let coded := some (decide (levelTotal s (compOf c) ≠ 0))
  { s.res with
    nzsum := some (BitVec.ofNat 32 (levelTotal s (compOf c)))
    cbfY := if c.toNat = 0 then coded else s.res.cbfY
    cbfU := if c.toNat = 1 then coded else s.res.cbfU
    cbfV := if c.toNat = 2 then coded else s.res.cbfV }

/-- The writes of a `QUANT` that passes its checks: the block of signed levels, and the result registers. -/
theorem quantEffect_eq (hc : c ≠ 3#2) (hs : s.sizeLegal = true) :
    quantEffect c s
      = { s.putBlock (.buf .qcoef (compOf c))
            (Block.tabulate (s.sizeOf (compOf c)) (s.sizeOf (compOf c)) (signedLevelAt s (compOf c))) with
          res := quantResults s c } := by
  simp only [quantEffect, quantize_block hs, quantSum_block, BitVec.ofInt_natCast, Nat.cast_ne_zero, setCbf_compOf hc,
    quantResults]

/-- Settles O23: no level is saturated, so the block holds the signed levels, and a legal `C` field names the bit of `CBF`. -/
theorem quantResult : Obligations.QuantResult := by
  intro c s
  refine commandRule_of (check_quant s c) (fun _ => Iff.rfl) fun h _ => ?_
  obtain ⟨hc, hs⟩ := quant_checked h
  rw [effect, quantEffect_eq hc hs]
  exact wroteBlock_of_putBlock (quantResults s c) (sizeOf_le hs (compOf c)).2
    fun v _ u _ => stored_coefficient (signedLevelAt_range hs (compOf c) v u)

/-! ### `DEQUANT` -/

/-- `DEQUANTIZE` of a component's levels. -/
theorem dequantize_block (hs : s.sizeLegal = true) (k : Comp) :
    dequantize (s.block (.buf .qcoef k) (s.sizeOf k)) (s.sizeOf k) (s.qpOf k) (s.lgOf k)
      = Block.tabulate (s.sizeOf k) (s.sizeOf k) fun v u =>
          scaledAt (s.val (.buf .qcoef k) (at2 v u)) (qpFor s k) (s.lgOf k) := by
  refine tabulate_congr fun v hv u hu => ?_
  rw [block_get hv hu, qpOf_eq, dequantLevel_eq_scaledAt (qpFor s k) (lgOf_le hs k).2 (val_coefficient rfl _)]
  rfl

/-- Settles O24: `DEQUANT` writes the block of `DEQUANTIZE`, whose elements are saturated to 16 bits and so storable. -/
theorem dequantResult : Obligations.DequantResult := by
  intro c s
  refine rule_of_putBlock (check_dequant s c) rfl rfl (fun h => (sizeOf_le (dequant_checked h) (compOf c)).2)
    (fun h => ?_) fun _ _ _ _ => saturate_stored _
  simp only [effect, dequantEffect, dequantize_block (dequant_checked h)]

end Sys2Proof.Machine.QuantizerProofs
end

section
/-! PROOFS. The reference-sample builder (42_refbuild.md): its checks, flags and reads are the rule's; the border and the
LM border are R195's substitution element by element, whose values are samples; and the two properties R203 and R204 of
what a `REFBUILD` leaves. -/

namespace Sys2Proof.Machine.RefBuildProofs

open ElementLaws CommandLaws RuleLaws RefBuildLaws PredictorProofs StorageProofs QuantizerProofs Claims

variable {s t : State} {c : BitVec 2} {aovr : Bool} {k : Comp} {len i : Nat} {flag : Nat → Bool} {sample : Nat → Int}

/-! ### Substitution as the rule says it (R195) -/

theorem mem_range_succ_reverse {j : Nat} : j ∈ (List.range (i + 1)).reverse ↔ j ≤ i := by
  rw [List.mem_reverse, List.mem_range, Nat.lt_succ_iff]

theorem substituted_of_available (h : flag i = true) : substituted len flag sample i = sample i := by
  simp [substituted, List.range_succ, h]

/-- An unavailable element that is not the first holds what the element before it holds. -/
theorem substituted_succ_of_not_available (h : flag (i + 1) = false) :
    substituted len flag sample (i + 1) = substituted len flag sample i := by
  have hskip : (List.range (i + 1 + 1)).reverse.find? flag = (List.range (i + 1)).reverse.find? flag := by
    rw [List.range_succ, List.reverse_append, List.reverse_singleton, List.singleton_append,
      List.find?_cons_of_neg (by simp [h])]
  simp only [substituted, hskip]

/-- With nothing available at or below an element, it holds the first available sample above it, or 128. -/
theorem substituted_of_none_below (h : ∀ j ≤ i, flag j = false) :
    substituted len flag sample i = ((List.range len).find? flag).elim 128 sample := by
  have hnone : (List.range (i + 1)).reverse.find? flag = none :=
    List.find?_eq_none.mpr fun j hj => by simp [h j (mem_range_succ_reverse.mp hj)]
  rw [substituted, hnone]
  cases (List.range len).find? flag <;> rfl

theorem substituted_of_none_available (hi : i < len) (h : ∀ j < len, flag j = false) :
    substituted len flag sample i = 128 := by
  have hnone : (List.range len).find? flag = none := List.find?_range_eq_none.mpr fun j hj => by simp [h j hj]
  rw [substituted_of_none_below fun j hj => h j (by omega), hnone, Option.elim_none]

/-- An element below the first available one holds its sample. -/
theorem substituted_of_first_available {f : Nat} (hif : i < f) (hf : f < len) (hflag : flag f = true)
    (h : ∀ j < f, flag j = false) : substituted len flag sample i = sample f := by
  have hfirst : (List.range len).find? flag = some f :=
    List.find?_range_eq_some.mpr ⟨hflag, List.mem_range.mpr hf, fun j hj => by simp [h j hj]⟩
  rw [substituted_of_none_below fun j hj => h j (by omega), hfirst, Option.elim_some]

/-- Substitution holds samples only, the 128 of no available segment included. -/
theorem substituted_range (hs : ∀ j, 0 ≤ sample j ∧ sample j ≤ 255) :
    0 ≤ substituted len flag sample i ∧ substituted len flag sample i ≤ 255 := by
  unfold substituted
  split
  · exact hs _
  · split
    · exact hs _
    · norm_num

/-- A border that holds R195's substitution is padded without a gap (R204). -/
theorem paddedWithoutGap_of_substituted {a : Arr}
    (h : ∀ i < len, t.elem? a i = some (substituted len flag sample i)) : PaddedWithoutGap t a len flag sample := by
  refine ⟨fun i hi => by rw [h i hi]; rfl, fun hnone i hi => ?_, fun i hi hflag => ?_,
    fun i f hif hf hflag hbelow => ?_, fun i j hji hi _ hflag => ?_⟩
  · rw [h i hi, substituted_of_none_available hi hnone]
  · rw [h i hi, substituted_of_available hflag]
  · rw [h i (by omega), h f hf, substituted_of_first_available hif hf hflag hbelow, substituted_of_available hflag]
  · obtain ⟨i, rfl⟩ : ∃ m, i = m + 1 := ⟨i - 1, by omega⟩
    rw [Nat.add_sub_cancel, h _ hi, h i (by omega), substituted_succ_of_not_available hflag]

/-! ### The model's substitution is the rule's -/

/-- A border element before substitution: its segment's flag, and its sample where the segment is available. -/
def copied (flag : Nat → Bool) (sample : Nat → Int) (i : Nat) : Bool × Int :=
  (flag i, if flag i then sample i else 0)

/-- The segments' elements are those of border indices `start`, …, `start + len - 1`. -/
def Assembles (segs : List (Bool × List Int)) (start len : Nat) (flag : Nat → Bool) (sample : Nat → Int) : Prop :=
  flatten segs = (List.range' start len).map (copied flag sample)

theorem assembles_nil (start : Nat) : Assembles [] start 0 flag sample := rfl

/-- One more segment, of `n` elements, before those assembled from `start + n` on. -/
theorem assembles_cons {f : Bool} {vals : List Int} {segs : List (Bool × List Int)} {start n : Nat}
    (hlen : vals.length = n) (hflag : ∀ i < n, flag (start + i) = f)
    (hval : ∀ i < n, vals.getD i 0 = sample (start + i)) (hrest : Assembles segs (start + n) len flag sample) :
    Assembles (segment f vals n :: segs) start (n + len) flag sample := by
  have hvals : vals = (List.range n).map fun i => sample (start + i) := by
    refine List.ext_getElem (by simp [hlen]) fun i hi _ => ?_
    have hv := hval i (hlen ▸ hi)
    rw [List.getD_eq_getElem _ _ hi] at hv
    simpa using hv
  have hseg : segment f vals n = (f, (List.range n).map fun i => if f then sample (start + i) else 0) := by
    cases f with
    | true => exact congrArg _ hvals
    | false => simp [segment]
  have hcopied : (List.range n).map ((fun v => (f, v)) ∘ fun i => if f then sample (start + i) else 0)
      = (List.range n).map (copied flag sample ∘ fun i => start + i) :=
    List.map_congr_left fun i hi => by simp [copied, hflag i (List.mem_range.mp hi)]
  rw [Assembles, hseg, flatten_cons, hrest, ← List.range'_append_1, List.map_append,
    List.range'_eq_map_range (s := start), List.map_map, List.map_map, hcopied]

/-- The model's filled border is R195's, element by element. -/
theorem substitute_eq {segs : List (Bool × List Int)} (h : Assembles segs 0 len flag sample) :
    substitute segs = (List.range len).map (substituted len flag sample) := by
  have hflat : flatten segs = (List.range len).map (copied flag sample) := by
    rw [List.range_eq_range']
    exact h
  have helem : ∀ j < len, (flatten segs).getD j (false, 0) = copied flag sample j := fun j hj => by
    simp [hflat, hj]
  have hfirst : (flatten segs).find? (fun p => p.1) = ((List.range len).find? flag).map (copied flag sample) := by
    rw [hflat, List.find?_map]
    rfl
  refine List.ext_getElem (by simp [substitute, fillSegments_length, hflat]) fun i hi hi' => ?_
  have hilen : i < len := by simpa using hi'
  have hbelow : (List.range (i + 1)).reverse.find? (fun j => ((flatten segs).getD j (false, 0)).1)
      = (List.range (i + 1)).reverse.find? flag :=
    List.find?_congr fun j hj => by rw [helem j ((mem_range_succ_reverse.mp hj).trans_lt hilen), copied]
  rw [← List.getD_eq_getElem _ 0 hi, substitute, fillSegments_eq, fillElems_getD _ _ _ (by simpa [hflat] using hilen),
    nearest, fillSeed_eq, hbelow, hfirst, List.getElem_map, List.getElem_range, substituted]
  cases hj : (List.range (i + 1)).reverse.find? flag with
  | some j =>
    have hji := mem_range_succ_reverse.mp (List.mem_of_find?_eq_some hj)
    simp only [helem j (hji.trans_lt hilen), copied, List.find?_some hj, if_true]
  | none =>
    cases hj : (List.range len).find? flag with
    | some j => simp [copied, List.find?_some hj]
    | none => rfl

/-! ### The flags (R191-R193, R202) -/

theorem effectiveFlags_eq (s : State) (k : Comp) (aovr : Bool) :
    s.effectiveFlags k aovr = ⟨flagLB s aovr, flagL s aovr, flagTL s aovr, flagT s k aovr, flagTR s k aovr⟩ := by
  have hlen : (Arr.topPix k).size = topLength k := by cases k <;> rfl
  simp only [State.effectiveFlags, State.forceFlags, hlen]
  cases aovr <;> rfl

theorem bits_eq_ofNat (lb l tl t tr : Bool) :
    (Avail.mk lb l tl t tr).bits
      = BitVec.ofNat 5 (lb.toNat + 2 * l.toNat + 4 * tl.toNat + 8 * t.toNat + 16 * tr.toNat) := by
  revert lb l tl t tr
  decide

theorem effectiveFlags_bits (s : State) (k : Comp) (aovr : Bool) :
    (s.effectiveFlags k aovr).bits = availWord s k aovr := by
  rw [effectiveFlags_eq, bits_eq_ofNat, availWord]

/-- The bits of `AVAIL` are the flags (R202). -/
theorem availWord_getLsbD (s : State) (k : Comp) (aovr : Bool) :
    (availWord s k aovr).getLsbD 0 = flagLB s aovr ∧ (availWord s k aovr).getLsbD 1 = flagL s aovr
      ∧ (availWord s k aovr).getLsbD 2 = flagTL s aovr ∧ (availWord s k aovr).getLsbD 3 = flagT s k aovr
      ∧ (availWord s k aovr).getLsbD 4 = flagTR s k aovr := by
  unfold availWord
  generalize flagLB s aovr = lb
  generalize flagL s aovr = l
  generalize flagTL s aovr = tl
  generalize flagT s k aovr = t
  generalize flagTR s k aovr = tr
  revert lb l tl t tr
  decide

theorem availWord_segmentBit (s : State) (k : Comp) (aovr : Bool) (i : Nat) :
    (availWord s k aovr).getLsbD (segmentBit (s.sizeOf k) i) = segmentFlag s k aovr i := by
  obtain ⟨hlb, hl, htl, ht, htr⟩ := availWord_getLsbD s k aovr
  simp only [segmentBit, segmentFlag]
  split_ifs <;> assumption

/-- A run of `m` blocks from the CU's own on stays in the top history of every component or of none. -/
theorem fits_topLength_iff (hs : s.sizeLegal = true) (k : Comp) (m : Nat) :
    s.col * s.sizeOf k + m * s.sizeOf k ≤ topLength k ↔ s.col * s.sizeOf .y + m * s.sizeOf .y ≤ topLength .y := by
  obtain ⟨hyu, huv⟩ := sizeOf_y hs
  have hdouble : s.col * s.sizeOf .y + m * s.sizeOf .y = 2 * (s.col * s.sizeOf .u + m * s.sizeOf .u) := by
    rw [hyu]
    ring
  cases k <;> simp only [topLength, ← huv] <;> omega

/-- `AVAIL` does not depend on the component (R203). -/
theorem availWord_eq_luma (hs : s.sizeLegal = true) (k : Comp) (aovr : Bool) :
    availWord s k aovr = availWord s .y aovr := by
  have hT := fits_topLength_iff hs k 1
  have hTR := fits_topLength_iff hs k 2
  simp only [one_mul] at hT
  simp only [availWord, flagT, flagTR, hT, hTR]

/-! ### The borders -/

theorem row_reverse_getD {a : Arr} {start n : Nat} (hi : i < n) :
    (s.row a start n).reverse.getD i 0 = s.val a (start + (n - 1 - i)) := by
  rw [List.getD_eq_getElem?_getD, List.getElem?_reverse (by simpa using hi), row_length, row_getElem? (by omega)]
  rfl

/-- R194's segments are assembled in the order of R190. -/
theorem borderSegments_assembles (s : State) (k : Comp) (aovr : Bool) :
    Assembles (s.borderSegments k (s.effectiveFlags k aovr)) 0 (4 * s.sizeOf k + 1) (segmentFlag s k aovr)
      (historySample s k) := by
  have hlen : 4 * s.sizeOf k + 1 = s.sizeOf k + (s.sizeOf k + (1 + (s.sizeOf k + (s.sizeOf k + 0)))) := by omega
  rw [effectiveFlags_eq, hlen]
  simp only [State.borderSegments, State.x0]
  refine assembles_cons (by simp) (fun i hi => ?_) (fun i hi => ?_)
    (assembles_cons (by simp) (fun i hi => ?_) (fun i hi => ?_)
      (assembles_cons (by simp) (fun i hi => ?_) (fun i hi => ?_)
        (assembles_cons (by simp) (fun i hi => ?_) (fun i hi => ?_)
          (assembles_cons (by simp) (fun i hi => ?_) (fun i hi => ?_) (assembles_nil _)))))
  · rw [segmentFlag, if_pos (by omega)]
  · rw [row_reverse_getD hi, historySample, if_pos (by omega)]
    congr 1; omega
  · rw [segmentFlag, if_neg (by omega), if_pos (by omega)]
  · rw [row_reverse_getD hi, historySample, if_pos (by omega)]
    congr 1; omega
  · rw [segmentFlag, if_neg (by omega), if_neg (by omega), if_pos (by omega)]
  · rw [row_getD hi, historySample, if_neg (by omega), if_pos (by omega)]
    congr 1; omega
  · rw [segmentFlag, if_neg (by omega), if_neg (by omega), if_neg (by omega), if_pos (by omega)]
  · rw [row_getD hi, historySample, if_neg (by omega), if_neg (by omega)]
    congr 1; omega
  · rw [segmentFlag, if_neg (by omega), if_neg (by omega), if_neg (by omega), if_neg (by omega)]
  · rw [row_getD hi, historySample, if_neg (by omega), if_neg (by omega)]
    congr 1; omega

theorem border_eq (s : State) (k : Comp) (aovr : Bool) :
    s.border k (s.effectiveFlags k aovr) = (List.range (4 * s.sizeOf k + 1)).map (borderAt s k aovr) :=
  substitute_eq (borderSegments_assembles s k aovr)

theorem lmBorder_eq (s : State) (k : Comp) (aovr : Bool) :
    s.lmBorder k (s.effectiveFlags k aovr) = (List.range (2 * s.sizeOf k)).map (lmBorderAt s k aovr) := by
  have hlen : 2 * s.sizeOf k = s.sizeOf k + (s.sizeOf k + 0) := by omega
  refine substitute_eq ?_
  rw [effectiveFlags_eq, hlen]
  refine assembles_cons (by simp) (fun i hi => ?_) (fun i hi => ?_)
    (assembles_cons (by simp) (fun i hi => ?_) (fun i hi => ?_) (assembles_nil _))
  · rw [if_pos (by omega)]
  · rw [row_reverse_getD hi, lmHistorySample, if_pos (by omega)]
    congr 1; omega
  · rw [if_neg (by omega)]
  · rw [row_getD hi, lmHistorySample, if_neg (by omega), State.x0]
    congr 1; omega

/-- R196 of a border given by its elements. -/
theorem smooth_eq (r : Nat → Int) (n : Nat) :
    smooth ((List.range (4 * n + 1)).map r) n = (List.range (4 * n + 1)).map (smoothedAt n r) := by
  have hr : ∀ i ≤ 4 * n, ((List.range (4 * n + 1)).map r).getD i 0 = r i := fun i hi => by simp [Nat.lt_succ_of_le hi]
  refine List.map_congr_left fun i hi => ?_
  have hi : i < 4 * n + 1 := List.mem_range.mp hi
  by_cases hend : i = 0 ∨ i = 4 * n
  · rw [smoothedAt, if_pos hend, if_pos (by simpa using hend), hr i (by omega)]
  · rw [smoothedAt, if_neg hend, if_neg (by simpa using hend), hr (i - 1) (by omega), hr i (by omega),
      hr (i + 1) (by omega)]
    rfl

/-! ### Every value written is a sample -/

theorem borderAt_range (s : State) (k : Comp) (aovr : Bool) (i : Nat) :
    0 ≤ borderAt s k aovr i ∧ borderAt s k aovr i ≤ 255 := by
  refine substituted_range fun j => ?_
  simp only [historySample]
  split_ifs <;> exact val_sample rfl _

theorem lmBorderAt_range (s : State) (k : Comp) (aovr : Bool) (i : Nat) :
    0 ≤ lmBorderAt s k aovr i ∧ lmBorderAt s k aovr i ≤ 255 := by
  refine substituted_range fun j => ?_
  simp only [lmHistorySample]
  split_ifs <;> exact val_sample rfl _

theorem smoothedAt_range {r : Nat → Int} (hr : ∀ i, 0 ≤ r i ∧ r i ≤ 255) (n i : Nat) :
    0 ≤ smoothedAt n r i ∧ smoothedAt n r i ≤ 255 := by
  have hbelow := hr (i - 1)
  have hat := hr i
  have habove := hr (i + 1)
  unfold smoothedAt
  split_ifs <;> omega

/-! ### The checks -/

theorem dimensionBad_eq (s : State) (d : Nat) : dimensionBad s d = !dimLegal s.cuLog2 d := by
  rw [Bool.eq_iff_iff]
  simp only [dimensionBad, dimLegal, decide_eq_true_eq, Bool.not_eq_true', Bool.and_eq_false_iff,
    decide_eq_false_iff_not, not_le, or_assoc]
  exact Iff.rfl

theorem pictureBad_eq (s : State) : pictureBad s = !s.pictureValid := by
  simp only [pictureBad, State.pictureValid, sizeBad_eq, dimensionBad_eq, Bool.not_and]

theorem positionBad_eq (s : State) : positionBad s = !s.positionInside := by
  rw [Bool.eq_iff_iff]
  simp only [positionBad, State.positionInside, decide_eq_true_eq, Bool.not_eq_true', Bool.and_eq_false_iff,
    decide_eq_false_iff_not, not_lt]
  exact Iff.rfl

/-- `CHECK` of a `REFBUILD` is the "Errors" line of its rule (R200). -/
theorem check_refbuild (s : State) (c : BitVec 2) (aovr : Bool) :
    s.check (.refbuild c aovr) = firstFailing (checks s (.refbuild c aovr)) := by
  simp only [State.check, checks, Instr.wellFormed, Instr.checkedComp, Instr.checksSize, Instr.checksPicture,
    Instr.checksPosition, Instr.modeIllegal, State.ttIllegal, State.qpIllegal, State.sliceIllegal, Option.any_some,
    badComponent_eq, sizeBad_eq, pictureBad_eq, positionBad_eq]
  cases componentBad s c <;> cases s.sizeLegal <;> cases s.pictureValid <;> cases s.positionInside <;> rfl

theorem refbuild_checked (h : s.check (.refbuild c aovr) = none) : s.sizeLegal = true := by
  obtain ⟨-, -, hsize, -⟩ := check_eq_none.mp h
  exact hsize rfl

/-! ### Reads and writes -/

/-- The model reads what the rule's "Reads" line lists (R200). -/
theorem refbuildReads_eq (s : State) (c : BitVec 2) (aovr : Bool) :
    refbuildReads c aovr s = readsOf s (.refbuild c aovr) := by
  simp only [refbuildReads, State.flagReads, State.segmentReads, effectiveFlags_eq, readsOf, availableSpans, State.x0,
    Bool.and_eq_true, decide_eq_true_eq]

theorem refbuildWrites_eq (s : State) (c : BitVec 2) (aovr : Bool) :
    refbuildWrites c s = writesOf s (.refbuild c aovr) := by
  simp only [refbuildWrites, writesOf, ← compOf_eq_y_iff]
  cases compOf c <;> rfl

/-- The array that `REFBUILD` writes beside `REF_c` (R200). -/
def secondArr (k : Comp) : Arr := if k = .y then .reff0 else .lmref

/-- What `REFBUILD` writes to it: the smoothed border of luma, the LM border of chroma. -/
def secondRow (s : State) (k : Comp) (aovr : Bool) : List Int :=
  if k = .y then (List.range (4 * s.sizeOf k + 1)).map (smoothedAt (s.sizeOf k) (borderAt s k aovr))
  else (List.range (2 * s.sizeOf k)).map (lmBorderAt s k aovr)

/-- The storage after a `REFBUILD` that passes its checks. -/
def storageAfter (s : State) (k : Comp) (aovr : Bool) : State :=
  (s.putRow (.ref k) 0 ((List.range (4 * s.sizeOf k + 1)).map (borderAt s k aovr))).putRow (secondArr k) 0
    (secondRow s k aovr)

theorem refbuildEffect_eq (s : State) (c : BitVec 2) (aovr : Bool) :
    refbuildEffect c aovr s
      = { storageAfter s (compOf c) aovr with
          res := { s.res with avail := some (availWord s (compOf c) aovr) } } := by
  simp only [refbuildEffect, effectiveFlags_bits, border_eq, lmBorder_eq, smooth_eq]
  cases compOf c <;> rfl

theorem secondArr_ne_ref (k : Comp) : secondArr k ≠ .ref k := by
  cases k <;> decide

theorem secondRow_length_le (hs : s.sizeLegal = true) (k : Comp) :
    (secondRow s k aovr).length ≤ (secondArr k).size := by
  unfold secondRow secondArr
  split
  · have hn := (sizeOf_le hs k).2
    simp only [List.length_map, List.length_range, Arr.size]
    omega
  · rename_i hk
    have hn := sizeOf_chroma_le hs hk
    simp only [List.length_map, List.length_range, Arr.size]
    omega

/-- An element of a row of samples just written from the array's start. -/
theorem elem?_putRow_samples {a : Arr} {f : Nat → Int} (hk : a.kind = .sample) (hf : ∀ i, 0 ≤ f i ∧ f i ≤ 255)
    (hi : i < len) : (s.putRow a 0 ((List.range len).map f)).elem? a i = some (f i) := by
  rw [State.putRow, elem?_putRow?_inside (by omega) (by simpa using hi), hk]
  simp [hi, stored_sample (hf i)]

theorem storageAfter_ref (hs : s.sizeLegal = true) (hi : i ≤ 4 * s.sizeOf k) :
    (storageAfter s k aovr).elem? (.ref k) i = some (borderAt s k aovr i) := by
  have hn := (sizeOf_le hs k).2
  have hlen := secondRow_length_le (aovr := aovr) hs k
  rw [storageAfter, State.putRow, elem?_putRow?_other (secondArr_ne_ref k) (show i < 129 by omega) (by simpa using hlen)]
  exact elem?_putRow_samples rfl (borderAt_range s k aovr) (by omega)

theorem storageAfter_reff0 (hi : i ≤ 4 * s.sizeOf .y) :
    (storageAfter s .y aovr).elem? .reff0 i = some (smoothedAt (s.sizeOf .y) (borderAt s .y aovr) i) :=
  elem?_putRow_samples rfl (smoothedAt_range (borderAt_range s .y aovr) _) (by omega)

theorem storageAfter_lmref (hk : k ≠ .y) (hi : i < 2 * s.sizeOf k) :
    (storageAfter s k aovr).elem? .lmref i = some (lmBorderAt s k aovr i) := by
  rw [storageAfter, secondArr, secondRow, if_neg hk, if_neg hk]
  exact elem?_putRow_samples rfl (lmBorderAt_range s k aovr) hi

/-! ### The statements -/

/-- Settles O14: checks, flags and reads are the rule's, and the rows written hold R195's substitution and R196's
smoothing of it, which are samples and so storable. -/
theorem refbuildResult : Obligations.RefbuildResult := by
  intro c aovr s
  refine commandRule_of (check_refbuild s c aovr) (fun _ => by rw [← refbuildReads_eq]; rfl) fun h _ => ?_
  have hs := refbuild_checked h
  refine ⟨?_, ?_, fun i hi => ?_, fun hc i hi => ?_, fun hc i hi => ?_⟩
  · rw [← refbuildWrites_eq s c aovr]
    exact fun addr hout => (writesSpans_refbuild c aovr s).byte?_eq hout
  · rw [effect, refbuildEffect_eq]
    rfl
  · rw [effect, refbuildEffect_eq]
    exact storageAfter_ref hs hi
  · have hk := (compOf_eq_y_iff c).mpr hc
    rw [effect, refbuildEffect_eq]
    rw [hk] at hi ⊢
    exact storageAfter_reff0 hi
  · rw [effect, refbuildEffect_eq]
    exact storageAfter_lmref (fun hk => hc ((compOf_eq_y_iff c).mp hk)) hi

/-- A command that passed its checks and answered a next state had all values it reads, so its rule gives the result. -/
theorem post_of_commandRule {i : Instr} {answer : Answer} {checks : List (Bool × ErrCode)} {rs ws : List Span}
    {post : State → Prop} (hrule : CommandRule i s answer checks rs ws post) (hchecks : firstFailing checks = none)
    (hnext : answer = .next t) : post t := by
  by_cases hv : HasValues s rs
  · obtain ⟨t', ht', -, hpost⟩ := hrule.completes hchecks hv
    cases hnext.symm.trans ht'
    exact hpost
  · obtain ⟨a, e, hfault, -⟩ := hrule.undefined hchecks hv
    cases hnext.symm.trans hfault

/-- `AVAIL` after a `REFBUILD` without an error (R202). -/
theorem avail_of_refbuild (hchecks : firstFailing (checks s (.refbuild c aovr)) = none)
    (h : exec (.refbuild c aovr) s = .next t) : t.res.avail = some (availWord s (compOf c) aovr) := by
  obtain ⟨hcompleted, -⟩ := post_of_commandRule (refbuildResult c aovr s) hchecks h
  exact congrArg (fun t => t.res.avail) hcompleted

/-- Settles O29: a run of blocks fits the top history of every component or of none. -/
theorem availabilitySameForAllComponents : Obligations.AvailabilitySameForAllComponents := by
  intro c d aovr s t u hc hd ht hu
  have hs := refbuild_checked ((check_refbuild s c aovr).trans hc)
  rw [avail_of_refbuild hc ht, avail_of_refbuild hd hu, availWord_eq_luma hs, availWord_eq_luma hs (compOf d)]

/-- Settles O30: the border and the LM border hold R195's substitution by the flags of `AVAIL`. -/
theorem borderLeavesNoGap : Obligations.BorderLeavesNoGap := by
  intro c aovr s t hchecks h
  obtain ⟨-, href, -, hlm⟩ := post_of_commandRule (refbuildResult c aovr s) hchecks h
  obtain ⟨-, hl, -, ht, -⟩ := availWord_getLsbD s (compOf c) aovr
  refine ⟨availWord s (compOf c) aovr, avail_of_refbuild hchecks h, ?_, fun hc => ?_⟩
  · simp only [availWord_segmentBit]
    exact paddedWithoutGap_of_substituted fun i hi => href i (by omega)
  · simp only [apply_ite (availWord s (compOf c) aovr).getLsbD, hl, ht]
    exact paddedWithoutGap_of_substituted (hlm hc)

end Sys2Proof.Machine.RefBuildProofs
end

section
/-! PROOFS. The default fit of the linear model (43_intrapred.md R241-R249): on borders read as lists and as functions of
their index it is the rule's, and its normalisation keeps the slope and the shift within their bounds. -/

namespace Sys2Proof.Machine.IntraFitProofs

open ArithLaws Claims PredictorProofs

/-! ### Bit lengths -/

theorem bitlen_eq_bits (v : Nat) : bitlen v = bits v := by
  unfold bitlen bits
  split_ifs with h
  · simp [h]
  · exact le_antisymm (Nat.lt_size.mpr (Nat.log2_self_le h)) (Nat.size_le.mpr Nat.lt_log2_self)

/-- For -1, too, the redundant sign bits are 15 less the bits of the magnitude, which are none (R249). -/
theorem clz1_eq (a : Int) : clz1 a = redundantSigns a := by
  unfold clz1 redundantSigns
  rw [bitlen_eq_bits]
  split_ifs with h0 h1
  · rfl
  · subst h1
    rfl
  · omega
  · rfl
  · rfl

/-! ### The steps of the fit -/

/-- Of the table of reciprocals a positive index reads the rounded quotient of R248. -/
theorem mul_lmDiv (a v : Int) :
    (if 1 ≤ v then a * lmDiv v.toNat else 0) = if 1 ≤ v then a * ((2 ^ 15 + v / 2) / v) else 0 := by
  refine if_ctx_congr Iff.rfl (fun h => ?_) fun _ => rfl
  obtain ⟨k, rfl⟩ := Int.eq_ofNat_of_zero_le (show 0 ≤ v by omega)
  simp [lmDiv]

/-- A scaling by a difference of two counts shifts right or left by its magnitude (R243). -/
theorem shift_difference (v : Int) (up down : Nat) :
    (if (down : Int) + 2 - up < 0 then shl v (-((down : Int) + 2 - up)).toNat else asr v ((down : Int) + 2 - up).toNat)
      = if up ≤ down + 2 then v / 2 ^ (down + 2 - up) else v * 2 ^ (up - (down + 2)) := by
  by_cases h : up ≤ down + 2
  · have hshift : ((down : Int) + 2 - up).toNat = down + 2 - up := by omega
    rw [if_neg (by omega), if_pos h, hshift, asr]
  · have hshift : (-((down : Int) + 2 - up)).toNat = up - (down + 2) := by omega
    rw [if_pos (by omega), if_neg h, hshift, shl]

theorem clip3_eq_max {lo hi : Int} (h : lo ≤ hi) (v : Int) : clip3 lo hi v = max lo (min hi v) := by
  unfold clip3
  omega

/-- A shift by `lg + 1` multiplies by twice the block size. -/
theorem shl_lg_succ {n lg : Nat} (hn : n = 2 ^ lg) (v : Int) : shl v (lg + 1) = v * (2 * n) := by
  subst hn
  unfold shl
  push_cast
  rw [pow_succ, mul_comm ((2 : Int) ^ lg)]

/-! ### The sums (R241) -/

section Fit

variable {m r : List Int} {f g : Nat → Int} {n lg : Nat} (hn : n = 2 ^ lg) (hlg : lg ≤ 6)
  (hm : ∀ i < 2 * n, m.getD i 0 = f i) (hr : ∀ i ≤ 4 * n, r.getD i 0 = g i)

include hm hr in
theorem neighbourSum_eq (h : Int → Int → Int) : neighbourSum n m r h = neighbourTotal n f g h := by
  unfold neighbourSum neighbourTotal
  rw [← sumTo_eq, ← sumTo_eq]
  congr 1
  · refine sumTo_congr fun j hj => ?_
    rw [hm _ (by omega), topSample_eq hr (by omega)]
  · refine sumTo_congr fun i hi => ?_
    rw [hm _ (by omega), leftSample_eq hr]

include hn hlg hm hr

/-- No size of the block reduces its sums: `ts` is 0. -/
theorem lmSums_eq : lmSums n m r =
    { x := neighbourTotal n f g fun a _ => a
      y := neighbourTotal n f g fun _ b => b
      xx := neighbourTotal n f g fun a _ => a * a
      xy := neighbourTotal n f g fun a b => a * b
      cs := lg + 1 } := by
  have hlog : n.log2 = lg := by rw [hn, Nat.log2_two_pow]
  have hts : lg - 6 = 0 := Nat.sub_eq_zero_of_le hlg
  simp only [lmSums, neighbourSum_eq hm hr, hlog, hts, lt_self_iff_false, if_false, Nat.sub_zero, pow_two]

theorem lmSlope_eq : lmSlope (lmSums n m r) = lmSlopeOf n f g := by
  rw [lmSums_eq hn hlg hm hr]
  simp only [lmSlope, lmSlopeOf, shl_lg_succ hn, bitlen_eq_bits, shift_difference, mul_lmDiv,
    clip3_eq_max (show (-32768 : Int) ≤ 32767 by decide)]
  rfl

/-- The default of `LM_PARAMS` is the fit of R241-R245. -/
theorem lmParamsDefault_eq : lmParamsDefault n m r = lmFit n f g := by
  have hround : shl 1 (lg + 1 - 1) = n := by simp [shl, hn]
  simp only [lmParamsDefault, lmFit, lmSlope_eq hn hlg hm hr]
  rw [lmSums_eq hn hlg hm hr]
  simp only [asr_lg_succ hn, hround, clz1_eq, Bool.or_eq_true, decide_eq_true_eq]
  rfl

end Fit

/-! ### The bounds of the fit (R243, R244) -/

/-- The sign bits of a 16-bit value leave it `16 - CLZ1` bits with its sign. -/
theorem range_of_clz1 {v : Int} (h16 : -32768 ≤ v ∧ v ≤ 32767) (h0 : v ≠ 0) :
    -2 ^ (15 - clz1 v) ≤ v ∧ v < 2 ^ (15 - clz1 v) := by
  obtain ⟨w, hw⟩ : ∃ w, (if v < 0 then -v - 1 else v).toNat = w := ⟨_, rfl⟩
  have hbits : bits w ≤ 15 := Nat.size_le.mpr (by norm_num; split_ifs at hw <;> omega)
  have hlt : (w : Int) < 2 ^ bits w := by exact_mod_cast Nat.lt_size_self w
  have hclz : clz1 v = 15 - bits w := by rw [clz1_eq, redundantSigns, if_neg h0, hw]
  have hcount : 15 - (15 - bits w) = bits w := by omega
  rw [hclz, hcount]
  split_ifs at hw <;> omega

/-- Normalisation to 7 bits (R243): a slope outside -64..63 loses all its bits but seven. -/
theorem normalised_range {v : Int} (h16 : -32768 ≤ v ∧ v ≤ 32767) (hout : v < -64 ∨ 63 < v) :
    -64 ≤ asr v (9 - clz1 v) ∧ asr v (9 - clz1 v) ≤ 63 := by
  obtain ⟨hlo, hhi⟩ := range_of_clz1 h16 (by omega)
  have hclz : clz1 v ≤ 9 := by
    by_contra hc
    have hpow : (2 : Int) ^ (15 - clz1 v) ≤ 2 ^ 5 := pow_le_pow_right₀ (by decide) (by omega)
    omega
  have hsplit : 15 - clz1 v = 9 - clz1 v + 6 := by omega
  rw [hsplit, pow_add] at hlo hhi
  have hpos : (0 : Int) < 2 ^ (9 - clz1 v) := by positivity
  exact ⟨(Int.le_ediv_iff_mul_le hpos).mpr (by omega),
    Int.lt_add_one_iff.mp ((Int.ediv_lt_iff_lt_mul hpos).mpr (by omega))⟩

theorem lmSlope_range (t : LmSums) : -32768 ≤ lmSlope t ∧ lmSlope t ≤ 32767 := sat16_range _

theorem lmParamsDefault_slope_range (n : Nat) (m r : List Int) :
    -64 ≤ (lmParamsDefault n m r).1 ∧ (lmParamsDefault n m r).1 ≤ 63 := by
  have h16 := lmSlope_range (lmSums n m r)
  simp only [lmParamsDefault, Bool.or_eq_true, decide_eq_true_eq]
  split_ifs with hout
  · exact normalised_range h16 hout
  · simp only [asr, pow_zero, Int.ediv_one]
    omega

/-- Settles O33: a slope outside its range is normalised to 7 bits, by at most 9 shifts. -/
theorem lmParametersBounded : Obligations.LmParametersBounded := fun lg m r _ _ =>
  have ⟨hlo, hhi⟩ := lmParamsDefault_slope_range (2 ^ lg) m r
  ⟨hlo, hhi, InvariantProofs.lmParamsDefault_shift (2 ^ lg) m r⟩

end Sys2Proof.Machine.IntraFitProofs
end

section
/-! PROOFS. `PRED` on the default build: its border, its edge filters and its reads are the ones the rules name, so each
mode's statement is the one for every build at that mode. With the properties of the predictors alone: every prediction
is a sample (43_intrapred.md R234), and the named directions copy (R233). -/

namespace Sys2Proof.Machine.IntraPredictionProofs

open ArithLaws ElementLaws CommandLaws Claims PredictorProofs IntraFitProofs

/-! ### What the default build selects -/

/-- The default thresholds of R199 smooth exactly the modes its second table lists. -/
theorem smoothedMode_eq {lg m : Nat} (h2 : 2 ≤ lg) (h5 : lg ≤ 5) (h34 : m ≤ 34) :
    smoothedMode (2 ^ lg) m = intraFilterDefault lg m := by
  have h : ∀ lg ≤ 5, 2 ≤ lg → ∀ m ≤ 34, smoothedMode (2 ^ lg) m = intraFilterDefault lg m := by decide
  exact h lg h5 h2 m h34

/-- LM is smoothed on no size. -/
theorem smoothedMode_of_gt {m : Nat} (n : Nat) (h : 34 < m) : smoothedMode n m = false := by
  unfold smoothedMode
  split <;> simp <;> omega

variable {s : State}

theorem predBorderOn_default (hs : s.sizeLegal = true) (k : Comp) (m : Nat) :
    predBorderOn defaultBuild s k m = predBorder s k m := by
  obtain ⟨h2, h5⟩ := sizeLegal_iff.mp hs
  unfold predBorderOn predBorder
  refine if_congr (and_congr_right fun hk => ?_) rfl rfl
  subst hk
  by_cases h34 : m ≤ 34
  · rw [State.sizeOf, smoothedMode_eq (lg := s.lgOf .y) h2 h5 h34]
    exact and_iff_right h34
  · simp [h34, smoothedMode_of_gt (s.sizeOf .y) (not_le.mp h34)]

theorem predReadsOn_default (hs : s.sizeLegal = true) (c : BitVec 2) (mode : BitVec 6) :
    predReadsOn defaultBuild s (compOf c) mode.toNat = readsOf s (.pred c mode) := by
  rw [predReadsOn, predBorderOn_default hs]
  rfl

/-- Every luma size is within the default `EDGE_FILT_MAX_LOG2`. -/
theorem edges_default (hs : s.sizeLegal = true) (k : Comp) :
    decide (k = .y ∧ s.lgOf k ≤ defaultBuild.edgeFiltMaxLog2) = decide (k = .y) :=
  decide_eq_decide.mpr (and_iff_left (lgOf_le hs k).2)

/-- The prediction of the modes 0 to 34 on the default build. -/
theorem predictedOn_default (hs : s.sizeLegal = true) (k : Comp) (m : Nat) :
    predictedOn defaultBuild s k m = fun y x =>
      if m = 0 then planarAt (borderSample s k m) (s.sizeOf k) y x
      else if m = 1 then dcPredAt (decide (k = .y)) (borderSample s k m) (s.sizeOf k) y x
      else angularAt (decide (k = .y)) (borderSample s k m) (s.sizeOf k) m y x := by
  funext y x
  simp only [predictedOn, predBorderOn_default hs, edges_default hs]
  rfl

/-! ### The statement of every build, on the default one -/

/-- A rule under whose checks the reads are others' and the result implies another is the rule with those. -/
theorem commandRule_mono {i : Instr} {answer : Answer} {checks : List (Bool × ErrCode)} {rs rs' ws : List Span}
    {post post' : State → Prop} (h : CommandRule i s answer checks rs ws post)
    (hreads : firstFailing checks = none → rs = rs') (hpost : firstFailing checks = none → ∀ t, post t → post' t) :
    CommandRule i s answer checks rs' ws post' where
  errors := h.errors
  undefined hc hv := h.undefined hc (hreads hc ▸ hv)
  completes hc hv := by
    obtain ⟨t, hnext, hkeep, ht⟩ := h.completes hc (hreads hc ▸ hv)
    exact ⟨t, hnext, hkeep, hpost hc t ht⟩

variable {c : BitVec 2} {mode : BitVec 6}

/-- No failing check leaves a legal size. -/
theorem sizeLegal_of_checks (h : firstFailing (checks s (.pred c mode)) = none) : s.sizeLegal = true :=
  (pred_checked ((check_pred s c mode).trans h)).1

/-- The rule of a `PRED` in a mode of at most 34, from the prediction of the default build at a legal size. -/
theorem rule_pred_of_le {f : Nat → Nat → Int} (h34 : mode.toNat ≤ 34)
    (hf : s.sizeLegal = true → predictedOn defaultBuild s (compOf c) mode.toNat = f) :
    Rule (.pred c mode) s fun t => WroteBlock s t (.buf .pred (compOf c)) (s.sizeOf (compOf c)) s.res f := by
  refine commandRule_mono (predOnEveryBuild defaultBuild c mode s)
    (fun h => predReadsOn_default (sizeLegal_of_checks h) c mode) fun h t ⟨hwrote, _⟩ => ?_
  rw [← hf (sizeLegal_of_checks h)]
  exact hwrote h34

/-- Settles O15: the prediction of the default build, in mode 0. -/
theorem predPlanarResult : Obligations.PredPlanarResult :=
  fun c _ => rule_pred_of_le (by decide) fun hs => predictedOn_default hs (compOf c) 0

/-- Settles O16: the prediction of the default build, in mode 1. -/
theorem predDcResult : Obligations.PredDcResult :=
  fun c _ => rule_pred_of_le (by decide) fun hs => predictedOn_default hs (compOf c) 1

/-- Settles O17: the prediction of the default build, in the modes that are neither 0 nor 1. -/
theorem predAngularResult : Obligations.PredAngularResult := by
  intro c mode s h2 h34
  refine rule_pred_of_le h34 fun hs => ?_
  rw [predictedOn_default hs]
  funext y x
  rw [if_neg (by omega), if_neg (by omega)]

/-- The LM parameters of the default build are the fit of R241-R245. -/
theorem lmParamsOn_default (hs : s.sizeLegal = true) (k : Comp) : lmParamsOn defaultBuild s k = lmParamsOf s k := by
  have hlg : s.lgOf k ≤ 6 := (lgOf_le hs k).2.trans (by decide)
  exact lmParamsDefault_eq rfl hlg (fun i hi => by simp [hi]) fun i hi => by simp [Nat.lt_succ_of_le hi]

/-- Settles O18: the prediction and the fit of the default build, in mode 35. -/
theorem predLmResult : Obligations.PredLmResult := by
  intro c s
  refine commandRule_mono (predOnEveryBuild defaultBuild c 35#6 s)
    (fun h => predReadsOn_default (sizeLegal_of_checks h) c 35#6) fun h t ⟨_, hlm⟩ => ?_
  rw [← lmParamsOn_default (sizeLegal_of_checks h)]
  exact hlm rfl

/-! ### The predictors alone -/

/-- Entry `i` of a list of samples, or the 0 past its end. -/
theorem getD_range {r : List Int} (hr : ∀ v ∈ r, 0 ≤ v ∧ v ≤ 255) (i : Nat) : 0 ≤ r.getD i 0 ∧ r.getD i 0 ≤ 255 := by
  by_cases hi : i < r.length
  · rw [List.getD_eq_getElem _ _ hi]
    exact hr _ (List.getElem_mem hi)
  · rw [List.getD_eq_default _ _ (not_lt.mp hi)]
    omega

/-- Every mode's predictor keeps to the samples, as each of its means does (R234). -/
theorem predictBlock_range {r : List Int} {n lg m y x : Nat} (p : BuildParams) (k : Comp) (hn : n = 2 ^ lg)
    (h34 : m ≤ 34) (hr : ∀ v ∈ r, 0 ≤ v ∧ v ≤ 255) (hy : y < n) (hx : x < n) :
    0 ≤ (predictBlock p r n lg m k).get y x ∧ (predictBlock p r n lg m k).get y x ≤ 255 := by
  have hf := getD_range hr
  match m, h34 with
  | 0, _ =>
    rw [predictBlock, planar_eq (fun _ _ => rfl) hn, tabulate_get hy hx]
    exact planarAt_range hf hy hx
  | 1, _ =>
    rw [predictBlock, dcPredict_eq (fun _ _ => rfl) hn, tabulate_get hy hx]
    exact dcPredAt_range hf (by omega) _
  | m + 2, h34 =>
    have hmode : predictBlock p r n lg (m + 2) k = angularPredict p r n lg (m + 2) k := rfl
    rw [hmode, angularPredict_eq (fun _ _ => rfl) (Nat.le_add_left 2 m) h34, tabulate_get hy hx]
    exact angularAt_range hf _ _

/-- Settles O31: planar, DC and angular outputs are rounded means or clipped, and LM outputs are clipped. -/
theorem predictionsAreSamples : Obligations.PredictionsAreSamples := by
  refine ⟨fun p r lg m k _ _ h34 _ hr y hy x hx => predictBlock_range p k rfl h34 hr hy hx,
    fun s fit n y hy x hx => ?_⟩
  rw [lmPredict_eq, tabulate_get hy hx]
  exact toSample_range _

/-! ### The named directions (R233) -/

/-- A direction of whole samples projects without interpolation (R230). -/
theorem projectedAt_of_whole {f : Nat → Int} {n m : Nat} {q : Int} (h : angleOf m = 32 * q) (along across : Nat) :
    projectedAt f n m along across = refAt f n m (across + (along + 1) * q + 1) := by
  have hpos : ((along : Int) + 1) * (32 * q) = 32 * ((along + 1) * q) := by ring
  simp only [projectedAt, h, hpos, Int.mul_emod_right, if_true,
    Int.mul_ediv_cancel_left _ (show (32 : Int) ≠ 0 by decide)]

/-- At or above 0 the reference runs along the main border. -/
theorem refAt_natCast (f : Nat → Int) (n m i : Nat) :
    refAt f n m i = f (if 18 ≤ m then 2 * n + i else 2 * n - i) := by
  simp [refAt]

/-- The diagonal extends below 0 along the side border without a change of scale (R229). -/
theorem refAt_diagonal_of_neg (f : Nat → Int) (n : Nat) {i : Nat} (h : 0 < i) : refAt f n 18 (-i) = f (2 * n - i) := by
  have hneg : ¬ (0 : Int) ≤ -i := by omega
  have hinv : invAngleOf (angleOf 18) = -256 := by decide
  have hj : ((-(i : Int) * -256 + 128) / 256).toNat = i := by omega
  simp only [refAt, if_neg hneg, hinv, hj]
  rfl

variable {p : BuildParams} {r : List Int} {n lg m y x : Nat}

/-- Chroma has no boundary filter (R232): its angular predictor only projects. -/
theorem angularPredict_chroma (h2 : 2 ≤ m) (h34 : m ≤ 34) (hy : y < n) (hx : x < n) :
    (angularPredict p r n lg m .u).get y x
      = if 18 ≤ m then projectedAt (fun i => r.getD i 0) n m y x else projectedAt (fun i => r.getD i 0) n m x y := by
  rw [angularPredict_eq (fun _ _ => rfl) h2 h34, tabulate_get hy hx]
  simp [angularAt, edgeFiltered]

/-- A vertical mode that moves `q` whole samples away from the corner per row copies the top. -/
theorem vertical_whole {q : Nat} (h18 : 18 ≤ m) (h34 : m ≤ 34) (hq : angleOf m = 32 * q) (hy : y < n) (hx : x < n) :
    (angularPredict p r n lg m .u).get y x = topSample r n (x + (y + 1) * q) := by
  have hrun : (x : Int) + (y + 1) * q + 1 = (x + (y + 1) * q + 1 : Nat) := by push_cast; rfl
  have hindex : 2 * n + (x + (y + 1) * q + 1) = 2 * n + 1 + (x + (y + 1) * q) := by omega
  rw [angularPredict_chroma (by omega) h34 hy hx, if_pos h18, projectedAt_of_whole hq, hrun, refAt_natCast, if_pos h18,
    hindex, topSample]

/-- A horizontal mode that moves `q` whole samples away from the corner per column copies the left. -/
theorem horizontal_whole {q : Nat} (h2 : 2 ≤ m) (h18 : m < 18) (hq : angleOf m = 32 * q) (hy : y < n) (hx : x < n) :
    (angularPredict p r n lg m .u).get y x = leftSample r n (y + (x + 1) * q) := by
  have hrun : (y : Int) + (x + 1) * q + 1 = (y + (x + 1) * q + 1 : Nat) := by push_cast; rfl
  have hindex : 2 * n - (y + (x + 1) * q + 1) = 2 * n - 1 - (y + (x + 1) * q) := by omega
  rw [angularPredict_chroma h2 (by omega) hy hx, if_neg (not_le.mpr h18), projectedAt_of_whole hq, hrun, refAt_natCast,
    if_neg (not_le.mpr h18), hindex, leftSample]

/-- The diagonal copies the top above the main diagonal, the left below it and the corner on it. -/
theorem diagonal_mode18 (hy : y < n) (hx : x < n) :
    (angularPredict p r n lg 18 .u).get y x
      = if y < x then topSample r n (x - y - 1)
        else if x < y then leftSample r n (y - x - 1)
        else cornerSample r n := by
  have hrun : (x : Int) + (y + 1) * -1 + 1 = x - y := by ring
  rw [angularPredict_chroma (by decide) (by decide) hy hx, if_pos (by decide),
    projectedAt_of_whole (q := -1) (by decide), hrun]
  split_ifs with htop hleft
  · have hi : (x : Int) - y = (x - y : Nat) := by omega
    have hindex : 2 * n + (x - y) = 2 * n + 1 + (x - y - 1) := by omega
    rw [hi, refAt_natCast, if_pos (by decide), hindex, topSample]
  · have hi : (x : Int) - y = -(y - x : Nat) := by omega
    have hindex : 2 * n - (y - x) = 2 * n - 1 - (y - x - 1) := by omega
    rw [hi, refAt_diagonal_of_neg _ _ (by omega), hindex, leftSample]
  · have hi : (x : Int) - y = (0 : Nat) := by omega
    rw [hi, refAt_natCast, if_pos (by decide), Nat.add_zero, cornerSample]

/-- Settles O32: each of the five directions moves whole samples per row or column: none, one away from the corner, or one
towards it. -/
theorem namedDirectionalPredictors : Obligations.NamedDirectionalPredictors := by
  intro p r lg _ _ _ y hy x hx
  have hsum : x + (y + 1) * 1 = x + y + 1 ∧ y + (x + 1) * 1 = x + y + 1 := by omega
  refine ⟨vertical_whole (q := 0) ?_ ?_ ?_ hy hx, horizontal_whole (q := 0) ?_ ?_ ?_ hy hx,
    hsum.2 ▸ horizontal_whole (q := 1) ?_ ?_ ?_ hy hx, hsum.1 ▸ vertical_whole (q := 1) ?_ ?_ ?_ hy hx,
    diagonal_mode18 hy hx⟩ <;> decide

end Sys2Proof.Machine.IntraPredictionProofs
end

section
/-! PROOFS. The control commands (44_mpm_control.md): `NOP`, the mode deriver `MPM`, the two steps that join the components,
and the histories, which `FRAME_INIT` and `HIST_UPDATE` write as rows of different arrays, so each row reads back. -/

namespace Sys2Proof.Machine.ControlProofs

open ElementLaws CommandLaws RuleLaws PredictorProofs StorageProofs TransformProofs RefBuildProofs Claims

variable {s : State} {i : Instr} {mode : BitVec 6}

/-! ### The checks -/

theorem firstFailing_cons (b : Bool) (code : ErrCode) (rest : List (Bool × ErrCode)) :
    firstFailing ((b, code) :: rest) = if b then some code else firstFailing rest := by
  cases b <;> rfl

/-- `CHECK` of a well-formed command that has no transform type, no QP and no slice to check. -/
theorem check_eq_ite (hwf : i.wellFormed = true) (htt : s.ttIllegal i = false) (hqp : s.qpIllegal i = false)
    (hslice : s.sliceIllegal i = false) :
    s.check i =
      if i.checkedComp.any (componentBad s) then some .illegalComponent
      else if i.checksSize && sizeBad s then some .badSize
      else if i.checksPicture && pictureBad s then some .badPicture
      else if i.checksPosition && positionBad s then some .badPosition
      else if i.modeIllegal then some .illegalMode
      else none := by
  have hcomp : s.badComponent = componentBad s := funext (badComponent_eq s)
  simp [State.check, hwf, htt, hqp, hslice, hcomp, sizeBad_eq, pictureBad_eq, positionBad_eq]

/-- `CHECK` of every command is the "Errors" line of its rule. -/
theorem check_eq_checks (s : State) (i : Instr) : s.check i = firstFailing (checks s i) := by
  cases i with
  | refbuild c aovr => exact check_refbuild s c aovr
  | pred c mode => exact check_pred s c mode
  | fdct c mode tt dsth dstv => exact check_fdct s c mode tt dsth dstv
  | quant c => exact QuantizerProofs.check_quant s c
  | dequant c => exact QuantizerProofs.check_dequant s c
  | idct c mode tt dsth dstv => exact check_fdct s c mode tt dsth dstv
  | nop | frameInit | resid c | recon c | mpm | histUpdate mode =>
    rw [check_eq_ite rfl rfl rfl rfl]
    simp only [checks, firstFailing_cons]
    rfl

theorem sizeOf_le_of_check (h : s.check i = none) (hi : i.checksSize = true) (k : Comp) : s.sizeOf k ≤ 32 := by
  obtain ⟨-, -, hsize, -⟩ := check_eq_none.mp h
  exact (sizeOf_le (hsize hi) k).2

/-- A `HIST_UPDATE` that passes its checks is at a position inside a valid picture. -/
theorem histUpdate_checked (h : s.check (.histUpdate mode) = none) :
    s.pictureValid = true ∧ s.positionInside = true := by
  obtain ⟨-, -, -, hpic, hpos, -⟩ := check_eq_none.mp h
  exact ⟨hpic rfl, hpos rfl⟩

/-! ### `NOP` (R274) -/

/-- A word of opcode 0 with a bit in 25:0 has one in a field. -/
theorem reservedBad_of_opcode_zero {w : Word} (hop : opOf w = 0) (hbits : w.toNat % 2 ^ 26 ≠ 0) :
    reservedBad w = true := by
  have hfields : w.toNat % 2 ^ 13 ≠ 0 ∨ cOf w ≠ 0 ∨ modeOf w ≠ 0 ∨ (ttOf w ≠ 0 ∨ dstOf w ≠ 0) ∨ aovrOf w ≠ 0 := by
    unfold cOf modeOf ttOf dstOf aovrOf
    omega
  simpa [reservedBad, hop] using hfields

/-- Settles O12: `NOP` has no check, no read and no write, and a non-zero bit beside its opcode lies in a field. -/
theorem nopOnlyCompletes : Obligations.NopOnlyCompletes := by
  refine ⟨fun s => ?_, by decide, fun w hop hbits => ?_⟩
  · exact (exec_eq .nop s).trans (run_next rfl rfl)
  · obtain ⟨-, hreserved, -⟩ := EncodingProofs.decodeChecksFollowFormats w
    exact hreserved (by omega) (reservedBad_of_opcode_zero hop hbits)

/-! ### `RESID` and `RECON` (R264, R265) -/

/-- The difference of two samples fits a coefficient. -/
theorem stored_sample_difference (s : State) (k : Comp) (e : Nat) :
    stored .coefficient (s.val (.buf .org k) e - s.val (.buf .pred k) e)
      = s.val (.buf .org k) e - s.val (.buf .pred k) e := by
  have horg := val_sample (s := s) (a := .buf .org k) rfl e
  have hpred := val_sample (s := s) (a := .buf .pred k) rfl e
  exact stored_coefficient (by omega)

/-- Settles O20: `RESID` writes the block of differences, each between -255 and 255 and so storable. -/
theorem residResult : Obligations.ResidResult := by
  intro c s
  refine rule_of_putBlock (check_eq_checks s _) rfl rfl (fun h => sizeOf_le_of_check h rfl _) (fun _ => ?_)
    fun _ _ _ _ => stored_sample_difference s _ _
  exact congrArg (s.putBlock _) (tabulate_congr fun _ hy _ hx => by rw [block_get hy hx, block_get hy hx]; rfl)

/-- Settles O25: `RECON` writes the block of sums, clipped to samples and so storable. -/
theorem reconResult : Obligations.ReconResult := by
  intro c s
  refine rule_of_putBlock (check_eq_checks s _) rfl rfl (fun h => sizeOf_le_of_check h rfl _) (fun _ => ?_)
    fun _ _ _ _ => stored_sample (toSample_range _)
  exact congrArg (s.putBlock _) (tabulate_congr fun _ hy _ hx => by
    rw [clip8_eq, block_get hy hx, block_get hy hx]; rfl)

/-! ### `MPM` (R260-R263) -/

theorem modeOrDc_toNat {v : Int} (h : 0 ≤ v) : modeOrDc v.toNat = orDc v := by
  unfold modeOrDc orDc
  split_ifs <;> omega

theorem orDc_le (v : Int) : orDc v ≤ 34 := by
  unfold orDc
  split <;> omega

/-- The model's `MPMSET` is the rule's, on modes already substituted. -/
theorem mpmSet_eq (left top : Nat) :
    mpmOf (modeOrDc left) (modeOrDc top)
      = [(mpmSet left top).1, (mpmSet left top).2.1, (mpmSet left top).2.2] := by
  unfold mpmOf mpmSet
  generalize modeOrDc left = a
  generalize modeOrDc top = b
  simp only [Bool.and_eq_true, decide_eq_true_eq]
  split_ifs <;> simp <;> omega

/-- The candidates `MPM` computes from a state's histories (R261, R262). -/
def candidates (s : State) : List Nat := mpmOf (orDc (s.val .leftMode 0)) (orDc (s.val .topMode s.col))

theorem mpmResult_eq (s : State) :
    s.mpmResult = ⟨BitVec.ofNat 6 ((candidates s).getD 0 0), BitVec.ofNat 6 ((candidates s).getD 1 0),
      BitVec.ofNat 6 ((candidates s).getD 2 0)⟩ := by
  have hleft := (val_mode (s := s) (a := .leftMode) rfl 0).1
  have htop := (val_mode (s := s) (a := .topMode) rfl s.col).1
  rw [candidates, ← modeOrDc_toNat hleft, ← modeOrDc_toNat htop, mpmSet_eq]
  rfl

/-- Settles O26: `MPM` writes one register, whose fields are the rule's candidates. -/
theorem mpmResult : Obligations.MpmResult := by
  intro s
  refine commandRule_of (check_eq_checks s _) (fun _ => Iff.rfl) fun _ _ => ⟨fun _ _ => rfl, rfl, ?_⟩
  simp only [effect, mpmEffect, mpmResult_eq]
  rfl

/-- `MPMSET` of two modes: three different modes, the first of them the left one but for two DC modes (R263). -/
theorem mpmOf_distinct {a b : Nat} (ha : a ≤ 34) (hb : b ≤ 34) :
    ∃ x y z, mpmOf a b = [x, y, z] ∧ x ≠ y ∧ x ≠ z ∧ y ≠ z ∧ x ≤ 34 ∧ y ≤ 34 ∧ z ≤ 34
      ∧ x = if a = 1 ∧ b = 1 then 0 else a := by
  unfold mpmOf
  split_ifs <;> exact ⟨_, _, _, rfl, by omega⟩

/-- Settles O28: the candidates are different numbers below 64, and so different 6-bit fields. -/
theorem mpmCandidatesDistinct : Obligations.MpmCandidatesDistinct := by
  intro s t hchecks h
  obtain ⟨-, hcompleted⟩ := post_of_commandRule (mpmResult s) hchecks h
  obtain ⟨x, y, z, hm, hxy, hxz, hyz, hx, hy, hz, hfirst⟩ :=
    mpmOf_distinct (orDc_le (s.val .leftMode 0)) (orDc_le (s.val .topMode s.col))
  have hfield : ∀ {v : Nat}, v ≤ 34 → (BitVec.ofNat 6 v).toNat = v := fun hv => by
    rw [BitVec.toNat_ofNat, Nat.mod_eq_of_lt (by omega)]
  refine ⟨⟨BitVec.ofNat 6 x, BitVec.ofNat 6 y, BitVec.ofNat 6 z⟩, ?_, ?_⟩
  · rw [hm] at hcompleted
    exact congrArg (fun t => t.res.mpm) hcompleted
  · simp only [ne_eq, ← BitVec.toNat_inj, hfield hx, hfield hy, hfield hz]
    exact ⟨hxy, hxz, hyz, hx, hy, hz, hfirst⟩

/-! ### Rows written to different arrays -/

/-- One row of elements to write, values and lacks of value alike. -/
structure RowWrite where
  arr : Arr
  start : Nat
  vals : List (Option Int)

/-- The elements the row is written to. -/
def RowWrite.span (w : RowWrite) : Span := ⟨w.arr, w.start, w.vals.length⟩

/-- The state after the rows have been written in turn. -/
def writeRows (s : State) (ws : List RowWrite) : State := ws.foldl (fun t w => t.putRow? w.arr w.start w.vals) s

/-- Every element of the row holds what was written to it. -/
def ReadsBack (t : State) (w : RowWrite) : Prop :=
  ∀ j < w.vals.length, t.elem? w.arr (w.start + j) = (w.vals[j]?).join.map (stored w.arr.kind)

variable {ws : List RowWrite}

theorem writeRows_append (s : State) (ws ws' : List RowWrite) :
    writeRows s (ws ++ ws') = writeRows (writeRows s ws) ws' := List.foldl_append

theorem elem?_writeRows_other {a : Arr} {e : Nat} (hin : SpansInside (ws.map RowWrite.span)) (he : e < a.size)
    (hne : a ∉ ws.map RowWrite.arr) : (writeRows s ws).elem? a e = s.elem? a e := by
  induction ws generalizing s with
  | nil => rfl
  | cons w ws ih =>
    rw [List.map_cons, List.mem_cons, not_or] at hne
    obtain ⟨hw, hrest⟩ := List.forall_mem_cons.mp hin
    exact (ih hrest hne.2).trans (elem?_putRow?_other (Ne.symm hne.1) he hw)

/-- A row written to an array of its own reads back. -/
theorem readsBack_writeRows {w : RowWrite} (hnodup : (ws.map RowWrite.arr).Nodup)
    (hin : SpansInside (ws.map RowWrite.span)) (hw : w ∈ ws) : ReadsBack (writeRows s ws) w := by
  induction ws generalizing s with
  | nil => exact absurd hw List.not_mem_nil
  | cons w' ws ih =>
    obtain ⟨hne, hnodup⟩ := List.nodup_cons.mp hnodup
    obtain ⟨hfirst, hrest⟩ := List.forall_mem_cons.mp hin
    rcases List.mem_cons.mp hw with rfl | hw
    · intro j hj
      have hsize : w.start + w.vals.length ≤ w.arr.size := hfirst
      refine (elem?_writeRows_other (ws := ws) hrest (by omega) hne).trans ?_
      rw [elem?_putRow?_inside (by omega) (by omega), Nat.add_sub_cancel_left]
    · exact ih hnodup hrest hw

/-! ### `FRAME_INIT` (R270) -/

/-- The sentinel in the whole of a mode history. -/
def sentinelRow (a : Arr) : RowWrite := ⟨a, 0, (List.replicate a.size invalidMode).map some⟩

/-- The rows of `FRAME_INIT`. -/
def frameInitRows : List RowWrite := [Arr.topMode, Arr.leftMode].map sentinelRow

theorem frameInitEffect_eq (s : State) :
    frameInitEffect s
      = { writeRows s frameInitRows with cuPos := 0#32, status := { s.status with frameEnd := false } } := rfl

theorem frameInitRows_inside : SpansInside (frameInitRows.map RowWrite.span) := by
  simp [SpansInside, frameInitRows, sentinelRow, RowWrite.span]

/-- Every element of the two mode histories is the sentinel. -/
theorem elem?_frameInitRows {a : Arr} {j : Nat} (ha : a ∈ [Arr.topMode, Arr.leftMode]) (hj : j < a.size) :
    (writeRows s frameInitRows).elem? a j = some 0xFF := by
  have hk : a.kind = .mode := by
    revert a
    simp [Arr.kind]
  have hnodup : (frameInitRows.map RowWrite.arr).Nodup := by decide
  have hread := readsBack_writeRows (s := s) hnodup frameInitRows_inside (List.mem_map_of_mem ha) j
    (by simpa [sentinelRow] using hj)
  simpa [sentinelRow, hj, hk, stored, invalidMode] using hread

/-- The rule of `FRAME_INIT`, which computes from no element. -/
theorem frameInit_rule (s : State) : Rule .frameInit s fun t =>
    t = { s with
        mem := t.mem
        cuPos := 0#32
        status := { s.status with done := true, frameEnd := false }
        pending := none }
      ∧ (∀ k ≤ 1024, t.elem? .topMode k = some 0xFF) ∧ t.elem? .leftMode 0 = some 0xFF
      ∧ t.elem? .leftMode 1 = some 0xFF := by
  refine commandRule_of (check_eq_checks s _) (fun _ => Iff.rfl) fun _ _ =>
    ⟨fun _ hout => (writesSpans_frameInit s).byte?_eq hout, ?_⟩
  rw [effect, frameInitEffect_eq]
  refine ⟨rfl, fun k hk => ?_, ?_, ?_⟩
  · exact elem?_frameInitRows (by simp) (show k < 1025 by omega)
  · exact elem?_frameInitRows (by simp) (by decide)
  · exact elem?_frameInitRows (by simp) (by decide)

/-- Settles O13: the command's rule, with its one word and no element to lack a value. -/
theorem frameInitResult : Obligations.FrameInitResult := by
  intro s
  have hrule := frameInit_rule s
  exact ⟨hrule.errors, fun h => hrule.completes h fun _ hsp => absurd hsp List.not_mem_nil⟩

/-! ### `HIST_UPDATE` (R266-R273) -/

/-- The rows of one component's histories (R267, R268). -/
def historyRows (s : State) (k : Comp) : List RowWrite :=
  [⟨.corner k, s.col, [s.elem? (.topPix k) (s.x0 k + s.sizeOf k - 1)]⟩,
    ⟨.topPix k, s.x0 k, s.row? (.buf .reco k) (32 * (s.sizeOf k - 1)) (s.sizeOf k)⟩,
    ⟨.leftPix k, 0, (List.range (s.sizeOf k)).map fun j => s.elem? (.buf .reco k) (32 * j + (s.sizeOf k - 1))⟩]

/-- The rows of the LM histories (R272). -/
def lmRows (s : State) : List RowWrite :=
  if s.cuLog2 = 2 then []
  else [⟨.lmTop, s.col * s.sizeOf .u, s.lmTopRow.map some⟩, ⟨.lmLeft, 0, s.lmLeftCol.map some⟩]

/-- The entries of the mode histories (R269, R273). -/
def modeRows (mode : BitVec 6) (s : State) : List RowWrite :=
  [⟨.topMode, s.col, [some (mode.toNat : Int)]⟩,
    ⟨.leftMode, 0, [some (if s.rowEnds then invalidMode else (mode.toNat : Int))]⟩]

/-- The rows of `HIST_UPDATE`. -/
def histUpdateRows (mode : BitVec 6) (s : State) : List RowWrite :=
  s.updatedComps.flatMap (historyRows s) ++ lmRows s ++ modeRows mode s

theorem foldl_copyHistories_eq (s t : State) (ks : List Comp) :
    ks.foldl (copyHistories s) t = writeRows t (ks.flatMap (historyRows s)) := by
  induction ks generalizing t with
  | nil => rfl
  | cons k ks ih => rw [List.foldl_cons, ih, List.flatMap_cons, writeRows_append]; rfl

theorem updateLm_eq (s t : State) : updateLm s t = writeRows t (lmRows s) := by
  unfold updateLm lmRows
  split <;> rfl

theorem histUpdateEffect_mem (mode : BitVec 6) (s : State) :
    (histUpdateEffect mode s).mem = (writeRows s (histUpdateRows mode s)).mem := by
  rw [histUpdateEffect, advance_mem, foldl_copyHistories_eq, updateLm_eq, histUpdateRows, writeRows_append,
    writeRows_append]
  rfl

/-- The rows are those of the "Writes" line. -/
theorem histUpdateRows_span (mode : BitVec 6) (s : State) :
    (histUpdateRows mode s).map RowWrite.span = histUpdateWrites s := by
  unfold histUpdateRows histUpdateWrites State.updatedComps lmRows
  split <;> simp [historyRows, State.historyWrites, modeRows, RowWrite.span, State.lmTopRow, State.lmLeftCol]

theorem histUpdateRows_nodup (mode : BitVec 6) (s : State) : ((histUpdateRows mode s).map RowWrite.arr).Nodup := by
  unfold histUpdateRows State.updatedComps lmRows
  split <;> simp [historyRows, modeRows]

/-- Each row of a `HIST_UPDATE` that passes its checks reads back. -/
theorem readsBack_histUpdate {w : RowWrite} (h : s.check (.histUpdate mode) = none)
    (hw : w ∈ histUpdateRows mode s) : ReadsBack (histUpdateEffect mode s) w := by
  obtain ⟨hp, hi⟩ := histUpdate_checked h
  have hin : SpansInside ((histUpdateRows mode s).map RowWrite.span) :=
    histUpdateRows_span mode s ▸ histUpdateWrites_inside hp hi
  intro j hj
  rw [State.elem?, histUpdateEffect_mem]
  exact readsBack_writeRows (histUpdateRows_nodup mode s) hin hw j hj

/-- Copying a sample to an array of samples keeps its value or its lack of one. -/
theorem map_stored_sample {a : Arr} (hk : a.kind = .sample) (e : Nat) :
    (s.elem? a e).map (stored .sample) = s.elem? a e := by
  cases h : s.elem? a e with
  | none => rfl
  | some v => rw [Option.map_some, stored_sample (LaneProofs.elem?_range (by simp [hk]) h)]

/-- The histories of a component that is updated. -/
theorem historiesMoved {k : Comp} (h : s.check (.histUpdate mode) = none) (hk : k ∈ s.updatedComps) :
    HistoriesMoved s (histUpdateEffect mode s).completeOk k := by
  have hread : ∀ w ∈ historyRows s k, ReadsBack (histUpdateEffect mode s) w := fun w hw =>
    readsBack_histUpdate h (List.mem_append_left _ (List.mem_append_left _ (List.mem_flatMap.mpr ⟨k, hk, hw⟩)))
  simp only [historyRows, List.forall_mem_cons] at hread
  obtain ⟨hcorner, htop, hleft, -⟩ := hread
  refine ⟨?_, fun j hj => ?_, fun j hj => ?_⟩
  · exact (hcorner 0 (by simp)).trans (map_stored_sample (a := .topPix k) rfl _)
  · have hrow := htop j (by simpa using hj)
    rw [row?_getElem? hj] at hrow
    exact hrow.trans (map_stored_sample (a := .buf .reco k) rfl _)
  · have hcol := hleft j (by simpa using hj)
    rw [List.getElem?_map, List.getElem?_range hj, Nat.zero_add] at hcol
    exact hcol.trans (map_stored_sample (a := .buf .reco k) rfl _)

/-- The mean of two samples, as the LM histories store it (R272). -/
theorem stored_luma_mean (s : State) (row col row' col' : Nat) :
    stored .sample (asr (s.recoLuma row col + s.recoLuma row' col') 1)
      = (luma s row col + luma s row' col') / 2 := by
  have hfirst := val_sample (s := s) (a := .buf .reco .y) rfl (at2 row col)
  have hsecond := val_sample (s := s) (a := .buf .reco .y) rfl (at2 row' col')
  exact stored_sample (v := (luma s row col + luma s row' col') / 2) (by unfold luma; omega)

/-- The LM histories, from `CU_LOG2` = 3 on. -/
theorem lmMoved (h : s.check (.histUpdate mode) = none) (h2 : s.cuLog2 ≠ 2) :
    LmMoved s (histUpdateEffect mode s).completeOk := by
  have hread : ∀ w ∈ lmRows s, ReadsBack (histUpdateEffect mode s) w := fun w hw =>
    readsBack_histUpdate h (List.mem_append_left _ (List.mem_append_right _ hw))
  simp only [lmRows, if_neg h2, List.forall_mem_cons] at hread
  obtain ⟨htop, hleft, -⟩ := hread
  obtain ⟨hp, hi⟩ := histUpdate_checked h
  have hy := (sizeOf_y (position_bounds hp hi).1).1
  refine ⟨fun j hj => ?_, fun j hj => ?_⟩
  · have hrow := htop j (by simpa [State.lmTopRow] using hj)
    rw [State.lmTopRow, hy, List.getElem?_map, List.getElem?_map, List.getElem?_range hj] at hrow
    exact hrow.trans (congrArg some (stored_luma_mean s _ _ _ _))
  · have hcol := hleft j (by simpa [State.lmLeftCol] using hj)
    rw [State.lmLeftCol, hy, List.getElem?_map, List.getElem?_map, List.getElem?_range hj, Nat.zero_add] at hcol
    exact hcol.trans (congrArg some (stored_luma_mean s _ _ _ _))

/-- The entries of the mode histories. -/
theorem modesMoved (h : s.check (.histUpdate mode) = none) :
    (histUpdateEffect mode s).elem? .topMode s.col = some (mode.toNat : Int)
      ∧ (histUpdateEffect mode s).elem? .leftMode 0 = some (if lastInRow s then 0xFF else (mode.toNat : Int)) := by
  have hread : ∀ w ∈ modeRows mode s, ReadsBack (histUpdateEffect mode s) w := fun w hw =>
    readsBack_histUpdate h (List.mem_append_right _ hw)
  simp only [modeRows, List.forall_mem_cons] at hread
  obtain ⟨htop, hleft, -⟩ := hread
  have hmode := mode.isLt
  refine ⟨(htop 0 (by simp)).trans (congrArg some (stored_mode (by omega))),
    (hleft 0 (by simp)).trans (congrArg some (stored_mode (v := if lastInRow s then 0xFF else _) ?_))⟩
  split <;> omega

/-- `CU_POS` as a number. -/
theorem posWord_eq (row : Nat) {col : Nat} (hcol : col < 65536) :
    posWord row col = BitVec.ofNat 32 (row * 65536 + col) := by
  apply BitVec.eq_of_toNat_eq
  rw [posWord, RegisterProofs.toNat_append_add, BitVec.toNat_ofNat, BitVec.toNat_ofNat, BitVec.toNat_ofNat]
  omega

/-- The advance (R273). -/
theorem nextPos_eq (hcol : s.col < 1024) :
    nextPos s = if s.rowEnds then posWord (s.rowIx + 1) 0 else posWord s.rowIx (s.col + 1) := by
  have hlast : s.rowEnds = lastInRow s := rfl
  rw [nextPos, hlast]
  split
  · simp [posWord_eq (s.rowIx + 1) (col := 0)]
  · rw [posWord_eq s.rowIx (col := s.col + 1) (by omega)]

/-- The model computes from the elements of the "Reads" line (R266, R272), in another order. -/
theorem hasValues_histUpdateReads (hs : s.sizeLegal = true) :
    HasValues s (readsOf s (.histUpdate mode)) ↔ HasValues s (histUpdateReads s) := by
  have hhalf : s.sizeOf .y / 2 = s.sizeOf .u := by
    have hy := (sizeOf_y hs).1
    omega
  by_cases h2 : s.cuLog2 = 2
  · have hempty : readsOf s (.histUpdate mode) = histUpdateReads s := (if_pos h2).trans (if_pos h2).symm
    rw [hempty]
  · simp only [readsOf, histUpdateReads]
    rw [if_neg h2, if_neg (show ¬ s.cfg.cuLog2.toNat = 2 from h2)]
    simp only [HasValues, hhalf, List.forall_mem_append, List.forall_mem_flatMap, List.forall_mem_map,
      List.forall_mem_cons, forall_and]
    simp [oneElem, at2]

/-- The model writes the spans of the "Writes" line (R266). -/
theorem histUpdateWrites_eq (s : State) (mode : BitVec 6) : histUpdateWrites s = writesOf s (.histUpdate mode) := by
  by_cases h2 : s.cuLog2 = 2
  · have hcfg : s.cfg.cuLog2.toNat = 2 := h2
    simp only [histUpdateWrites, writesOf, State.updatedComps, if_pos h2, if_pos hcfg]
    rfl
  · have hcfg : ¬ s.cfg.cuLog2.toNat = 2 := h2
    simp only [histUpdateWrites, writesOf, State.updatedComps, if_neg h2, if_neg hcfg]
    rfl

theorem luma_mem_updatedComps (s : State) : .y ∈ s.updatedComps := by
  unfold State.updatedComps
  split <;> simp

theorem mem_updatedComps_of_ne (h2 : s.cuLog2 ≠ 2) (k : Comp) : k ∈ s.updatedComps := by
  rw [State.updatedComps, if_neg h2]
  cases k <;> simp

/-- Settles O27: the rows written are of different arrays, so each reads back what it copied from the state before the
command, and besides them only the advance is made. -/
theorem histUpdateResult : Obligations.HistUpdateResult := by
  intro mode s
  refine commandRule_of (check_eq_checks s _) (fun h => ?_) fun h _ => ?_
  · obtain ⟨hp, hi⟩ := histUpdate_checked ((check_eq_checks s _).trans h)
    exact hasValues_histUpdateReads (position_bounds hp hi).1
  · obtain ⟨hp, hi⟩ := histUpdate_checked h
    obtain ⟨-, hcol, -, hcols, -⟩ := position_bounds hp hi
    obtain ⟨htop, hleft⟩ := modesMoved h
    have hchroma := fun h2 k => historiesMoved h (mem_updatedComps_of_ne h2 k)
    refine ⟨?_, historiesMoved h (luma_mem_updatedComps s), fun h2 => ⟨hchroma h2 .u, hchroma h2 .v, lmMoved h h2⟩,
      htop, hleft, ?_⟩
    · rw [← histUpdateWrites_eq]
      exact fun _ hout => (writesSpans_histUpdate mode s).byte?_eq hout
    · rw [effect, histUpdate_state, nextPos_eq (by omega)]
      rfl

end Sys2Proof.Machine.ControlProofs
end

section
/-! PROOFS. Acceptance, checks and completion (60_exceptions.md R290-R297): a `CMD` write fills the slot; a step that no
access overtakes executes the word; the ten rows of the check table on the word's bits are the decoder's two checks and
those of `CHECK`; and every completion leaves `DONE` set, which raises the interrupt output. -/

namespace Sys2Proof.Machine.ExceptionProofs

open CommandLaws RuleLaws RegisterProofs HostMoveProofs FrameProofs EncodingProofs PredictorProofs TransformProofs
open QuantizerProofs RefBuildProofs ControlProofs Claims

variable {s t : State} {p : BuildParams} {w : Word} {i : Instr}

/-! ### The engine's step (R291) -/

theorem stepIn_of_not_overtaken (hp : s.pending = some w) (ho : s.hostOvertakes = false) :
    stepIn p s = s.engineMove p w := by
  simp only [stepIn, State.move, hp, ho, Bool.false_eq_true, if_false]

theorem stepIn_of_decoded (hp : s.pending = some w) (ho : s.hostOvertakes = false) (hd : decodeWord w = .ok i) :
    stepIn p s = execIn p i s := by
  rw [stepIn_of_not_overtaken hp ho, State.engineMove, hd]

theorem step_of_decoded (hp : s.pending = some w) (ho : s.hostOvertakes = false) (hd : decodeWord w = .ok i) :
    step s = exec i s := by
  rw [step, stepIn_of_decoded hp ho hd, execIn_default]

/-- A word the decoder rejects completes with the decoder's error. -/
theorem step_of_rejected {code : ErrCode} (hp : s.pending = some w) (ho : s.hostOvertakes = false)
    (hd : decodeWord w = .error code) : step s = .next (errored s code w) := by
  rw [step, stepIn_of_not_overtaken hp ho, State.engineMove, hd, ← completeError_eq]

/-- Settles O6: with no access that overtakes, the engine moves, and it executes the decoded command. -/
theorem stepRunsDecodedCommand : Obligations.StepRunsDecodedCommand :=
  fun _ _ _ hp hd ho => ⟨step_of_decoded hp ho hd, fun _ => stepIn_of_decoded hp ho hd⟩

/-! ### Acceptance (R290) -/

/-- A write of `CMD` has the word accepted. -/
theorem hostWrite_cmd (p : BuildParams) (s : State) (w : Word) :
    s.hostWrite p 0x00010#17 32 w = { s.accept w with response := some ⟨false, 0#32⟩ } :=
  hostWrite_offset p s .cmd w

/-- Settles O7: the first step accepts the word, which leaves no access that could overtake it. -/
theorem writtenCommandRuns : Obligations.WrittenCommandRuns := by
  intro s w i hp hb hd
  refine ⟨State.hostWrite { s with bus := [] } defaultBuild 0x00010#17 32 w, ?_, ?_⟩
  · rw [step, stepIn_of_idle hp, hostMove_of_cons hb, State.perform]
  · rw [hostWrite_cmd]
    exact ⟨rfl, rfl, rfl, rfl, step_of_decoded rfl rfl hd⟩

/-- Setting bit 0 of a word whose bit 0 is clear. -/
theorem append_true (x : BitVec 31) : x ++ BitVec.ofBool true = (x ++ BitVec.ofBool false) ||| 1#32 := by
  apply BitVec.eq_of_getLsbD_eq
  intro j _
  simp only [BitVec.getLsbD_or, BitVec.getLsbD_append, BitVec.getLsbD_one]
  cases j with
  | zero => rfl
  | succ j => simp

/-- Acceptance by an idle block sets `BUSY` and changes no other bit of `STATUS`. -/
theorem statusWord_accept (hp : s.pending = none) (w : Word) : (s.accept w).statusWord = s.statusWord ||| 1#32 := by
  have hidle : s.busy = false := by rw [State.busy, hp]; rfl
  unfold State.statusWord
  rw [hidle]
  exact append_true _

theorem predEffect_cmd (p : BuildParams) (c : BitVec 2) (mode : BitVec 6) (s : State) :
    (predEffect p c mode s).cmd = s.cmd := by
  simp only [predEffect]
  split <;> simp [lmPredEffect]

/-- No command of any build writes `CMD`. -/
theorem execIn_cmd (h : execIn p i s = .next t) : t.cmd = s.cmd := by
  by_cases hpred : ∃ c mode, i = .pred c mode
  · obtain ⟨c, mode, rfl⟩ := hpred
    obtain ⟨code, -, rfl⟩ | ⟨-, -, rfl⟩ := run_cases h
    · rfl
    · exact predEffect_cmd p c mode s
  · rw [execIn_of_ne_pred p s fun c mode hi => hpred ⟨c, mode, hi⟩] at h
    obtain ⟨-, hcmd, -⟩ := exec_host_frame h
    exact hcmd

theorem engineMove_cmd (h : s.engineMove p w = .next t) : t.cmd = s.cmd := by
  unfold State.engineMove at h
  split at h
  · exact execIn_cmd h
  · cases h
    rfl

/-- Settles O44: the write is a write of the register `CMD`; the address of `CMD` is none of those never held, so with a
command pending the engine moves. -/
theorem cmdWriteIsAccepted : Obligations.CmdWriteIsAccepted := by
  refine ⟨fun p s w hp => ?_, fun p s t w v bits rest hp hb h => ?_⟩
  · rw [hostWrite_cmd]
    refine ⟨rfl, wordAt_offset _ .cmd, ?_, rfl, rfl, rfl, rfl, rfl, rfl, rfl⟩
    calc _ = some (s.accept w).statusWord := wordAt_offset _ .status
      _ = some (s.statusWord ||| 1#32) := by rw [statusWord_accept hp]
      _ = _ := congrArg (Option.map (· ||| 1#32)) (wordAt_offset s .status).symm
  · have ho : s.hostOvertakes = false := by
      rw [← Bool.not_eq_true, hostOvertakes_of_cons hb]
      exact fun ⟨haddr, _⟩ =>
        absurd haddr (show (0x00010#17).toNat ∉ [0x000, 0x004, 0x008, 0x00C] by decide)
    obtain ⟨hbus, -⟩ := stepIn_of_held hp ho h
    rw [stepIn_of_not_overtaken hp ho] at h
    exact ⟨hbus, engineMove_cmd h⟩

/-! ### The check table on the bits of the word (R292) -/

/-- Order 7 for an intra mode, on the word's bits. -/
theorem intraModeBad_ofNat (w : Word) :
    intraModeBad (BitVec.ofNat 2 (cOf w)) (BitVec.ofNat 6 (modeOf w))
      = decide (35 < modeOf w ∨ (modeOf w = 35 ∧ cOf w = 0)) := by
  have hc : cOf w % 4 = cOf w := Nat.mod_mod _ _
  have hmode : modeOf w % 64 = modeOf w := Nat.mod_mod _ _
  simp only [intraModeBad, BitVec.toNat_ofNat, Nat.reducePow, hc, hmode]

/-- A block has 4 samples a side at `CU_LOG2` = 2, and a chroma block at `CU_LOG2` = 3. -/
theorem sizeOf_eq_four_iff (s : State) (c : BitVec 2) :
    s.sizeOf (compOf c) = 4 ↔ s.cfg.cuLog2.toNat - (if c.toNat = 0 then 0 else 1) = 2 := by
  have hlg : s.lgOf (compOf c) = s.cfg.cuLog2.toNat - (if c.toNat = 0 then 0 else 1) := by
    simp only [← compOf_eq_y_iff]
    cases compOf c <;> rfl
  rw [State.sizeOf, hlg]
  exact Nat.pow_right_inj (n := 2) (by norm_num)

/-- Order 8, on the word's bits. -/
theorem typeBad_ofNat (s : State) (w : Word) :
    typeBad s (BitVec.ofNat 2 (cOf w)) (BitVec.ofNat 2 (ttOf w)) (decide (2 ≤ dstOf w)) (decide (dstOf w % 2 = 1))
      = decide (ttOf w = 3 ∨ (ttOf w = 2 ∧ dstOf w ≠ 0
        ∧ s.cfg.cuLog2.toNat - (if cOf w = 0 then 0 else 1) ≠ 2)) := by
  have hc : cOf w % 4 = cOf w := Nat.mod_mod _ _
  have htt : ttOf w % 4 = ttOf w := Nat.mod_mod _ _
  have hdst : dstOf w ≠ 0 ↔ 2 ≤ dstOf w ∨ dstOf w % 2 = 1 := by omega
  simp only [typeBad, ne_eq, sizeOf_eq_four_iff, BitVec.toNat_ofNat, Nat.reducePow, hc, htt, hdst, decide_eq_true_eq]

/-- The conditions of `CHECK` of a word's command are the table's from order 3 on. -/
theorem conditions_of_commandOf (s : State) (h : commandOf w = some i) :
    i.checkedComp.any s.badComponent
        = (decide (opOf w ∈ [2, 3, 4, 5, 6, 7, 8, 9]) && componentBad s (BitVec.ofNat 2 (cOf w)))
      ∧ i.checksSize = decide (opOf w ≠ 0)
      ∧ i.checksPicture = decide (opOf w ∈ [1, 2, 10, 11])
      ∧ i.checksPosition = decide (opOf w ∈ [2, 10, 11])
      ∧ i.modeIllegal = decide (((opOf w = 3 ∨ (opOf w ∈ [5, 8] ∧ ttOf w = 0))
          ∧ (35 < modeOf w ∨ (modeOf w = 35 ∧ cOf w = 0))) ∨ (opOf w = 11 ∧ 34 < modeOf w))
      ∧ s.ttIllegal i = decide (opOf w ∈ [5, 8] ∧ (ttOf w = 3 ∨ (ttOf w = 2 ∧ dstOf w ≠ 0
          ∧ s.cfg.cuLog2.toNat - (if cOf w = 0 then 0 else 1) ≠ 2)))
      ∧ s.qpIllegal i = (decide (opOf w ∈ [6, 7]) && qpBad s (BitVec.ofNat 2 (cOf w)))
      ∧ s.sliceIllegal i = (decide (opOf w = 6) && sliceBad s) := by
  have htt : (BitVec.ofNat 2 (ttOf w) == 0#2) = decide (ttOf w = 0) := by
    rw [beq_eq_decide]
    exact decide_eq_decide.mpr (ofNat_mod_eq_iff (by decide))
  have hmode : modeOf w % 64 = modeOf w := Nat.mod_mod _ _
  rw [Bool.decide_and (opOf w ∈ [5, 8]), ← typeBad_ofNat]
  unfold commandOf at h
  match opOf w, h with
  | 0, h | 1, h | 2, h | 3, h | 4, h | 5, h | 6, h | 7, h | 8, h | 9, h | 10, h | 11, h =>
    cases h
    refine ⟨?_, rfl, rfl, rfl, ?_, ?_, ?_, ?_⟩
    · simp [Instr.checkedComp, badComponent_eq]
    · simp [Instr.modeIllegal, badIntraMode_eq, intraModeBad_ofNat, htt, hmode]
    · simp [State.ttIllegal, badTransformType_eq]
    · simp [State.qpIllegal, badQp_eq]
    · simp [State.sliceIllegal, sliceBad_eq]
  | _ + 12, h => cases h

/-- Order 1. -/
theorem firstFailing_checkTable_of_none (s : State) (h : commandOf w = none) :
    firstFailing (checkTable s w) = some .illegalOpcode := by
  rw [checkTable, firstFailing_cons, if_pos (decide_eq_true (commandOf_eq_none_iff.mp h))]

/-- The table for a word with a command: order 2 is the decoder's, and the orders from 3 on are those of `CHECK`. -/
theorem firstFailing_checkTable_of_some (s : State) (h : commandOf w = some i) :
    firstFailing (checkTable s w) = if reservedBad w then some .reservedField else s.check i := by
  have hop : decide (0x0B < opOf w) = false := by
    rw [decide_eq_false_iff_not, ← commandOf_eq_none_iff, h]; simp
  cases hres : reservedBad w with
  | true => rw [checkTable, firstFailing_cons, firstFailing_cons, hop, hres]; rfl
  | false =>
    have hwf : i.wellFormed = true := by
      have hd : decodeWord w = .ok i := by rw [decodeWord_of_commandOf_eq_some h, hres]; rfl
      exact (encodeOfDecodeIsIdentity w i hd).2
    obtain ⟨hcomp, hsize, hpic, hpos, hmode, htt, hqp, hslice⟩ := conditions_of_commandOf s h
    simp only [checkTable, firstFailing_cons, hop, hres, State.check, hwf, hcomp, hsize, hpic, hpos, hmode, htt, hqp,
      hslice, ← sizeBad_eq, ← pictureBad_eq, ← positionBad_eq, Bool.not_true, Bool.false_eq_true, if_false]
    rfl

/-- A word the decoder rejects fails the table with the decoder's code. -/
theorem firstFailing_checkTable_of_rejected {code : ErrCode} (s : State) (hd : decodeWord w = .error code) :
    firstFailing (checkTable s w) = some code := by
  cases hcmd : commandOf w with
  | none =>
    rw [decodeWord_of_commandOf_eq_none hcmd] at hd
    cases hd
    exact firstFailing_checkTable_of_none s hcmd
  | some i =>
    rw [decodeWord_of_commandOf_eq_some hcmd] at hd
    rw [firstFailing_checkTable_of_some s hcmd]
    split at hd
    next hres => cases hd; exact if_pos hres
    next => cases hd

/-- A word that decodes is the command of its bits, and the table is that command's `CHECK`. -/
theorem firstFailing_checkTable_of_decoded (s : State) (hd : decodeWord w = .ok i) :
    commandOf w = some i ∧ firstFailing (checkTable s w) = s.check i := by
  cases hcmd : commandOf w with
  | none =>
    rw [decodeWord_of_commandOf_eq_none hcmd] at hd
    cases hd
  | some j =>
    rw [decodeWord_of_commandOf_eq_some hcmd] at hd
    rw [firstFailing_checkTable_of_some s hcmd]
    split at hd
    next => cases hd
    next hres => cases hd; exact ⟨rfl, if_neg hres⟩

/-- A command that passes its checks and answers a next state has recorded no error. -/
theorem exec_of_checked (hc : s.check i = none) (h : exec i s = .next t) :
    t.status.err = s.status.err ∧ t.status.errMulti = s.status.errMulti ∧ t.status.errcode = s.status.errcode
      ∧ t.errinfo = s.errinfo ∧ t.status.done = true ∧ t.pending = none := by
  obtain ⟨code, hcode, -⟩ | ⟨-, -, rfl⟩ := exec_cases h
  · simp [hc] at hcode
  · obtain ⟨-, -, herrinfo, -⟩ := effect_frame i s
    rw [completeOk_status, effect_status]
    exact ⟨rfl, rfl, rfl, herrinfo, rfl, rfl⟩

/-- Settles O11: the decoder rejects the word with the table's code, or the step executes its command, whose `CHECK` is
the table. -/
theorem checksRunInTableOrder : Obligations.ChecksRunInTableOrder := by
  intro s w hp ho
  cases hd : decodeWord w with
  | error code =>
    rw [firstFailing_checkTable_of_rejected s hd, step_of_rejected hp ho hd]
    exact ⟨fun code' hc => by cases hc; rfl, fun hn => by cases hn⟩
  | ok i =>
    obtain ⟨hcmd, htable⟩ := firstFailing_checkTable_of_decoded s hd
    obtain ⟨hword, -⟩ := encodeOfDecodeIsIdentity w i hd
    rw [htable, step_of_decoded hp ho hd]
    refine ⟨fun code hc => ?_, fun hn => ⟨⟨i, hcmd, rfl⟩, fun t ht => exec_of_checked hn ht⟩⟩
    rw [exec_eq, run_error hc, hword, completeError_eq]

/-! ### The interrupt (R297) -/

theorem ctrlWord_bit (s : State) (free : Word) : (s.readReg free .ctrl).getLsbD 0 = s.cfg.irqEn := by
  simp only [State.readReg, BitVec.getLsbD_append, BitVec.getLsbD_ofBool]
  rfl

theorem statusWord_bits (s : State) :
    s.statusWord.getLsbD 1 = s.status.done ∧ s.statusWord.getLsbD 2 = s.status.err := by
  simp only [State.statusWord, BitVec.getLsbD_append, BitVec.getLsbD_ofBool]
  exact ⟨rfl, rfl⟩

/-- A command that answers a next state has completed, with an error or without. -/
theorem exec_done (h : exec i s = .next t) : t.status.done = true := by
  obtain ⟨code, -, rfl⟩ | ⟨-, -, rfl⟩ := exec_cases h
  · exact recordError_done s.status code
  · rfl

/-- A write of `STATUS` clears the bits it names. -/
theorem hostWrite_status (p : BuildParams) (s : State) (v : Word) :
    s.hostWrite p 0x00008#17 32 v
      = { s with status := s.status.writeOneToClear v, response := some ⟨false, 0#32⟩ } :=
  hostWrite_offset p s .status v

/-- Settles O45: the output reads the fields of the bits, a completed command has set `DONE`, the write clears both. -/
theorem completionRaisesInterrupt : Obligations.CompletionRaisesInterrupt := by
  refine ⟨fun s => ?_, fun i s t h => ?_, fun p s v h1 h2 => ?_⟩
  · obtain ⟨hdone, herr⟩ := statusWord_bits s
    rw [ctrlWord_bit, State.readReg, hdone, herr, State.irq]
  · obtain ⟨hcfg, -⟩ := exec_host_frame h
    rw [State.irq, hcfg, exec_done h, Bool.true_or, Bool.and_true]
  · rw [hostWrite_status]
    simp [State.irq, Status.writeOneToClear, h1, h2]

end Sys2Proof.Machine.ExceptionProofs
end

section
/-! PROOFS. The two resets (70_reset_and_hazards.md): the state after power-on meets the invariants; a soft reset abandons
exactly the pending command that would have passed its checks, and clears what that command's rule writes; the size it
leaves is illegal, which fails every command but `NOP`; and a pending command completes, since each access that overtakes
it shortens the queue. -/

namespace Sys2Proof.Machine.ResetProofs

open ElementLaws CommandLaws StorageProofs InvariantProofs RegisterProofs StorageElementProofs
open HostMoveProofs QuantizerProofs RefBuildProofs ControlProofs Claims

variable {s t : State} {p : BuildParams} {i : Instr} {v : Word} {l : List Span} {a : Arr} {e : Nat}

/-! ### Power-on reset (R320) -/

/-- Settles O50: at reset the storage is empty, no command is pending, and the registers hold their reset values. -/
theorem resetMeetsInvariants : Obligations.ResetMeetsInvariants :=
  ⟨rfl, fun _ hcell => absurd hcell List.not_mem_nil, statusConsistent_reset, pendingIsCmd_of_none rfl,
    resultsInRange_reset⟩

/-! ### The abandoned command (R322) -/

/-- The model abandons the command that the rule calls abandoned. -/
theorem abandoned_eq_some_iff : s.abandoned = some i ↔ Abandons s i := by
  simp only [State.abandoned, Abandons, ← check_eq_checks]
  cases s.pending with
  | none => simp
  | some w =>
    cases hd : decodeWord w with
    | error code => simp [hd]
    | ok j =>
      simp only [hd, Option.ite_none_right_eq_some, Option.some.injEq, exists_eq_left', Except.ok.injEq]
      constructor
      · rintro ⟨hc, rfl⟩
        exact ⟨rfl, hc⟩
      · rintro ⟨rfl, hc⟩
        exact ⟨hc, rfl⟩

theorem abandoned_eq_none (h : ∀ i, ¬ Abandons s i) : s.abandoned = none :=
  Option.eq_none_iff_forall_ne_some.mpr fun i hi => h i (abandoned_eq_some_iff.mp hi)

theorem softResetMem_of_not_abandoned (h : s.abandoned = none) : s.softResetMem = s.mem := by
  rw [State.softResetMem, h]

theorem softResetRes_of_not_abandoned (h : s.abandoned = none) : s.softResetRes = Results.reset := by
  rw [State.softResetRes, h]

theorem elem?_softReset_of_abandoned (p : BuildParams) (h : s.abandoned = some i) :
    (s.softReset p).elem? a e = ((storageWrites s i).foldl State.clearSpan s).elem? a e := by
  simp only [State.elem?, State.softReset, State.softResetMem, h]

theorem softResetRes_of_abandoned (h : s.abandoned = some i) : s.softResetRes = Results.reset.abandon i := by
  rw [State.softResetRes, h]

/-- The model writes the spans of every command's "Writes" line. -/
theorem storageWrites_eq (s : State) (i : Instr) : storageWrites s i = writesOf s i := by
  cases i with
  | refbuild c aovr => exact refbuildWrites_eq s c aovr
  | histUpdate mode => exact histUpdateWrites_eq s mode
  | _ => rfl

/-- The result registers a checked command leaves without a value are those of its rule: its mode is at most 35, and its
`C` field names a component. -/
theorem abandon_eq_resultsWithout (h : s.check i = none) : Results.reset.abandon i = resultsWithout i := by
  cases i with
  | pred c mode =>
    obtain ⟨-, hmode⟩ := PredictorProofs.pred_checked h
    by_cases h34 : mode.toNat ≤ 34
    · exact (if_pos h34).trans (if_neg (by omega)).symm
    · exact (if_neg h34).trans (if_pos (by omega)).symm
  | quant c =>
    obtain ⟨-, hcomp, -⟩ := check_eq_none.mp h
    obtain ⟨hc, -⟩ := badComponent_false (s := s) (c := c) hcomp
    exact setCbf_compOf hc { Results.reset with nzsum := none } none
  | _ => rfl

/-- Once spans inside their arrays have been cleared in turn, no element of any of them has a value. -/
theorem elem?_foldl_clearSpan (hin : SpansInside l) (hw : Within l a e) :
    (l.foldl State.clearSpan s).elem? a e = none := by
  induction l generalizing s with
  | nil =>
    obtain ⟨sp, hsp, -⟩ := hw
    exact absurd hsp List.not_mem_nil
  | cons sp l ih =>
    obtain ⟨hsp, hl⟩ := List.forall_mem_cons.mp hin
    rw [List.foldl_cons]
    by_cases hrest : Within l a e
    · exact ih hl hrest
    · obtain ⟨sp', hmem, rfl, hlo, hhi⟩ := hw
      obtain rfl | hmem := List.mem_cons.mp hmem
      · rw [(writesSpans_foldl_clearSpan _ l).elem?_eq hl (by omega) hrest]
        exact elem?_clearSpan_inside hlo hhi
      · exact absurd ⟨sp', hmem, rfl, hlo, hhi⟩ hrest

/-! ### The soft reset (R322, R323) -/

/-- A write of `CTRL` with bit 31 set is the soft reset. -/
theorem hostWrite_softReset (p : BuildParams) (s : State) (h : v.getLsbD 31 = true) :
    s.hostWrite p 0x0000C#17 32 v = { s.softReset p with response := some ⟨false, 0#32⟩ } := by
  have hctrl := hostWrite_offset p s .ctrl v
  rwa [State.writeReg, if_pos h] at hctrl

/-- Settles O46: the reset is the register write; the abandoned command, if there is one, passed its checks, so its spans
lie in their arrays and its outputs are those of its rule. -/
theorem softResetState : Obligations.SoftResetState := by
  intro p s v hv
  rw [hostWrite_softReset p s hv]
  refine ⟨⟨_, rfl⟩, fun hidle => ?_, fun i hi => ?_⟩
  · have hnone := abandoned_eq_none hidle
    exact ⟨softResetMem_of_not_abandoned hnone, softResetRes_of_not_abandoned hnone⟩
  · have hab := abandoned_eq_some_iff.mpr hi
    have hcheck := check_of_abandoned hab
    have hin := storageWrites_inside hcheck
    rw [← storageWrites_eq]
    exact ⟨(softResetRes_of_abandoned hab).trans (abandon_eq_resultsWithout hcheck), fun a e he =>
      ⟨fun hw => (elem?_softReset_of_abandoned p hab).trans (elem?_foldl_clearSpan hin hw), fun hw =>
        (elem?_softReset_of_abandoned p hab).trans ((writesSpans_foldl_clearSpan s _).elem?_eq hin he hw)⟩⟩

/-- A soft reset leaves `CU_LOG2` 0, which is no legal size. -/
theorem sizeLegal_softReset (s : State) (p : BuildParams) : (s.softReset p).sizeLegal = false := rfl

/-- With an illegal size every command but `NOP` fails a check. -/
theorem exists_failed_check_of_not_sizeLegal (hs : s.sizeLegal = false) (hi : i ≠ .nop) :
    ∃ code, s.check i = some code := by
  have hsize : i.checksSize = true := by
    cases i with
    | nop => exact absurd rfl hi
    | _ => rfl
  refine Option.ne_none_iff_exists'.mp fun hc => ?_
  obtain ⟨-, -, hlegal, -⟩ := check_eq_none.mp hc
  exact absurd (hlegal hsize) (by simp [hs])

/-- A failed check completes the command alike on every build. -/
theorem execIn_of_failed_check (p : BuildParams) {code : ErrCode} (h : s.check i = some code) :
    execIn p i s = .next (s.completeError code (encode i)) := by
  by_cases hpred : ∃ c mode, i = .pred c mode
  · obtain ⟨c, mode, rfl⟩ := hpred
    rw [execIn_pred, run_error h]
  · rw [execIn_of_ne_pred p s fun c mode hi => hpred ⟨c, mode, hi⟩, exec_eq, run_error h]

/-- Settles O47: every command but `NOP` checks the size, which is illegal after the reset. -/
theorem afterSoftResetOnlyNopSucceeds : Obligations.AfterSoftResetOnlyNopSucceeds := by
  intro p s v i hv hi
  rw [hostWrite_softReset p s hv]
  obtain ⟨code, hc⟩ := exists_failed_check_of_not_sizeLegal
    (s := { s.softReset p with response := some ⟨false, 0#32⟩ }) (sizeLegal_softReset s p) hi
  exact ⟨_, (execIn_default i _).symm.trans (execIn_of_failed_check defaultBuild hc), execIn_of_failed_check p hc,
    recordError_err .., rfl⟩

/-! ### Completion of the pending command (R340) -/

/-- A step that leaves a command pending has performed an access that overtook it: it leaves less work. -/
theorem bus_length_lt_of_still_pending (h : step s = .next t) (hs : s.pending.isSome = true)
    (ht : t.pending.isSome = true) : t.bus.length < s.bus.length := by
  have hle := workLeft_step_le h
  rw [workLeft, workLeft, hs, ht, Bool.toNat_true] at hle
  omega

/-- Settles O9, by induction on the number of waiting accesses: a step that does not empty the slot has performed one. -/
theorem pendingCommandCompletes : Obligations.PendingCommandCompletes := by
  intro s hp
  induction hn : s.bus.length using Nat.strong_induction_on generalizing s with
  | _ n ih =>
    obtain ⟨t, ht⟩ | ⟨f, hf⟩ := step_next_or_fault s
    · cases hq : t.pending with
      | none => exact ⟨1, by omega, .inl ⟨t, run_succ_of_next ht 0, hq⟩⟩
      | some w =>
        have hsome : t.pending.isSome = true := by rw [hq, Option.isSome_some]
        have hlt := bus_length_lt_of_still_pending ht hp hsome
        obtain ⟨k, hk, hrun⟩ := ih _ (hn ▸ hlt) t hsome rfl
        refine ⟨k + 1, by omega, ?_⟩
        rwa [run_succ_of_next ht]
    · exact ⟨1, by omega, .inr ⟨f, run_succ_of_fault hf 0⟩⟩

end Sys2Proof.Machine.ResetProofs
end
